-- ==== Sys2Proof/Word.lean ====
section
/-! DEFINITION. The words of AESENG: bytes, 32-bit register values, 16-byte blocks and the round key sequence
(00_scope.md R5, R7). -/

namespace Sys2Proof

/-- A byte (R7). -/
abbrev Byte := BitVec 8

/-- A 32-bit register value (R7); bit 0 is the least significant. -/
abbrev Word := BitVec 32

/-- A block or block state: 16 bytes, byte 0 first (R5, 41_block_transforms.md R120). -/
abbrev Block := Vector Byte 16

/-- The round key sequence: 11 round keys of 16 bytes (R5, 10_state.md R33). -/
abbrev RoundKeys := Vector Block 11

end Sys2Proof
end

