-- ==== Sys2Proof/Syntax.lean ====
section
/-! DEFINITION. The syntax of AESENG: its 20 commands (30_encoding.md R84) and the events of its host
(20_memory.md R50, 70_reset_and_hazards.md R270). -/

namespace Sys2Proof

/-- The mode selector of ENC and DEC (30_encoding.md R86). -/
inductive Mode where
  /-- Electronic codebook, mode value 0. -/
  | ecb
  /-- Cipher block chaining, mode value 1. -/
  | cbc
  /-- Counter mode, mode value 2. -/
  | ctr
  /-- Declared and never functional, mode value 3 (44_modes.md R205). -/
  | gcm
deriving DecidableEq, Repr

/-- The commands, one constructor for each row of the opcode map (R84). Operands are as R83 assembles them: a byte operand,
a round index and a block size are the byte of field A, a flag is the Bool of field B. -/
inductive Instr where
  /-- `GFMUL a, b` (OP 0x01). -/
  | gfmul (a b : Byte)
  /-- `SBOX x` (OP 0x02). -/
  | sbox (x : Byte)
  /-- `ISBOX y` (OP 0x03). -/
  | isbox (y : Byte)
  /-- `SUBB` (OP 0x10). -/
  | subb
  /-- `ISUBB` (OP 0x11). -/
  | isubb
  /-- `SHR` (OP 0x12). -/
  | shr
  /-- `ISHR` (OP 0x13). -/
  | ishr
  /-- `MIXC` and `MIXC.BYP` (OP 0x14). -/
  | mixc (bypass : Bool)
  /-- `IMIXC` and `IMIXC.BYP` (OP 0x15). -/
  | imixc (bypass : Bool)
  /-- `ARK j` (OP 0x16). -/
  | ark (j : Byte)
  /-- `ROUND j` and `ROUND.F j` (OP 0x17). -/
  | round (j : Byte) (final : Bool)
  /-- `IROUND j` and `IROUND.F j` (OP 0x18). -/
  | iround (j : Byte) (final : Bool)
  /-- `KEXP` (OP 0x20). -/
  | kexp
  /-- `ENCB` (OP 0x21). -/
  | encb
  /-- `DECB` (OP 0x22). -/
  | decb
  /-- `ENC m` (OP 0x30). -/
  | enc (m : Mode)
  /-- `DEC m` (OP 0x31). -/
  | dec (m : Mode)
  /-- `PAD n` (OP 0x40). -/
  | pad (n : Byte)
  /-- `UNPAD n` (OP 0x41). -/
  | unpad (n : Byte)
  /-- `VALID n` (OP 0x42). -/
  | valid (n : Byte)
deriving DecidableEq, Repr

/-- What the host can do to AESENG: the four accesses of 20_memory.md R50, at a host byte address, and the platform reset of
70_reset_and_hazards.md R270, which takes effect between two accesses. -/
inductive HostEvent where
  /-- `Read8(addr)`. -/
  | read8 (addr : Nat)
  /-- `Read32(addr)`. -/
  | read32 (addr : Nat)
  /-- `Write8(addr, v)`. -/
  | write8 (addr : Nat) (v : Byte)
  /-- `Write32(addr, v)`. -/
  | write32 (addr : Nat) (v : Word)
  /-- The platform reset input is asserted. -/
  | reset
deriving DecidableEq, Repr

/-- What a host read returned: a byte for Read8, a word for Read32. -/
inductive ReadData where
  /-- The result of a Read8. -/
  | byte (v : Byte)
  /-- The result of a Read32. -/
  | word (v : Word)
deriving DecidableEq, Repr

end Sys2Proof
end

