-- ==== Sys2Proof/WellFormed.lean ====
section
/-! DEFINITION. Which terms of Instr are commands: the operand ranges of 30_encoding.md R82 that the types do not already give. -/

namespace Sys2Proof

/-- The round keys are RK[0..10], so a round index is 0..10 (R82, forms I and IF). -/
def roundIndexOk (j : Byte) : Bool := decide (j.toNat ≤ 10)

/-- A well-formed command (R82, R85). Byte operands and block sizes take every byte; flags and modes are legal by their types. -/
def Instr.wellFormed : Instr → Bool
  | .gfmul _ _ => true
  | .sbox _ => true
  | .isbox _ => true
  | .subb => true
  | .isubb => true
  | .shr => true
  | .ishr => true
  | .mixc _ => true
  | .imixc _ => true
  | .ark j => roundIndexOk j
  | .round j _ => roundIndexOk j
  | .iround j _ => roundIndexOk j
  | .kexp => true
  | .encb => true
  | .decb => true
  | .enc _ => true
  | .dec _ => true
  | .pad _ => true
  | .unpad _ => true
  | .valid _ => true

end Sys2Proof
end

