-- ==== Sys2Proof/Decode.lean ====
section
/-! DEFINITION. Command words: the fields, the legality predicate, the decoder and the encoder (30_encoding.md R80 to R89). -/

namespace Sys2Proof

/-! ## Fields (R81) -/

/-- OP = w[7:0]. -/
def opOf (w : Word) : Byte := w.extractLsb' 0 8

/-- A = w[15:8]. -/
def aOf (w : Word) : Byte := w.extractLsb' 8 8

/-- B = w[23:16]. -/
def bOf (w : Word) : Byte := w.extractLsb' 16 8

/-- Z = w[31:24], reserved. -/
def zOf (w : Word) : Byte := w.extractLsb' 24 8

/-- The command word with the given OP, A and B, and Z = 0 (R81). -/
def packWord (op a b : Byte) : Word := 0#8 ++ b ++ a ++ op

/-! ## Legality (R85) -/

/-- `Legal(OP, A, B, Z)`, the predicate of R85 as the spec writes it. -/
def legalFields (op a b z : Nat) : Bool :=
  decide (z = 0) &&
  ( decide (op = 0x01)
    || ([0x02, 0x03].contains op && decide (b = 0))
    || ([0x10, 0x11, 0x12, 0x13, 0x20, 0x21, 0x22].contains op && decide (a = 0) && decide (b = 0))
    || ([0x14, 0x15].contains op && decide (a = 0) && decide (b ≤ 1))
    || (decide (op = 0x16) && decide (a ≤ 10) && decide (b = 0))
    || ([0x17, 0x18].contains op && decide (a ≤ 10) && decide (b ≤ 1))
    || ([0x30, 0x31].contains op && decide (a ≤ 3) && decide (b = 0))
    || ([0x40, 0x41, 0x42].contains op && decide (b = 0)) )

/-- R85 of a command word: legality depends on the word alone. -/
def legal (w : Word) : Bool := legalFields (opOf w).toNat (aOf w).toNat (bOf w).toNat (zOf w).toNat

/-! ## Decoder -/

/-- Why a word is no command (R87). Every reason has the one effect STATUS.ERR <- 6, so the reason is not visible to the host. -/
inductive IllegalReason where
  /-- OP is not listed in R84. -/
  | unassignedOpcode
  /-- The reserved field Z is not 0. -/
  | nonzeroZ
  /-- A is not 0 where the form requires 0. -/
  | nonzeroA
  /-- B is not 0 where the form requires 0. -/
  | nonzeroB
  /-- A flag B is 2 or more. -/
  | flagOutOfRange
  /-- A round index A is 11 or more. -/
  | indexOutOfRange
  /-- A mode A is 4 or more. -/
  | modeOutOfRange
deriving DecidableEq, Repr

/-- What the decoder answers: a command, or the reason why the word is illegal. -/
abbrev Decoded := Except IllegalReason Instr

/-- Form N: A and B are 0 (R82). -/
def formN (a b : Byte) (i : Instr) : Decoded :=
  if a ≠ 0 then .error .nonzeroA else if b ≠ 0 then .error .nonzeroB else .ok i

/-- Forms X and S: A is any byte, B is 0 (R82). -/
def formX (a b : Byte) (mk : Byte → Instr) : Decoded :=
  if b ≠ 0 then .error .nonzeroB else .ok (mk a)

/-- The flag of forms BF and IF: B is 0 or 1 (R82, R83). -/
def flagOf (b : Byte) : Option Bool :=
  if b = 0 then some false else if b = 1 then some true else none

/-- Form BF: A is 0 and B is a flag (R82). -/
def formBF (a b : Byte) (mk : Bool → Instr) : Decoded :=
  if a ≠ 0 then .error .nonzeroA
  else match flagOf b with
    | none => .error .flagOutOfRange
    | some f => .ok (mk f)

/-- Form I: A is a round index 0..10 and B is 0 (R82). -/
def formI (a b : Byte) (mk : Byte → Instr) : Decoded :=
  if roundIndexOk a then (if b ≠ 0 then .error .nonzeroB else .ok (mk a)) else .error .indexOutOfRange

/-- Form IF: A is a round index 0..10 and B is a flag (R82). -/
def formIF (a b : Byte) (mk : Byte → Bool → Instr) : Decoded :=
  if roundIndexOk a then
    match flagOf b with
    | none => .error .flagOutOfRange
    | some f => .ok (mk a f)
  else .error .indexOutOfRange

/-- The mode values of R86. -/
def modeOf (a : Byte) : Option Mode :=
  if a = 0 then some .ecb else if a = 1 then some .cbc else if a = 2 then some .ctr else if a = 3 then some .gcm else none

/-- Form M: A is a mode 0..3 and B is 0 (R82). -/
def formM (a b : Byte) (mk : Mode → Instr) : Decoded :=
  match modeOf a with
  | none => .error .modeOutOfRange
  | some m => if b ≠ 0 then .error .nonzeroB else .ok (mk m)

/-- The opcode map (R84): the command of an OP with operands A and B. -/
def decodeFields (op : Nat) (a b : Byte) : Decoded :=
  match op with
  | 0x01 => .ok (.gfmul a b)
  | 0x02 => formX a b .sbox
  | 0x03 => formX a b .isbox
  | 0x10 => formN a b .subb
  | 0x11 => formN a b .isubb
  | 0x12 => formN a b .shr
  | 0x13 => formN a b .ishr
  | 0x14 => formBF a b .mixc
  | 0x15 => formBF a b .imixc
  | 0x16 => formI a b .ark
  | 0x17 => formIF a b .round
  | 0x18 => formIF a b .iround
  | 0x20 => formN a b .kexp
  | 0x21 => formN a b .encb
  | 0x22 => formN a b .decb
  | 0x30 => formM a b .enc
  | 0x31 => formM a b .dec
  | 0x40 => formX a b .pad
  | 0x41 => formX a b .unpad
  | 0x42 => formX a b .valid
  | _ => .error .unassignedOpcode

/-- The decoder, total on every command word (R80, R84, R85). -/
def decode (w : Word) : Decoded :=
  if zOf w ≠ 0 then .error .nonzeroZ else decodeFields (opOf w).toNat (aOf w) (bOf w)

/-! ## Encoder (R84, R89) -/

/-- A flag as field B (R83). -/
def flagByte (f : Bool) : Byte := if f then 1 else 0

/-- A mode as field A (R86). -/
def modeByte : Mode → Byte
  | .ecb => 0
  | .cbc => 1
  | .ctr => 2
  | .gcm => 3

/-- The word of a command (R84, R89). -/
def encode : Instr → Word
  | .gfmul a b => packWord 0x01 a b
  | .sbox x => packWord 0x02 x 0
  | .isbox y => packWord 0x03 y 0
  | .subb => packWord 0x10 0 0
  | .isubb => packWord 0x11 0 0
  | .shr => packWord 0x12 0 0
  | .ishr => packWord 0x13 0 0
  | .mixc f => packWord 0x14 0 (flagByte f)
  | .imixc f => packWord 0x15 0 (flagByte f)
  | .ark j => packWord 0x16 j 0
  | .round j f => packWord 0x17 j (flagByte f)
  | .iround j f => packWord 0x18 j (flagByte f)
  | .kexp => packWord 0x20 0 0
  | .encb => packWord 0x21 0 0
  | .decb => packWord 0x22 0 0
  | .enc m => packWord 0x30 (modeByte m) 0
  | .dec m => packWord 0x31 (modeByte m) 0
  | .pad n => packWord 0x40 n 0
  | .unpad n => packWord 0x41 n 0
  | .valid n => packWord 0x42 n 0

/-! ## The host's view of the table -/

/-- A command word from `nbits` table bits: a command is one 32-bit word (R81), so the bits above `nbits` are 0. -/
def tableWord (nbits w : Nat) : Word := BitVec.ofNat 32 (w % 2 ^ nbits)

/-- What the decoder reads from a word numbered as spec/opcode_table.json numbers it. -/
def decodeTableWord (nbits w : Nat) : Option Instr :=
  match decode (tableWord nbits w) with
  | .ok i => some i
  | .error _ => none

end Sys2Proof
end

