-- ==== Sys2Proof/Config.lean ====
section
/-! DEFINITION. What a platform fixes for one AESENG (00_scope.md R6), and the free value of the model (10_state.md R41). -/

namespace Sys2Proof

/-- The two parameters the spec leaves open (R6). A State carries one Config and no step changes it (DESIGN CHOICE, log 2). -/
structure Config where
  /-- `DMEM_SIZE`: the byte size of the data memory. -/
  dmemSize : Nat
  /-- `ENGINE_BASE`: the host address of register offset 0. -/
  engineBase : Nat
deriving DecidableEq, Repr

/-- The default of R6: `DMEM_SIZE` = 4096 and `ENGINE_BASE` = 0. -/
def Config.standard : Config := { dmemSize := 4096, engineBase := 0 }

/-- The range R6 gives the two parameters. -/
def Config.ok (c : Config) : Bool :=
  decide (16 ≤ c.dmemSize) && decide (c.dmemSize ≤ 2 ^ 32 - 0x1000) && decide (c.engineBase % 4 = 0)

/-- The byte that a host read of an unwritten byte returns, free: `n` counts such bytes, so two reads need not agree
(R41: "A host read of an unwritten byte returns any value; the model draws it freely"). It has no body, so a claim about it
holds for every value (log 5). -/
opaque Config.unwrittenByte : Nat → Byte

end Sys2Proof
end

