-- ==== Sys2Proof/Machine/State.lean ====
section
/-! DEFINITION. The state of AESENG as plain data (10_state.md), its state after reset (R40, 70_reset_and_hazards.md R270), and
the reasons why a step can stop. -/

namespace Sys2Proof.Machine

/-- DMEM as a list of (byte offset, byte): offsets strictly rise, and an offset that is not listed is an unwritten byte, which has
no value (10_state.md R35, R41; log 4). -/
abbrev Memory := List Host.Cell

/-- The canonical form of a memory: strictly rising offsets. An unlisted byte reads as no value, so no entry can equal it. -/
abbrev Memory.wf (m : Memory) : Prop := m.Pairwise (fun c d => c.1 < d.1)

/-- The reasons why a command stops the model. Each is raised by a meaning whose result depends on a byte that nothing has
written since reset: "the model shall stop that command with a model fault, not with a STATUS code" (10_state.md R41). All are
safe: hardware goes on with some value, the model says nothing. -/
inductive Fault where
  /-- Raised by KEXP, ENC and DEC: the key step reads KEY[0..15] and one of these bytes is unwritten
  (10_state.md R31, R41; 70_reset_and_hazards.md R272). Safe. -/
  | unwrittenKey
  /-- Raised by ENC and DEC in CBC mode on a nonempty buffer: a byte of IV is unwritten (10_state.md R32, R41;
  70_reset_and_hazards.md R272). Safe. -/
  | unwrittenIv
  /-- Raised by the block commands that transform STATE: a byte of STATE is unwritten (10_state.md R34, R41;
  70_reset_and_hazards.md R272). Safe. -/
  | unwrittenState
  /-- Raised by ENC, DEC, PAD, UNPAD and VALID: the result depends on an unwritten byte of DMEM (10_state.md R35, R41;
  70_reset_and_hazards.md R272). Safe. -/
  | unwrittenDmem
deriving DecidableEq, Repr

/-- The reasons why a step is refused. The four about host accesses are raised by the host's bus access: the access "is refused:
it is outside the interface contract" (20_memory.md R51, R52). All are safe: a refused access gives no step. -/
inductive Refusal where
  /-- The arm of an instruction that has no meaning yet, with its mnemonic. No arm of this model is of that kind. Safe. -/
  | notModelled (mnemonic : String)
  /-- An access below ENGINE_BASE, to a reserved offset, or beyond DMEM (R51). Safe. -/
  | reservedOffset
  /-- A Read8 or Write8 of a 32-bit register (R52). Safe. -/
  | narrowRegisterAccess
  /-- A Read32 or Write32 at an offset that is no multiple of 4 (R52). Safe. -/
  | misalignedAccess
  /-- A Read32 or Write32 whose four bytes do not lie in one range (R52). Safe. -/
  | straddlingAccess
deriving DecidableEq, Repr

/-- The state of one AESENG and of its host's queue. -/
structure State where
  /-- The parameters DMEM_SIZE and ENGINE_BASE (00_scope.md R6); no step changes them (log 2). -/
  config : Config
  /-- STATUS.ERR, bits 3..0 (R25). -/
  err : BitVec 4
  /-- STATUS.FAULT, bit 8, sticky (R25, R37). -/
  fault : Bool
  /-- STATUS.RK_VALID, bit 9 (R25, R36). -/
  rkValid : Bool
  /-- RESULT (R26). -/
  result : Word
  /-- OUT_LEN (R27). -/
  outLen : Word
  /-- SRC (R28). -/
  src : Word
  /-- DST (R28). -/
  dst : Word
  /-- LEN (R28). -/
  len : Word
  /-- KEY_LEN (R29). -/
  keyLen : Word
  /-- NONCE_LO (R30). -/
  nonceLo : Word
  /-- NONCE_HI (R30). -/
  nonceHi : Word
  /-- KEY[0..31] (R31). -/
  key : Vector Byte 32
  /-- The written mark of each byte of KEY (R41). -/
  keyWritten : Vector Bool 32
  /-- IV[0..15] (R32). -/
  iv : Block
  /-- The written mark of each byte of IV (R41). -/
  ivWritten : Vector Bool 16
  /-- STATE[0..15] (R34). -/
  state : Block
  /-- The written mark of each byte of STATE (R41). -/
  stateWritten : Vector Bool 16
  /-- RK[0..10][0..15] (R33). -/
  rk : RoundKeys
  /-- The written mark of RK: one for all 176 bytes, since every write of RK covers all of them (R33, R41; log 12). -/
  rkWritten : Bool
  /-- DMEM (R35). -/
  dmem : Memory
  /-- The model's own: the host events that have not happened yet, oldest first (R21, 20_memory.md R61; log 1). -/
  pending : List HostEvent
  /-- The model's own: what the latest host read returned, none before the first one (20_memory.md R50; log 8). -/
  readData : Option ReadData
  /-- The model's own: how many free bytes host reads of unwritten bytes have drawn (R41; log 5). -/
  draws : Nat
deriving DecidableEq, Repr

/-- What a command, a host access or a step answers. -/
abbrev Result := Host.Outcome State Fault Refusal

/-- The state right after reset, with the default parameters (R40, R270). The control registers are 0. KEY, IV, STATE and RK are
unspecified: they hold 0 under clear written marks, so that no rule reads the 0 (DESIGN CHOICE, log 3). No byte of DMEM is listed,
and no host event is pending. -/
def State.reset : State :=
  { config := Config.standard
    err := 0
    fault := false
    rkValid := false
    result := 0
    outLen := 0
    src := 0
    dst := 0
    len := 0
    keyLen := 0
    nonceLo := 0
    nonceHi := 0
    key := Vector.replicate 32 0
    keyWritten := Vector.replicate 32 false
    iv := Vector.replicate 16 0
    ivWritten := Vector.replicate 16 false
    state := Vector.replicate 16 0
    stateWritten := Vector.replicate 16 false
    rk := Vector.replicate 11 (Vector.replicate 16 0)
    rkWritten := false
    dmem := []
    pending := []
    readData := none
    draws := 0 }

end Sys2Proof.Machine
end

