-- ==== Sys2Proof/Machine/Flags.lean ====
section
/-! DEFINITION. STATUS: the codes of STATUS.ERR (60_exceptions.md R240) and the word the host reads (10_state.md R25). -/

namespace Sys2Proof.Machine

/-- Code 0, OK. -/
abbrev errOk : BitVec 4 := 0
/-- Code 1, INVALID_KEY_SIZE. -/
abbrev errInvalidKeySize : BitVec 4 := 1
/-- Code 2, INVALID_BLOCK_SIZE. -/
abbrev errInvalidBlockSize : BitVec 4 := 2
/-- Code 3, PADDING_ERROR. -/
abbrev errPadding : BitVec 4 := 3
/-- Code 6, ILLEGAL_COMMAND. -/
abbrev errIllegalCommand : BitVec 4 := 6
/-- Code 7, BOUNDS_ERROR. -/
abbrev errBounds : BitVec 4 := 7
/-- Code 8, KEY_NOT_EXPANDED. -/
abbrev errKeyNotExpanded : BitVec 4 := 8
/-- Code 15, UNIMPLEMENTED. -/
abbrev errUnimplemented : BitVec 4 := 15

/-- The codes some rule writes (R240): 4 and 5 are reserved and 9 to 14 are never written. -/
def writableCodes : List (BitVec 4) :=
  [errOk, errInvalidKeySize, errInvalidBlockSize, errPadding, errIllegalCommand, errBounds, errKeyNotExpanded, errUnimplemented]

/-- STATUS as the host reads it (10_state.md R25): ERR in bits 3..0, FAULT in bit 8, RK_VALID in bit 9, the reserved bits 0. -/
def statusWord (s : State) : Word :=
  0#22 ++ BitVec.ofBool s.rkValid ++ BitVec.ofBool s.fault ++ 0#4 ++ s.err

end Sys2Proof.Machine
end

