-- ==== Sys2Proof/Machine/Ops.lean ====
section
/-! DEFINITION. The named operations over memory and registers (00_scope.md R8), ending a command with a code, and taking the
unimplemented-path fault (60_exceptions.md R243). -/

namespace Sys2Proof.Machine

/-! ## DMEM (10_state.md R35) -/

/-- The byte at offset `a`, none if it is unwritten (R41). -/
def Memory.read : Memory → Nat → Option Byte
  | [], _ => none
  | (b, v) :: m, a => if a = b then some v else Memory.read m a

/-- The memory after byte `v` is written to offset `a`; the canonical form is kept. -/
def Memory.write : Memory → Nat → Byte → Memory
  | [], a, v => [(a, v)]
  | (b, u) :: m, a, v =>
    if a < b then (a, v) :: (b, u) :: m
    else if a = b then (a, v) :: m
    else (b, u) :: Memory.write m a v

/-- The `n` bytes from offset `a` on, each with its written mark: none where unwritten. -/
def Memory.cells (m : Memory) (a n : Nat) : List (Option Byte) :=
  (List.range n).map fun k => m.read (a + k)

/-- The byte sequence of a list of cells if every one is written. -/
def allWritten : List (Option Byte) → Option (List Byte)
  | [] => some []
  | none :: _ => none
  | some v :: cs =>
    match allWritten cs with
    | none => none
    | some vs => some (v :: vs)

/-- `MemRead(addr, n)` (00_scope.md R8), none if one of the bytes is unwritten. -/
def Memory.readBytes (m : Memory) (a n : Nat) : Option (List Byte) := allWritten (m.cells a n)

/-- `MemWrite(addr, n, v)` (00_scope.md R8): byte `v[k]` goes to offset `a + k`. -/
def Memory.writeBytes : Memory → Nat → List Byte → Memory
  | m, _, [] => m
  | m, a, v :: vs => Memory.writeBytes (m.write a v) (a + 1) vs

/-! ## Ending a command (00_scope.md R8) -/

/-- `finish(code)`: writes STATUS.ERR and ends the command; `raise Error(code)` is the same with a nonzero code. -/
def State.finish (s : State) (code : BitVec 4) : State := { s with err := code }

/-- `OUT_LEN <- 0; raise Error(code)`: how ENC, DEC, PAD and UNPAD end with an error (60_exceptions.md R242). -/
def State.raiseBufferError (s : State) (code : BitVec 4) : State := { s with outLen := 0, err := code }

/-- `raise Fault(UNIMPLEMENTED)`: the one exception of AESENG (60_exceptions.md R243). It writes STATUS.ERR and the sticky
STATUS.FAULT and nothing else; there is no saved state, no handler and no return (R247, R248), only reset leaves it (R244). -/
def State.raiseFault (s : State) : State := { s with err := errUnimplemented, fault := true }

/-! ## Register writes of the engine -/

/-- `RESULT <- zext_32(v); finish(0)` (40_gf_sbox.md R105 to R107). -/
def State.setResult (s : State) (v : Byte) : State := { s with result := v.setWidth 32, err := errOk }

/-- The successful end of a buffer command: `MemWrite(DST, len(out), out); OUT_LEN <- len(out); finish(0)` (44_modes.md R210). -/
def State.writeOutput (s : State) (out : List Byte) : State :=
  { s with dmem := s.dmem.writeBytes s.dst.toNat out, outLen := BitVec.ofNat 32 out.length, err := errOk }

/-- The writes of a key step that succeeds: all 176 bytes of RK, and STATUS.RK_VALID (42_key_schedule.md R163). -/
def State.setRoundKeys (s : State) (rk : RoundKeys) : State := { s with rk := rk, rkWritten := true, rkValid := true }

end Sys2Proof.Machine
end

