-- ==== Sys2Proof/Machine/Operands.lean ====
section
/-! DEFINITION. What a command takes its inputs from (30_encoding.md R83): the registers KEY, IV, STATE and the nonce behind their
written marks (10_state.md R41), the round index, and the bounds test of the buffers (44_modes.md R211). -/

namespace Sys2Proof.Machine

/-- Whether every mark of a list is set. -/
def marked (l : List Bool) : Bool := l.all id

/-- Whether all 16 bytes of STATE are written. -/
def State.stateReady (s : State) : Bool := marked s.stateWritten.toList

/-- Whether all 16 bytes of IV are written. -/
def State.ivReady (s : State) : Bool := marked s.ivWritten.toList

/-- Whether KEY[0..15] are written; KEY[16..31] are ignored for a 16-byte key (10_state.md R31). -/
def State.keyReady (s : State) : Bool := marked (s.keyWritten.toList.take 16)

/-- KEY[0..15], the AES-128 key (42_key_schedule.md R160). -/
def State.key128 (s : State) : Block := Vector.ofFn fun i : Fin 16 => s.key[i.val]

/-- The 64-bit nonce `NONCE_HI:NONCE_LO` (10_state.md R30). -/
def State.nonce (s : State) : BitVec 64 := s.nonceHi ++ s.nonceLo

/-- A round index selects round key RK[A] (30_encoding.md R83); none for a byte that is no round index. -/
def roundIndex (j : Byte) : Option (Fin 11) := if h : j.toNat < 11 then some ⟨j.toNat, h⟩ else none

/-- `InRange(a, n)`: a + n ≤ DMEM_SIZE, over unbounded integers (44_modes.md R211). -/
def State.inRange (s : State) (a n : Nat) : Bool := decide (a + n ≤ s.config.dmemSize)

/-- `STATE <- f(STATE); finish(0)`, the end of every block command (41_block_transforms.md R143). The result depends on all of
STATE, so an unwritten byte of it stops the command (10_state.md R41, 70_reset_and_hazards.md R272). -/
def State.updateState (s : State) (f : Block → Block) : Result :=
  if s.stateReady then .next { s with state := f s.state, err := errOk } else .fault .unwrittenState

/-- The key guard of the commands that read RK: `if STATUS.RK_VALID = 0: raise Error(8)` (41_block_transforms.md R131). -/
def State.guardRk (s : State) (body : RoundKeys → Result) : Result :=
  if s.rkValid then body s.rk else .next (s.finish errKeyNotExpanded)

/-- Byte lane `k` of a word: `v[8k+7:8k]` (20_memory.md R53). -/
def byteLane (v : Word) (k : Nat) : Byte := v.extractLsb' (8 * k) 8

/-- The word of four bytes, little-endian (20_memory.md R53). -/
def wordOfBytes (b0 b1 b2 b3 : Byte) : Word := b3 ++ b2 ++ b1 ++ b0

/-- `LE64(x)`: the 8 bytes of a 64-bit value, low byte first (44_modes.md section 1). -/
def le64 (x : BitVec 64) : Vector Byte 8 := Vector.ofFn fun i : Fin 8 => x.extractLsb' (8 * i.val) 8

end Sys2Proof.Machine
end

