-- ==== Sys2Proof/Machine/Gf.lean ====
section
/-! DEFINITION. GF(2^8) arithmetic, the substitution tables, and the commands GFMUL, SBOX and ISBOX (40_gf_sbox.md). The table
contents are the spec's own, which marks them as general knowledge (93_implementation_defined.md G1 to G3; log 11). -/

namespace Sys2Proof.Machine

/-! ## Multiplication (R100) -/

/-- One step of `a` in R100: shift left by one, and XOR 0x1B if the bit shifted out was set. -/
def xtime (a : Byte) : Byte := if a.getLsbD 7 then (a <<< 1) ^^^ 0x1B#8 else a <<< 1

/-- The loop of R100 with `n` iterations left and accumulator `p`. -/
def gmulLoop : Nat → Byte → Byte → Byte → Byte
  | 0, _, _, p => p
  | n + 1, a, b, p => gmulLoop n (xtime a) (b >>> 1) (if b.getLsbD 0 then p ^^^ a else p)

/-- `gmul(a, b)`: multiplication in GF(2^8) with the polynomial 0x11B (R100). -/
def gmul (a b : Byte) : Byte := gmulLoop 8 a b 0

/-! ## Tables (R102, R103, R104) -/

/-- Row 0 of SBOX (R102). -/
def sboxRow0 : List Byte :=
  [0x63, 0x7c, 0x77, 0x7b, 0xf2, 0x6b, 0x6f, 0xc5, 0x30, 0x01, 0x67, 0x2b, 0xfe, 0xd7, 0xab, 0x76]

/-- Row 1 of SBOX (R102). -/
def sboxRow1 : List Byte :=
  [0xca, 0x82, 0xc9, 0x7d, 0xfa, 0x59, 0x47, 0xf0, 0xad, 0xd4, 0xa2, 0xaf, 0x9c, 0xa4, 0x72, 0xc0]

/-- Row 2 of SBOX (R102). -/
def sboxRow2 : List Byte :=
  [0xb7, 0xfd, 0x93, 0x26, 0x36, 0x3f, 0xf7, 0xcc, 0x34, 0xa5, 0xe5, 0xf1, 0x71, 0xd8, 0x31, 0x15]

/-- Row 3 of SBOX (R102). -/
def sboxRow3 : List Byte :=
  [0x04, 0xc7, 0x23, 0xc3, 0x18, 0x96, 0x05, 0x9a, 0x07, 0x12, 0x80, 0xe2, 0xeb, 0x27, 0xb2, 0x75]

/-- Row 4 of SBOX (R102). -/
def sboxRow4 : List Byte :=
  [0x09, 0x83, 0x2c, 0x1a, 0x1b, 0x6e, 0x5a, 0xa0, 0x52, 0x3b, 0xd6, 0xb3, 0x29, 0xe3, 0x2f, 0x84]

/-- Row 5 of SBOX (R102). -/
def sboxRow5 : List Byte :=
  [0x53, 0xd1, 0x00, 0xed, 0x20, 0xfc, 0xb1, 0x5b, 0x6a, 0xcb, 0xbe, 0x39, 0x4a, 0x4c, 0x58, 0xcf]

/-- Row 6 of SBOX (R102). -/
def sboxRow6 : List Byte :=
  [0xd0, 0xef, 0xaa, 0xfb, 0x43, 0x4d, 0x33, 0x85, 0x45, 0xf9, 0x02, 0x7f, 0x50, 0x3c, 0x9f, 0xa8]

/-- Row 7 of SBOX (R102). -/
def sboxRow7 : List Byte :=
  [0x51, 0xa3, 0x40, 0x8f, 0x92, 0x9d, 0x38, 0xf5, 0xbc, 0xb6, 0xda, 0x21, 0x10, 0xff, 0xf3, 0xd2]

/-- Row 8 of SBOX (R102). -/
def sboxRow8 : List Byte :=
  [0xcd, 0x0c, 0x13, 0xec, 0x5f, 0x97, 0x44, 0x17, 0xc4, 0xa7, 0x7e, 0x3d, 0x64, 0x5d, 0x19, 0x73]

/-- Row 9 of SBOX (R102). -/
def sboxRow9 : List Byte :=
  [0x60, 0x81, 0x4f, 0xdc, 0x22, 0x2a, 0x90, 0x88, 0x46, 0xee, 0xb8, 0x14, 0xde, 0x5e, 0x0b, 0xdb]

/-- Row a of SBOX (R102). -/
def sboxRowA : List Byte :=
  [0xe0, 0x32, 0x3a, 0x0a, 0x49, 0x06, 0x24, 0x5c, 0xc2, 0xd3, 0xac, 0x62, 0x91, 0x95, 0xe4, 0x79]

/-- Row b of SBOX (R102). -/
def sboxRowB : List Byte :=
  [0xe7, 0xc8, 0x37, 0x6d, 0x8d, 0xd5, 0x4e, 0xa9, 0x6c, 0x56, 0xf4, 0xea, 0x65, 0x7a, 0xae, 0x08]

/-- Row c of SBOX (R102). -/
def sboxRowC : List Byte :=
  [0xba, 0x78, 0x25, 0x2e, 0x1c, 0xa6, 0xb4, 0xc6, 0xe8, 0xdd, 0x74, 0x1f, 0x4b, 0xbd, 0x8b, 0x8a]

/-- Row d of SBOX (R102). -/
def sboxRowD : List Byte :=
  [0x70, 0x3e, 0xb5, 0x66, 0x48, 0x03, 0xf6, 0x0e, 0x61, 0x35, 0x57, 0xb9, 0x86, 0xc1, 0x1d, 0x9e]

/-- Row e of SBOX (R102). -/
def sboxRowE : List Byte :=
  [0xe1, 0xf8, 0x98, 0x11, 0x69, 0xd9, 0x8e, 0x94, 0x9b, 0x1e, 0x87, 0xe9, 0xce, 0x55, 0x28, 0xdf]

/-- Row f of SBOX (R102). -/
def sboxRowF : List Byte :=
  [0x8c, 0xa1, 0x89, 0x0d, 0xbf, 0xe6, 0x42, 0x68, 0x41, 0x99, 0x2d, 0x0f, 0xb0, 0x54, 0xbb, 0x16]

/-- SBOX, indexed by a byte (R102). -/
def sboxTable : List Byte :=
  sboxRow0 ++ sboxRow1 ++ sboxRow2 ++ sboxRow3 ++ sboxRow4 ++ sboxRow5 ++ sboxRow6 ++ sboxRow7 ++
  sboxRow8 ++ sboxRow9 ++ sboxRowA ++ sboxRowB ++ sboxRowC ++ sboxRowD ++ sboxRowE ++ sboxRowF

/-- Row 0 of INV_SBOX (R103). -/
def invSboxRow0 : List Byte :=
  [0x52, 0x09, 0x6a, 0xd5, 0x30, 0x36, 0xa5, 0x38, 0xbf, 0x40, 0xa3, 0x9e, 0x81, 0xf3, 0xd7, 0xfb]

/-- Row 1 of INV_SBOX (R103). -/
def invSboxRow1 : List Byte :=
  [0x7c, 0xe3, 0x39, 0x82, 0x9b, 0x2f, 0xff, 0x87, 0x34, 0x8e, 0x43, 0x44, 0xc4, 0xde, 0xe9, 0xcb]

/-- Row 2 of INV_SBOX (R103). -/
def invSboxRow2 : List Byte :=
  [0x54, 0x7b, 0x94, 0x32, 0xa6, 0xc2, 0x23, 0x3d, 0xee, 0x4c, 0x95, 0x0b, 0x42, 0xfa, 0xc3, 0x4e]

/-- Row 3 of INV_SBOX (R103). -/
def invSboxRow3 : List Byte :=
  [0x08, 0x2e, 0xa1, 0x66, 0x28, 0xd9, 0x24, 0xb2, 0x76, 0x5b, 0xa2, 0x49, 0x6d, 0x8b, 0xd1, 0x25]

/-- Row 4 of INV_SBOX (R103). -/
def invSboxRow4 : List Byte :=
  [0x72, 0xf8, 0xf6, 0x64, 0x86, 0x68, 0x98, 0x16, 0xd4, 0xa4, 0x5c, 0xcc, 0x5d, 0x65, 0xb6, 0x92]

/-- Row 5 of INV_SBOX (R103). -/
def invSboxRow5 : List Byte :=
  [0x6c, 0x70, 0x48, 0x50, 0xfd, 0xed, 0xb9, 0xda, 0x5e, 0x15, 0x46, 0x57, 0xa7, 0x8d, 0x9d, 0x84]

/-- Row 6 of INV_SBOX (R103). -/
def invSboxRow6 : List Byte :=
  [0x90, 0xd8, 0xab, 0x00, 0x8c, 0xbc, 0xd3, 0x0a, 0xf7, 0xe4, 0x58, 0x05, 0xb8, 0xb3, 0x45, 0x06]

/-- Row 7 of INV_SBOX (R103). -/
def invSboxRow7 : List Byte :=
  [0xd0, 0x2c, 0x1e, 0x8f, 0xca, 0x3f, 0x0f, 0x02, 0xc1, 0xaf, 0xbd, 0x03, 0x01, 0x13, 0x8a, 0x6b]

/-- Row 8 of INV_SBOX (R103). -/
def invSboxRow8 : List Byte :=
  [0x3a, 0x91, 0x11, 0x41, 0x4f, 0x67, 0xdc, 0xea, 0x97, 0xf2, 0xcf, 0xce, 0xf0, 0xb4, 0xe6, 0x73]

/-- Row 9 of INV_SBOX (R103). -/
def invSboxRow9 : List Byte :=
  [0x96, 0xac, 0x74, 0x22, 0xe7, 0xad, 0x35, 0x85, 0xe2, 0xf9, 0x37, 0xe8, 0x1c, 0x75, 0xdf, 0x6e]

/-- Row a of INV_SBOX (R103). -/
def invSboxRowA : List Byte :=
  [0x47, 0xf1, 0x1a, 0x71, 0x1d, 0x29, 0xc5, 0x89, 0x6f, 0xb7, 0x62, 0x0e, 0xaa, 0x18, 0xbe, 0x1b]

/-- Row b of INV_SBOX (R103). -/
def invSboxRowB : List Byte :=
  [0xfc, 0x56, 0x3e, 0x4b, 0xc6, 0xd2, 0x79, 0x20, 0x9a, 0xdb, 0xc0, 0xfe, 0x78, 0xcd, 0x5a, 0xf4]

/-- Row c of INV_SBOX (R103). -/
def invSboxRowC : List Byte :=
  [0x1f, 0xdd, 0xa8, 0x33, 0x88, 0x07, 0xc7, 0x31, 0xb1, 0x12, 0x10, 0x59, 0x27, 0x80, 0xec, 0x5f]

/-- Row d of INV_SBOX (R103). -/
def invSboxRowD : List Byte :=
  [0x60, 0x51, 0x7f, 0xa9, 0x19, 0xb5, 0x4a, 0x0d, 0x2d, 0xe5, 0x7a, 0x9f, 0x93, 0xc9, 0x9c, 0xef]

/-- Row e of INV_SBOX (R103). -/
def invSboxRowE : List Byte :=
  [0xa0, 0xe0, 0x3b, 0x4d, 0xae, 0x2a, 0xf5, 0xb0, 0xc8, 0xeb, 0xbb, 0x3c, 0x83, 0x53, 0x99, 0x61]

/-- Row f of INV_SBOX (R103). -/
def invSboxRowF : List Byte :=
  [0x17, 0x2b, 0x04, 0x7e, 0xba, 0x77, 0xd6, 0x26, 0xe1, 0x69, 0x14, 0x63, 0x55, 0x21, 0x0c, 0x7d]

/-- INV_SBOX, indexed by a byte (R103). -/
def invSboxTable : List Byte :=
  invSboxRow0 ++ invSboxRow1 ++ invSboxRow2 ++ invSboxRow3 ++ invSboxRow4 ++ invSboxRow5 ++ invSboxRow6 ++ invSboxRow7 ++
  invSboxRow8 ++ invSboxRow9 ++ invSboxRowA ++ invSboxRowB ++ invSboxRowC ++ invSboxRowD ++ invSboxRowE ++ invSboxRowF

/-- `SBOX[x]` (R102); the table has an entry for every byte, so the default is never taken. -/
def sbox (x : Byte) : Byte := sboxTable.getD x.toNat 0

/-- `INV_SBOX[y]` (R103); the table has an entry for every byte, so the default is never taken. -/
def invSbox (y : Byte) : Byte := invSboxTable.getD y.toNat 0

/-- RCON[1..10] (R104). RCON[0] is not defined and never read: the list starts at index 1. -/
def rconTable : List Byte := [0x01, 0x02, 0x04, 0x08, 0x10, 0x20, 0x40, 0x80, 0x1B, 0x36]

/-- `RCON[i]` for i = 1..10 (R104); the key schedule reads no other index. -/
def rcon (i : Nat) : Byte := rconTable.getD (i - 1) 0

/-! ## Commands -/

/-- GFMUL (R105): `RESULT <- zext_32(gmul(A, B)); finish(0)`. -/
def execGfmul (a b : Byte) (s : State) : Result := .next (s.setResult (gmul a b))

/-- SBOX (R106): `RESULT <- zext_32(SBOX[A]); finish(0)`. -/
def execSbox (x : Byte) (s : State) : Result := .next (s.setResult (sbox x))

/-- ISBOX (R107): `RESULT <- zext_32(INV_SBOX[A]); finish(0)`. -/
def execIsbox (y : Byte) (s : State) : Result := .next (s.setResult (invSbox y))

end Sys2Proof.Machine
end

