-- ==== Sys2Proof/Machine/Block.lean ====
section
/-! DEFINITION. The block state transforms, the rounds and the whole-block pipelines as functions, and the block commands
(41_block_transforms.md). -/

namespace Sys2Proof.Machine

/-! ## The matrix view (R120) -/

/-- Element s(r, c) = s[r + 4·c] of the 4×4 matrix view. -/
def elem (s : Block) (r c : Fin 4) : Byte := s[r.val + 4 * c.val]

/-- The block whose matrix has element f(r, c): flat byte k lands at row k mod 4, column k div 4. -/
def ofElems (f : Fin 4 → Fin 4 → Byte) : Block :=
  Vector.ofFn fun k : Fin 16 => f ⟨k.val % 4, by omega⟩ ⟨k.val / 4, by omega⟩

/-! ## Transforms -/

/-- `xor(a, b)` of two blocks, bytewise (00_scope.md R7). -/
def xorBlock (a b : Block) : Block := Vector.ofFn fun i : Fin 16 => a[i.val] ^^^ b[i.val]

/-- `SubBytes(s)[i] = SBOX[s[i]]` (R121). -/
def subBytes (s : Block) : Block := Vector.ofFn fun i : Fin 16 => sbox s[i.val]

/-- `InvSubBytes(s)[i] = INV_SBOX[s[i]]` (R122). -/
def invSubBytes (s : Block) : Block := Vector.ofFn fun i : Fin 16 => invSbox s[i.val]

/-- `ShiftRows(s)(r, c) = s(r, (c + r) mod 4)` (R123); the addition of Fin 4 is modulo 4. -/
def shiftRows (s : Block) : Block := ofElems fun r c => elem s r (c + r)

/-- `InvShiftRows(s)(r, c) = s(r, (c − r) mod 4)` (R124). -/
def invShiftRows (s : Block) : Block := ofElems fun r c => elem s r (c - r)

/-- A 4×4 matrix of bytes, by row and column. -/
abbrev Matrix4 := Fin 4 → Fin 4 → Byte

/-- The matrix whose row r is the given row 0 moved right by r places, the last entries coming in at the front: both matrices of
the rules have this form. The subtraction of Fin 4 is modulo 4. -/
def rotatedRows (row : Vector Byte 4) : Matrix4 := fun r k => row[(k - r).val]

/-- The matrix M of R125, given by its row 0. -/
def mixMatrix : Matrix4 := rotatedRows #v[2, 3, 1, 1]

/-- The matrix Minv of R126, given by its row 0. -/
def invMixMatrix : Matrix4 := rotatedRows #v[0x0E, 0x0B, 0x0D, 0x09]

/-- Every column of the state times a matrix over GF(2^8): the product of R125. -/
def mulColumns (m : Matrix4) (s : Block) : Block :=
  ofElems fun r c =>
    gmul (m r 0) (elem s 0 c) ^^^ gmul (m r 1) (elem s 1 c) ^^^ gmul (m r 2) (elem s 2 c) ^^^ gmul (m r 3) (elem s 3 c)

/-- `MixColumns(s, bypass)` (R125): with the bypass flag the state is unchanged. -/
def mixColumns (s : Block) (bypass : Bool) : Block := if bypass then s else mulColumns mixMatrix s

/-- `InvMixColumns(s, bypass)` (R126). -/
def invMixColumns (s : Block) (bypass : Bool) : Block := if bypass then s else mulColumns invMixMatrix s

/-- `AddRoundKey(s, rk, j)[i] = s[i] ^ rk[j][i]` (R127). -/
def addRoundKey (s : Block) (rk : RoundKeys) (j : Fin 11) : Block := xorBlock s rk[j.val]

/-! ## Rounds and pipelines -/

/-- `ApplyRound`: substitute, shift rows, mix columns (skipped if final), add round key (R128). -/
def applyRound (s : Block) (rk : RoundKeys) (j : Fin 11) (final : Bool) : Block :=
  addRoundKey (mixColumns (shiftRows (subBytes s)) final) rk j

/-- `ApplyInverseRound`: add round key, inverse mix columns (skipped if final), inverse shift rows, inverse substitute (R129). -/
def applyInverseRound (s : Block) (rk : RoundKeys) (j : Fin 11) (final : Bool) : Block :=
  invSubBytes (invShiftRows (invMixColumns (addRoundKey s rk j) final))

/-- `Cipher(s, rk)` (R130): round key 0, then rounds 1 to 10, of which round 10 is final. -/
def cipher (s : Block) (rk : RoundKeys) : Block :=
  ([1, 2, 3, 4, 5, 6, 7, 8, 9, 10] : List (Fin 11)).foldl (fun s j => applyRound s rk j (j == 10)) (addRoundKey s rk 0)

/-- `InvCipher(s, rk)` (R130): inverse rounds 10 down to 1, then round key 0. -/
def invCipher (s : Block) (rk : RoundKeys) : Block :=
  addRoundKey
    (([10, 9, 8, 7, 6, 5, 4, 3, 2, 1] : List (Fin 11)).foldl (fun s j => applyInverseRound s rk j (j == 10)) s) rk 0

/-! ## Commands without a key guard (R131) -/

/-- SUBB (R132): `STATE <- SubBytes(STATE); finish(0)`. -/
def execSubb (s : State) : Result := s.updateState subBytes

/-- ISUBB (R133): `STATE <- InvSubBytes(STATE); finish(0)`. -/
def execIsubb (s : State) : Result := s.updateState invSubBytes

/-- SHR (R134): `STATE <- ShiftRows(STATE); finish(0)`. -/
def execShr (s : State) : Result := s.updateState shiftRows

/-- ISHR (R135): `STATE <- InvShiftRows(STATE); finish(0)`. -/
def execIshr (s : State) : Result := s.updateState invShiftRows

/-- MIXC (R136): `STATE <- MixColumns(STATE, B); finish(0)`. With the bypass flag STATE is unchanged and ERR is 0 whatever STATE
holds, so an unwritten byte, which stays unwritten, does not stop the command (DEDUCED from R41, log 14). -/
def execMixc (bypass : Bool) (s : State) : Result :=
  if bypass then .next (s.finish errOk) else s.updateState fun b => mixColumns b false

/-- IMIXC (R137): `STATE <- InvMixColumns(STATE, B); finish(0)`; the bypass flag as for MIXC (log 14). -/
def execImixc (bypass : Bool) (s : State) : Result :=
  if bypass then .next (s.finish errOk) else s.updateState fun b => invMixColumns b false

/-! ## Commands behind the key guard (R131). A round index of 11 or more is no command: it is illegal (30_encoding.md R87), which
is checked before the guard (60_exceptions.md R245); the decoder never yields one (log 9). -/

/-- ARK j (R138): guard; `STATE <- AddRoundKey(STATE, RK, A); finish(0)`. -/
def execArk (j : Byte) (s : State) : Result :=
  match roundIndex j with
  | none => .next (s.finish errIllegalCommand)
  | some i => s.guardRk fun rk => s.updateState fun b => addRoundKey b rk i

/-- ROUND j and ROUND.F j (R139): guard; `STATE <- ApplyRound(STATE, RK, A, B); finish(0)`. -/
def execRound (j : Byte) (final : Bool) (s : State) : Result :=
  match roundIndex j with
  | none => .next (s.finish errIllegalCommand)
  | some i => s.guardRk fun rk => s.updateState fun b => applyRound b rk i final

/-- IROUND j and IROUND.F j (R140): guard; `STATE <- ApplyInverseRound(STATE, RK, A, B); finish(0)`. -/
def execIround (j : Byte) (final : Bool) (s : State) : Result :=
  match roundIndex j with
  | none => .next (s.finish errIllegalCommand)
  | some i => s.guardRk fun rk => s.updateState fun b => applyInverseRound b rk i final

/-- ENCB (R141): guard; `STATE <- Cipher(STATE, RK); finish(0)`. -/
def execEncb (s : State) : Result := s.guardRk fun rk => s.updateState fun b => cipher b rk

/-- DECB (R142): guard; `STATE <- InvCipher(STATE, RK); finish(0)`. -/
def execDecb (s : State) : Result := s.guardRk fun rk => s.updateState fun b => invCipher b rk

end Sys2Proof.Machine
end

