-- ==== Sys2Proof/Machine/KeySchedule.lean ====
section
/-! DEFINITION. The key schedule, the key step that KEXP, ENC and DEC share, and the command KEXP (42_key_schedule.md). -/

namespace Sys2Proof.Machine

/-- A word of the key schedule: a sequence of 4 bytes, so it has no endianness (R161). -/
abbrev KeyWord := Vector Byte 4

/-- Bytewise XOR of two words. -/
def xorWord (a b : KeyWord) : KeyWord := Vector.ofFn fun i : Fin 4 => a[i.val] ^^^ b[i.val]

/-- The word decomposition W_k = (K[4k], K[4k+1], K[4k+2], K[4k+3]) (R161). -/
def keyWord (k : Block) (i : Fin 4) : KeyWord := Vector.ofFn fun b : Fin 4 => k[4 * i.val + b.val]

/-- The transform of `t` where i mod 4 = 0 (R162): rotate left by one byte, substitute, XOR RCON[i div 4] into the first byte. -/
def scheduleCore (t : KeyWord) (i : Nat) : KeyWord :=
  #v[sbox t[1] ^^^ rcon (i / 4), sbox t[2], sbox t[3], sbox t[0]]

/-- A word of the list W so far, by its index; the schedule reads only words that are there. -/
def wordAt (w : List KeyWord) (i : Nat) : KeyWord := w.getD i (Vector.replicate 4 0)

/-- One iteration of R162: appends W[i] = W[i-4] xor t. -/
def expandStep (w : List KeyWord) (i : Nat) : List KeyWord :=
  let t := wordAt w (i - 1)
  w ++ [xorWord (wordAt w (i - 4)) (if i % 4 = 0 then scheduleCore t i else t)]

/-- The expanded key W[0..43] (R162): the four words of the key, then i = 4..43. -/
def expandedWords (k : Block) : List KeyWord :=
  (List.range' 4 40).foldl expandStep [keyWord k 0, keyWord k 1, keyWord k 2, keyWord k 3]

/-- `KeyExpansion(K)`: round key j is W[4j] ‖ W[4j+1] ‖ W[4j+2] ‖ W[4j+3] (R162). -/
def keyExpansion (k : Block) : RoundKeys :=
  let w := expandedWords k
  Vector.ofFn fun j : Fin 11 => Vector.ofFn fun i : Fin 16 => (wordAt w (4 * j.val + i.val / 4))[i.val % 4]

/-- The outcome of a key step. -/
inductive KeyStep where
  /-- The key is expanded: the state with RK and RK_VALID written. -/
  | ok (s : State)
  /-- KEY_LEN is none of 16, 24 and 32: INVALID_KEY_SIZE. -/
  | invalidKeySize
  /-- KEY_LEN is 24 or 32: UNIMPLEMENTED. -/
  | unimplemented
  /-- KEY_LEN is 16 and a byte of KEY[0..15] is unwritten: RK would depend on it (10_state.md R41). -/
  | unwritten
deriving DecidableEq, Repr

/-- `KeyStep()` (R163). Where it does not succeed it changes nothing. -/
def keyStep (s : State) : KeyStep :=
  if s.keyLen ≠ 16 ∧ s.keyLen ≠ 24 ∧ s.keyLen ≠ 32 then .invalidKeySize
  else if s.keyLen = 24 ∨ s.keyLen = 32 then .unimplemented
  else if s.keyReady then .ok (s.setRoundKeys (keyExpansion s.key128))
  else .unwritten

/-- KEXP (R164): the key step; error 1, the fault, or `finish(0)`; it stops where `keyStep` needs an unwritten byte of KEY, as
10_state.md R41 orders. -/
def execKexp (s : State) : Result :=
  match keyStep s with
  | .invalidKeySize => .next (s.finish errInvalidKeySize)
  | .unimplemented => .next s.raiseFault
  | .unwritten => .fault .unwrittenKey
  | .ok t => .next (t.finish errOk)

end Sys2Proof.Machine
end

