-- ==== Sys2Proof/Machine/Padding.lean ====
section
/-! DEFINITION. The padding functions and the commands PAD, UNPAD and VALID (43_padding.md). -/

namespace Sys2Proof.Machine

/-! ## Functions -/

/-- `Pad(b, n)` for 1 ≤ n ≤ 255 (R180): an aligned buffer is unchanged, any other gets k bytes of value k. -/
def pad (b : List Byte) (n : Nat) : List Byte :=
  let r := b.length % n
  if r = 0 then b else b ++ List.replicate (n - r) (BitVec.ofNat 8 (n - r))

/-- The length of `Pad(b, n)`, which depends on the length of b alone (R180). -/
def padLength (len n : Nat) : Nat := if len % n = 0 then len else len + (n - len % n)

/-- `Validate(b, n)` (R181). -/
def validate (b : List Byte) (n : Nat) : Bool :=
  match b.getLast? with
  | none => false
  | some v =>
    decide (v ≠ 0) && decide (v.toNat ≤ n) && decide (v.toNat ≤ b.length) &&
      (b.drop (b.length - v.toNat)).all (fun x => decide (x = v))

/-- `Unpad(b, n)` (R182): the input without its last v bytes, v the last byte; none (PaddingError) where Validate is false. -/
def unpad (b : List Byte) (n : Nat) : Option (List Byte) :=
  if validate b n then some (b.take (b.length - (b.getLastD 0).toNat)) else none

/-- `Validate` of a buffer some of whose bytes may be unwritten: the result if it is the same whatever those bytes hold, none if
it depends on one of them (R181, 10_state.md R41; log 6). -/
def validateCells (c : List (Option Byte)) (n : Nat) : Option Bool :=
  match c.getLast? with
  | none => some false
  | some none => if n = 0 then some false else none
  | some (some v) =>
    if v = 0 ∨ n < v.toNat ∨ c.length < v.toNat then some false
    else
      let tail := c.drop (c.length - v.toNat)
      if tail.any (fun x => decide (x ≠ none) && decide (x ≠ some v)) then some false
      else if tail.all (fun x => decide (x ≠ none)) then some true
      else none

/-! ## Buffers -/

/-- The end of a buffer command whose output has `n` bytes, computed by `f` from the input snapshot (44_modes.md R210 steps 3 to
6, R212; 43_padding.md R185): source bounds, destination bounds, then the input is read and the output written. Whether the
destination bounds hold depends on `n` alone, so they are checked before an unwritten input byte stops the command (log 6). -/
def State.runBuffer (s : State) (n : Nat) (f : List Byte → Except Fault (List Byte)) : Result :=
  if ¬ s.inRange s.src.toNat s.len.toNat then .next (s.raiseBufferError errBounds)
  else if ¬ s.inRange s.dst.toNat n then .next (s.raiseBufferError errBounds)
  else match s.dmem.readBytes s.src.toNat s.len.toNat with
    | none => .fault .unwrittenDmem
    | some input =>
      match f input with
      | .error r => .fault r
      | .ok out => .next (s.writeOutput out)

/-! ## Commands -/

/-- PAD n (R185): block size 0 is an error; else the padded input goes to DST. -/
def execPad (n : Byte) (s : State) : Result :=
  if n = 0 then .next (s.raiseBufferError errInvalidBlockSize)
  else s.runBuffer (padLength s.len.toNat n.toNat) fun b => .ok (pad b n.toNat)

/-- UNPAD n (R186): source bounds, validation, destination bounds, then the input without its padding goes to DST. The first
three depend on the length and on the padding bytes only (log 6). -/
def execUnpad (n : Byte) (s : State) : Result :=
  if ¬ s.inRange s.src.toNat s.len.toNat then .next (s.raiseBufferError errBounds)
  else
    let cells := s.dmem.cells s.src.toNat s.len.toNat
    match validateCells cells n.toNat with
    | none => .fault .unwrittenDmem
    | some false => .next (s.raiseBufferError errPadding)
    | some true =>
      let v := (cells.getLast?.bind id).getD 0
      let k := s.len.toNat - v.toNat
      if ¬ s.inRange s.dst.toNat k then .next (s.raiseBufferError errBounds)
      else match allWritten (cells.take k) with
        | none => .fault .unwrittenDmem
        | some out => .next (s.writeOutput out)

/-- VALID n (R187): the padding oracle; it writes STATUS.ERR and nothing else. -/
def execValid (n : Byte) (s : State) : Result :=
  if ¬ s.inRange s.src.toNat s.len.toNat then .next (s.finish errBounds)
  else
    match validateCells (s.dmem.cells s.src.toNat s.len.toNat) n.toNat with
    | none => .fault .unwrittenDmem
    | some false => .next (s.finish errPadding)
    | some true => .next (s.finish errOk)

end Sys2Proof.Machine
end

