-- ==== Sys2Proof/Machine/Modes.lean ====
section
/-! DEFINITION. The mode functions and the commands ENC and DEC (44_modes.md). -/

namespace Sys2Proof.Machine

/-! ## Blocks of a buffer -/

/-- Block i of a buffer, `b[16i..16i+16)`; the rules use it only where these 16 bytes are there. -/
def blockAt (b : List Byte) (i : Nat) : Block := Vector.ofFn fun k : Fin 16 => b.getD (16 * i + k.val) 0

/-- The blocks of a buffer whose length is a multiple of 16 (R201). -/
def blocksOf (b : List Byte) : List Block := (List.range (b.length / 16)).map (blockAt b)

/-- The bytes of a sequence of blocks. -/
def bytesOf (bs : List Block) : List Byte := bs.flatMap fun x => x.toList

/-! ## Mode functions -/

/-- `ECBEnc(b, rk)` (R201). -/
def ecbEnc (b : List Byte) (rk : RoundKeys) : List Byte := bytesOf ((blocksOf (pad b 16)).map fun x => cipher x rk)

/-- `ECBDec(b, rk)` (R201): the input is padded as for encoding (R206). -/
def ecbDec (b : List Byte) (rk : RoundKeys) : List Byte := bytesOf ((blocksOf (pad b 16)).map fun x => invCipher x rk)

/-- The loop of CBC encode from chaining value `prev` on (R202): the chaining value of the next block is this ciphertext block. -/
def cbcEncBlocks (rk : RoundKeys) : Block → List Block → List Block
  | _, [] => []
  | prev, x :: xs => cipher (xorBlock x prev) rk :: cbcEncBlocks rk (cipher (xorBlock x prev) rk) xs

/-- `CBCEnc(b, rk, iv)` (R202; 90_conflicts.md C1). -/
def cbcEnc (b : List Byte) (rk : RoundKeys) (iv : Block) : List Byte :=
  bytesOf (cbcEncBlocks rk iv (blocksOf (pad b 16)))

/-- The loop of CBC decode from chaining value `prev` on (R203): the next one is this block of the input snapshot. -/
def cbcDecBlocks (rk : RoundKeys) : Block → List Block → List Block
  | _, [] => []
  | prev, x :: xs => xorBlock (invCipher x rk) prev :: cbcDecBlocks rk x xs

/-- `CBCDec(b, rk, iv)` (R203, R206). -/
def cbcDec (b : List Byte) (rk : RoundKeys) (iv : Block) : List Byte :=
  bytesOf (cbcDecBlocks rk iv (blocksOf (pad b 16)))

/-- The keystream input block `LE64(N) ‖ LE64(c mod 2^64)` (R204). -/
def counterBlock (nonce : BitVec 64) (c : Nat) : Block := (le64 nonce ++ le64 (BitVec.ofNat 64 c) : Vector Byte (8 + 8))

/-- `CTR(b, rk, N)`, for encode and decode alike (R204): chunk c, at most 16 bytes, is XORed with the first bytes of its
keystream block. -/
def ctr (b : List Byte) (rk : RoundKeys) (nonce : BitVec 64) : List Byte :=
  (List.range ((b.length + 15) / 16)).flatMap fun c =>
    List.zipWith (fun x y => x ^^^ y) ((b.drop (16 * c)).take 16) (cipher (counterBlock nonce c) rk).toList

/-! ## Commands -/

/-- A CBC transform with the IV register (R200). It depends on IV only where there is a block, so an unwritten byte of IV stops
the command only on a nonempty input (10_state.md R41; log 6). -/
def State.withIv (s : State) (f : Block → List Byte → List Byte) (b : List Byte) : Except Fault (List Byte) :=
  if b = [] then .ok (f s.iv b) else if s.ivReady then .ok (f s.iv b) else .error .unwrittenIv

/-- The steps that ENC and DEC share (R210): the key step, then `body` on the state it leaves, in which RK is the schedule.
They stop where `keyStep` needs an unwritten byte of KEY, as 10_state.md R41 orders. -/
def State.afterKeyStep (s : State) (body : State → Result) : Result :=
  match keyStep s with
  | .invalidKeySize => .next (s.raiseBufferError errInvalidKeySize)
  | .unimplemented => .next s.raiseFault
  | .unwritten => .fault .unwrittenKey
  | .ok t => body t

/-- ENC m (R213): encode DMEM[SRC..SRC+LEN) into DMEM at DST. -/
def execEnc (m : Mode) (s : State) : Result :=
  s.afterKeyStep fun t =>
    match m with
    | .ecb => t.runBuffer (padLength t.len.toNat 16) fun b => .ok (ecbEnc b t.rk)
    | .cbc => t.runBuffer (padLength t.len.toNat 16) (t.withIv fun iv b => cbcEnc b t.rk iv)
    | .ctr => t.runBuffer t.len.toNat fun b => .ok (ctr b t.rk t.nonce)
    | .gcm => .next t.raiseFault

/-- DEC m (R214): decode DMEM[SRC..SRC+LEN) into DMEM at DST. The padding is neither checked nor removed (R207). -/
def execDec (m : Mode) (s : State) : Result :=
  s.afterKeyStep fun t =>
    match m with
    | .ecb => t.runBuffer (padLength t.len.toNat 16) fun b => .ok (ecbDec b t.rk)
    | .cbc => t.runBuffer (padLength t.len.toNat 16) (t.withIv fun iv b => cbcDec b t.rk iv)
    | .ctr => t.runBuffer t.len.toNat fun b => .ok (ctr b t.rk t.nonce)
    | .gcm => .next t.raiseFault

end Sys2Proof.Machine
end

