-- ==== Sys2Proof/Machine/Dispatch.lean ====
section
/-! DEFINITION. The meaning of every command, one arm for each constructor of Instr (30_encoding.md R84). exec is the command's
own rule; the FAULT gate and the legality check stand before it, where a CMD write is handled (R80, Machine/Bus.lean). -/

namespace Sys2Proof.Machine

def exec (i : Instr) (s : State) : Host.Outcome State Fault Refusal :=
  match i with
  | .gfmul a b => Sys2Proof.Machine.execGfmul a b s
  | .sbox x => Sys2Proof.Machine.execSbox x s
  | .isbox y => Sys2Proof.Machine.execIsbox y s
  | .subb => Sys2Proof.Machine.execSubb s
  | .isubb => Sys2Proof.Machine.execIsubb s
  | .shr => Sys2Proof.Machine.execShr s
  | .ishr => Sys2Proof.Machine.execIshr s
  | .mixc bypass => Sys2Proof.Machine.execMixc bypass s
  | .imixc bypass => Sys2Proof.Machine.execImixc bypass s
  | .ark j => Sys2Proof.Machine.execArk j s
  | .round j final => Sys2Proof.Machine.execRound j final s
  | .iround j final => Sys2Proof.Machine.execIround j final s
  | .kexp => Sys2Proof.Machine.execKexp s
  | .encb => Sys2Proof.Machine.execEncb s
  | .decb => Sys2Proof.Machine.execDecb s
  | .enc m => Sys2Proof.Machine.execEnc m s
  | .dec m => Sys2Proof.Machine.execDec m s
  | .pad n => Sys2Proof.Machine.execPad n s
  | .unpad n => Sys2Proof.Machine.execUnpad n s
  | .valid n => Sys2Proof.Machine.execValid n s

end Sys2Proof.Machine
end

