-- ==== Sys2Proof/Machine/Bus.lean ====
section
/-! DEFINITION. The host's side of AESENG: the address map, host reads and writes, the execution of a command word, and the
platform reset (10_state.md R23, 20_memory.md, 30_encoding.md R80, 70_reset_and_hazards.md R270). -/

namespace Sys2Proof.Machine

/-! ## Address map (10_state.md R23) -/

/-- The 32-bit registers that hold a value; only 32-bit accesses reach them (R23). -/
inductive RegName where
  | status | result | outLen | src | dst | len | keyLen | nonceLo | nonceHi
deriving DecidableEq, Repr

/-- The byte ranges; 8-bit and 32-bit accesses reach them (R23). -/
inductive ArrayName where
  | key | iv | state | rk | dmem
deriving DecidableEq, Repr

/-- A named range of the address map. -/
inductive RangeName where
  /-- CMD, which has no storage (R24). -/
  | cmd
  /-- A 32-bit register. -/
  | reg (r : RegName)
  /-- A byte range. -/
  | array (a : ArrayName)
deriving DecidableEq, Repr

/-- A row of the address map: a range, its first offset and its size in bytes. -/
structure MapRow where
  name : RangeName
  base : Nat
  size : Nat
deriving DecidableEq, Repr

/-- The address map (R23). An offset in no row is reserved (20_memory.md R58). -/
def addressMap (c : Config) : List MapRow :=
  [ ⟨.cmd, 0x000, 4⟩, ⟨.reg .status, 0x004, 4⟩, ⟨.reg .result, 0x008, 4⟩, ⟨.reg .outLen, 0x00C, 4⟩,
    ⟨.reg .src, 0x010, 4⟩, ⟨.reg .dst, 0x014, 4⟩, ⟨.reg .len, 0x018, 4⟩, ⟨.reg .keyLen, 0x01C, 4⟩,
    ⟨.reg .nonceLo, 0x020, 4⟩, ⟨.reg .nonceHi, 0x024, 4⟩,
    ⟨.array .key, 0x040, 32⟩, ⟨.array .iv, 0x060, 16⟩, ⟨.array .state, 0x070, 16⟩, ⟨.array .rk, 0x080, 176⟩,
    ⟨.array .dmem, 0x1000, c.dmemSize⟩ ]

/-- Whether an offset lies in a row. -/
def MapRow.holds (r : MapRow) (o : Nat) : Bool := decide (r.base ≤ o) && decide (o < r.base + r.size)

/-- The row an access at host address `addr` selects, with the offset o = addr − ENGINE_BASE (20_memory.md R51). -/
def rowAt (c : Config) (addr : Nat) : Option (MapRow × Nat) :=
  if addr < c.engineBase then none
  else match (addressMap c).find? (fun r => r.holds (addr - c.engineBase)) with
    | none => none
    | some r => some (r, addr - c.engineBase)

/-- Where an 8-bit access goes: a byte range and the index in it; or why it is refused (R51, R52). -/
def locate8 (c : Config) (addr : Nat) : Except Refusal (ArrayName × Nat) :=
  match rowAt c addr with
  | none => .error .reservedOffset
  | some (r, o) =>
    match r.name with
    | .array a => .ok (a, o - r.base)
    | .cmd => .error .narrowRegisterAccess
    | .reg _ => .error .narrowRegisterAccess

/-- Where a 32-bit access goes: a range and the index of its first byte in it; or why it is refused (R51, R52). -/
def locate32 (c : Config) (addr : Nat) : Except Refusal (RangeName × Nat) :=
  match rowAt c addr with
  | none => .error .reservedOffset
  | some (r, o) =>
    if o % 4 ≠ 0 then .error .misalignedAccess
    else if r.holds (o + 3) then .ok (r.name, o - r.base)
    else .error .straddlingAccess

/-! ## Registers (10_state.md R24 to R30) -/

/-- What a Read32 of a 32-bit register returns. -/
def State.readReg (s : State) : RegName → Word
  | .status => statusWord s
  | .result => s.result
  | .outLen => s.outLen
  | .src => s.src
  | .dst => s.dst
  | .len => s.len
  | .keyLen => s.keyLen
  | .nonceLo => s.nonceLo
  | .nonceHi => s.nonceHi

/-- A Write32 to a 32-bit register. Writes to STATUS, RESULT and OUT_LEN are ignored (20_memory.md R55); a write to KEY_LEN clears
STATUS.RK_VALID even if it writes the old value (R29, R36). -/
def State.writeReg (s : State) : RegName → Word → State
  | .status, _ => s
  | .result, _ => s
  | .outLen, _ => s
  | .src, v => { s with src := v }
  | .dst, v => { s with dst := v }
  | .len, v => { s with len := v }
  | .keyLen, v => { s with keyLen := v, rkValid := false }
  | .nonceLo, v => { s with nonceLo := v }
  | .nonceHi, v => { s with nonceHi := v }

/-! ## Byte ranges (10_state.md R31 to R35) -/

/-- Byte `i` of a byte range, none if it is unwritten (R41). RK byte 16j + i is RK[j][i] (R33). -/
def State.arrayByte (s : State) : ArrayName → Nat → Option Byte
  | .key, i => if s.keyWritten[i]?.getD false then s.key[i]? else none
  | .iv, i => if s.ivWritten[i]?.getD false then s.iv[i]? else none
  | .state, i => if s.stateWritten[i]?.getD false then s.state[i]? else none
  | .rk, i => if s.rkWritten then (s.rk[i / 16]?).bind fun k => k[i % 16]? else none
  | .dmem, i => s.dmem.read i

/-- A host write of byte `v` to byte `i` of a byte range. Writes to RK are ignored (20_memory.md R55); a write to any byte of KEY
clears STATUS.RK_VALID (R31, R36). -/
def State.writeArrayByte (s : State) : ArrayName → Nat → Byte → State
  | .key, i, v => { s with key := s.key.setIfInBounds i v, keyWritten := s.keyWritten.setIfInBounds i true, rkValid := false }
  | .iv, i, v => { s with iv := s.iv.setIfInBounds i v, ivWritten := s.ivWritten.setIfInBounds i true }
  | .state, i, v => { s with state := s.state.setIfInBounds i v, stateWritten := s.stateWritten.setIfInBounds i true }
  | .rk, _, _ => s
  | .dmem, i, v => { s with dmem := s.dmem.write i v }

/-- What a host read of a byte returns, and the state after it: a written byte is itself; for an unwritten one a free value is
drawn (R41). -/
def State.drawByte (s : State) (c : Option Byte) : Byte × State :=
  match c with
  | some v => (v, s)
  | none => (Config.unwrittenByte s.draws, { s with draws := s.draws + 1 })

/-- The word a Read32 of a byte range returns from byte `i` on (20_memory.md R53), and the state after it. -/
def State.readArrayWord (s : State) (a : ArrayName) (i : Nat) : Word × State :=
  let r0 := s.drawByte (s.arrayByte a i)
  let r1 := r0.2.drawByte (s.arrayByte a (i + 1))
  let r2 := r1.2.drawByte (s.arrayByte a (i + 2))
  let r3 := r2.2.drawByte (s.arrayByte a (i + 3))
  (wordOfBytes r0.1 r1.1 r2.1 r3.1, r3.2)

/-- A Write32 to a byte range from byte `i` on: byte(i + k) gets lane k (20_memory.md R53). -/
def State.writeArrayWord (s : State) (a : ArrayName) (i : Nat) (v : Word) : State :=
  (((s.writeArrayByte a i (byteLane v 0)).writeArrayByte a (i + 1) (byteLane v 1)).writeArrayByte a (i + 2)
    (byteLane v 2)).writeArrayByte a (i + 3) (byteLane v 3)

/-! ## Commands (30_encoding.md R80) -/

/-- A Write32 of `w` to CMD (R80): ignored while STATUS.FAULT = 1 (60_exceptions.md R244); an illegal word has the one effect
STATUS.ERR <- 6 (R87); any other runs its command. -/
def issue (w : Word) (s : State) : Result :=
  if s.fault then .next s
  else match decode w with
    | .error _ => .next (s.finish errIllegalCommand)
    | .ok i => exec i s

/-! ## Host events -/

/-- The platform reset (70_reset_and_hazards.md R270): every register gets its reset value and every byte of KEY, IV, STATE, RK and
DMEM becomes unwritten. The parameters and the host's side (pending, readData, draws) are not the engine's and stay (log 13). -/
def State.platformReset (s : State) : State :=
  { State.reset with config := s.config, pending := s.pending, readData := s.readData, draws := s.draws }

/-- One host event (20_memory.md R50 to R55). -/
def hostEvent (e : HostEvent) (s : State) : Result :=
  match e with
  | .read8 addr =>
    match locate8 s.config addr with
    | .error r => .refused r
    | .ok (a, i) =>
      let d := s.drawByte (s.arrayByte a i)
      .next { d.2 with readData := some (.byte d.1) }
  | .read32 addr =>
    match locate32 s.config addr with
    | .error r => .refused r
    | .ok (.cmd, _) => .next { s with readData := some (.word 0) }
    | .ok (.reg r, _) => .next { s with readData := some (.word (s.readReg r)) }
    | .ok (.array a, i) =>
      let d := s.readArrayWord a i
      .next { d.2 with readData := some (.word d.1) }
  | .write8 addr v =>
    match locate8 s.config addr with
    | .error r => .refused r
    | .ok (a, i) => .next (s.writeArrayByte a i v)
  | .write32 addr v =>
    match locate32 s.config addr with
    | .error r => .refused r
    | .ok (.cmd, _) => issue v s
    | .ok (.reg r, _) => .next (s.writeReg r v)
    | .ok (.array a, i) => .next (s.writeArrayWord a i v)
  | .reset => .next s.platformReset

end Sys2Proof.Machine
end

