-- ==== Sys2Proof/Machine/Step.lean ====
section
/-! DEFINITION. One step: the host's oldest pending event happens (10_state.md R21, 20_memory.md R60, R61). -/

namespace Sys2Proof.Machine

/-- One step. With no pending event the engine is idle and every register keeps its value (60_exceptions.md R255); otherwise the
oldest event leaves the queue and happens as one atomic transition (20_memory.md R60). -/
def step (s : State) : Host.Outcome State Fault Refusal :=
  match s.pending with
  | [] => .next s
  | e :: rest => hostEvent e { s with pending := rest }

/-- The state in which the host's next event is the Write32 of the given command word to CMD, so that the next step runs it: a
command comes from nowhere else (10_state.md R21; log 1). -/
def State.withFetchWord (s : State) (nbits w : Nat) : State :=
  { s with pending := .write32 s.config.engineBase (tableWord nbits w) :: s.pending }

end Sys2Proof.Machine
end

