-- ==== Sys2Proof/Safety.lean ====
section
/-! DEFINITION. The terms claims about AESENG use: the invariants of its state, where a run starts and ends, and running a list of
commands. -/

namespace Sys2Proof

open Sys2Proof.Machine

/-! ## Invariants -/

/-- DMEM is in canonical form and inside the data memory (10_state.md R35). -/
abbrev MemoryCanonical (s : State) : Prop := s.dmem.wf ∧ ∀ c ∈ s.dmem, c.1 < s.config.dmemSize

/-- While RK_VALID is 1, RK is written and holds the expansion of the current KEY[0..15], which is written, and KEY_LEN is 16
(10_state.md R36). -/
abbrev RoundKeysCurrent (s : State) : Prop :=
  s.rkValid = true → s.keyLen = 16 ∧ s.keyReady = true ∧ s.rkWritten = true ∧ s.rk = keyExpansion s.key128

/-- STATUS.ERR holds a code that some rule writes, and code 15 stands with FAULT = 1 and only with it (60_exceptions.md R240). -/
abbrev StatusLegal (s : State) : Prop := s.err ∈ writableCodes ∧ (s.fault = true ↔ s.err = errUnimplemented)

/-- RESULT[31:8] is 0 (10_state.md R26). -/
abbrev ResultIsByte (s : State) : Prop := s.result.extractLsb' 8 24 = 0

/-- OUT_LEN is at most DMEM_SIZE: it is 0 or a count of bytes written to DMEM (10_state.md R27). -/
abbrev OutLenFits (s : State) : Prop := s.outLen.toNat ≤ s.config.dmemSize

/-! ## Runs -/

/-- A clean entry (70_reset_and_hazards.md R273): FAULT = 0 and legal parameters. -/
abbrev CleanEntry (s : State) : Prop := s.fault = false ∧ s.config.ok = true

/-- A final state: the host has nothing more to do and the engine is not faulted; a state with FAULT = 1 is never final
(60_exceptions.md R244). -/
abbrev Final (s : State) : Prop := s.pending = [] ∧ s.fault = false

/-- A safe run of `n` steps: no refusal and no model fault, and it ends without the unimplemented-path fault. -/
def SafeRun (n : Nat) (s : State) : Prop := ∃ t, Sys2Proof.core.run n s = .next t ∧ t.fault = false

/-- The commands of a list, one after the other, each by its own rule; it stops at the first model fault. -/
def execAll : List Instr → State → Result
  | [], s => .next s
  | i :: is, s =>
    match exec i s with
    | .next t => execAll is t
    | .fault r => .fault r
    | .refused r => .refused r

/-! ## Views of a state -/

/-- Whether the host's next event is a Write32 of `w` to CMD. -/
def commandPending (s : State) (w : Word) (rest : List HostEvent) : Prop :=
  s.pending = .write32 s.config.engineBase w :: rest

/-- The registers the engine never writes (10_state.md R42), with the written marks of KEY and IV, are the same in two states. -/
def sameHostRegisters (s t : State) : Prop :=
  t.src = s.src ∧ t.dst = s.dst ∧ t.len = s.len ∧ t.keyLen = s.keyLen ∧ t.nonceLo = s.nonceLo ∧ t.nonceHi = s.nonceHi ∧
    t.key = s.key ∧ t.keyWritten = s.keyWritten ∧ t.iv = s.iv ∧ t.ivWritten = s.ivWritten

end Sys2Proof
end

