-- ==== Sys2Proof/Certificates/Slice0/Obligations.lean ====
section
/-! DEFINITION. The statements for the provers, each a rule of the spec or a consequence of some, about this model. The reference
functions they compare the machine with stand first, under Sys2Proof.Claims. -/

namespace Sys2Proof.Claims

open Sys2Proof.Machine

/-! ## Reference functions and shared forms of the statements -/

/-- The 15-bit product of two bytes as polynomials over GF(2), in 16 bits: the XOR of a · x^i over the set bits i of b. -/
def carrylessProduct (a b : Byte) : BitVec 16 :=
  (List.range 8).foldl (fun p i => if b.getLsbD i then p ^^^ (a.setWidth 16 <<< i) else p) 0

/-- Remainder modulo the AES polynomial, bit pattern 0x11B: bits 14 down to 8 are cancelled one by one. -/
def reduceBy11B (p : BitVec 16) : BitVec 16 :=
  ([6, 5, 4, 3, 2, 1, 0] : List Nat).foldl (fun p i => if p.getLsbD (i + 8) then p ^^^ (0x11B#16 <<< i) else p) p

/-- The product of two bytes in GF(2^8) by the contract of 40_gf_sbox.md R100: the polynomial product modulo 0x11B. -/
def polyProduct (a b : Byte) : Byte := (reduceBy11B (carrylessProduct a b)).setWidth 8

/-- Bit i of Aff(t) (40_gf_sbox.md R102). -/
def affineBit (t : Byte) (i : Nat) : Bool :=
  t.getLsbD i ^^ t.getLsbD ((i + 4) % 8) ^^ t.getLsbD ((i + 5) % 8) ^^ t.getLsbD ((i + 6) % 8) ^^
    t.getLsbD ((i + 7) % 8) ^^ (0x63#8).getLsbD i

/-- The document's one step of a (40_gf_sbox.md R101): ((a << 1)[7:0]) ^ (0x1B if a[7] = 1 else 0). -/
def twice (a : Byte) : Byte := (a <<< 1) ^^^ (if a.getLsbD 7 then 0x1B else 0)

/-- Byte b of word i of the expanded key that a round key file holds: RK_j[4k + b] is byte b of W[4j + k] (42_key_schedule.md R162). -/
def rkByte (rk : RoundKeys) (i b : Nat) : Byte :=
  (rk.toList.getD (i / 4) (Vector.replicate 16 0)).toList.getD (4 * (i % 4) + b) 0

/-- Byte k of block i of a byte sequence, none beyond its end. -/
def byteOfBlock (b : List Byte) (i k : Nat) : Option Byte := b[16 * i + k]?

/-- The commands that transform STATE and read no round key. -/
def unguarded : List Instr := [.subb, .isubb, .shr, .ishr, .mixc false, .mixc true, .imixc false, .imixc true]

/-- The commands that transform STATE behind the key guard. -/
def guarded : Instr → Bool
  | .ark j => roundIndexOk j
  | .round j _ => roundIndexOk j
  | .iround j _ => roundIndexOk j
  | .encb => true
  | .decb => true
  | _ => false

/-- The block commands (41_block_transforms.md section 2), with every operand. -/
def blockCommand : Instr → Bool
  | .subb => true
  | .isubb => true
  | .shr => true
  | .ishr => true
  | .mixc _ => true
  | .imixc _ => true
  | .ark _ => true
  | .round _ _ => true
  | .iround _ _ => true
  | .encb => true
  | .decb => true
  | _ => false

/-- The commands that write an output buffer to DMEM: ENC, DEC, PAD and UNPAD. -/
def bufferWriter : Instr → Bool
  | .enc _ => true
  | .dec _ => true
  | .pad _ => true
  | .unpad _ => true
  | _ => false

/-- The commands that run the key step: KEXP, ENC and DEC. -/
def keyed : Instr → Bool
  | .kexp => true
  | .enc _ => true
  | .dec _ => true
  | _ => false

/-- Apply a change to the state of an outcome that is a next state. -/
def onNext (f : State → State) : Result → Result
  | .next t => .next (f t)
  | .fault r => .fault r
  | .refused r => .refused r

/-- The state after a key step that succeeded (42_key_schedule.md R163). -/
def keyedState (s : State) : State := { s with rk := keyExpansion s.key128, rkWritten := true, rkValid := true }

/-- How many bytes ENC and DEC write in a mode for an input of `len` bytes (44_modes.md R201 to R204). -/
def codecLength (m : Mode) (len : Nat) : Nat :=
  match m with
  | .ecb => padLength len 16
  | .cbc => padLength len 16
  | .ctr => len
  | .gcm => 0

/-- The input buffer DMEM[SRC..SRC+LEN) is in DMEM, written, and holds the bytes b. -/
def inputIs (s : State) (b : List Byte) : Prop :=
  s.inRange s.src.toNat s.len.toNat = true ∧ s.dmem.readBytes s.src.toNat s.len.toNat = some b

/-- Every byte outside the `n` bytes from offset `a` on reads as before. -/
def sameOutside (s t : State) (a n : Nat) : Prop := ∀ x, x < a ∨ a + n ≤ x → t.dmem.read x = s.dmem.read x

/-- A buffer command ended with success and the output `out` at DST: ERR 0, OUT_LEN its length, its bytes in DMEM from DST on,
every other byte of DMEM as before, and, of the rest of the state, what `s` holds. -/
def wroteOutput (s t : State) (out : List Byte) : Prop :=
  t = { s with dmem := t.dmem, outLen := BitVec.ofNat 32 out.length, err := errOk } ∧ t.outLen.toNat = out.length ∧
    t.dmem.readBytes s.dst.toNat out.length = some out ∧ sameOutside s t s.dst.toNat out.length

/-- ENC and DEC can run in mode m: a 16-byte key that is written, for CBC a written IV, and an output that fits at DST
(70_reset_and_hazards.md R272). -/
def codecReady (m : Mode) (s : State) : Prop :=
  s.config.ok = true ∧ s.keyLen = 16 ∧ s.keyReady = true ∧ (m = .cbc → s.ivReady = true) ∧
    s.inRange s.dst.toNat (codecLength m s.len.toNat) = true

/-- The host points the engine at the output of the last command and at a new destination. -/
def chain (t : State) (dst : Word) : State := { t with src := t.dst, len := t.outLen, dst := dst }

/-- The buffer ends with v copies of v for some v in 1..n: what Validate decides (43_padding.md R181). -/
def endsInPadding (b : List Byte) (n : Nat) : Prop :=
  ∃ (p : List Byte) (v : Nat), 1 ≤ v ∧ v ≤ n ∧ v < 256 ∧ b = p ++ List.replicate v (BitVec.ofNat 8 v)

/-- A host event is refused. -/
def isRefused (e : HostEvent) (s : State) : Prop := ∃ r, hostEvent e s = .refused r

/-- The offset of a host address lies in a byte range that the host can write: KEY, IV, STATE or DMEM, with `n` bytes. -/
def writableBytes (s : State) (o n : Nat) : Prop := (0x40 ≤ o ∧ o + n ≤ 0x80) ∨ (0x1000 ≤ o ∧ o + n ≤ 0x1000 + s.config.dmemSize)

/-- The offset of a host address lies in a byte range, with `n` bytes. -/
def readableBytes (s : State) (o n : Nat) : Prop := (0x40 ≤ o ∧ o + n ≤ 0x130) ∨ (0x1000 ≤ o ∧ o + n ≤ 0x1000 + s.config.dmemSize)

/-- The byte the host sees at an offset of a byte range, none where it is unwritten: KEY[i] at 0x040 + i, IV[i] at 0x060 + i,
STATE[i] at 0x070 + i, RK[j][i] at 0x080 + 16·j + i and DMEM[a] at 0x1000 + a (10_state.md R31 to R35, R41). -/
def hostByte (s : State) (o : Nat) : Option Byte :=
  if o < 0x60 then (if s.keyWritten.toList.getD (o - 0x40) false then s.key.toList[o - 0x40]? else none)
  else if o < 0x70 then (if s.ivWritten.toList.getD (o - 0x60) false then s.iv.toList[o - 0x60]? else none)
  else if o < 0x80 then (if s.stateWritten.toList.getD (o - 0x70) false then s.state.toList[o - 0x70]? else none)
  else if o < 0x130 then
    (if s.rkWritten then (s.rk.toList[(o - 0x80) / 16]?).bind (fun k => k.toList[(o - 0x80) % 16]?) else none)
  else s.dmem.read (o - 0x1000)

/-- How many free bytes the host has drawn once it has read the `k` bytes from offset `o` on, the lowest first. -/
def drawsAfter (s : State) (o k : Nat) : Nat := s.draws + (List.range k).countP fun i => (hostByte s (o + i)).isNone

/-- What a host read that starts at offset `o` sees as its byte `k`: the byte, or, if it is unwritten, the next free value. -/
def byteSeen (s : State) (o k : Nat) : Byte := (hostByte s (o + k)).getD (Config.unwrittenByte (drawsAfter s o k))

/-- A byte sequence that the input buffer may hold: it agrees with every byte of the buffer that is written. -/
def mayHold (s : State) (b : List Byte) : Prop :=
  b.length = s.len.toNat ∧ ∀ k v, k < s.len.toNat → s.dmem.read (s.src.toNat + k) = some v → b[k]? = some v

/-- Whether the input ends in padding depends on an unwritten byte: it may hold a sequence that does and one that does not. -/
def paddingUndecided (s : State) (n : Nat) : Prop :=
  ∃ b c : List Byte, mayHold s b ∧ mayHold s c ∧ endsInPadding b n ∧ ¬ endsInPadding c n

/-- The input is in DMEM with a byte of it unwritten, and an output of `n` bytes fits into DMEM at DST. -/
def inputUnwritten (s : State) (n : Nat) : Prop :=
  s.inRange s.src.toNat s.len.toNat = true ∧ s.inRange s.dst.toNat n = true ∧ s.dmem.readBytes s.src.toNat s.len.toNat = none

/-- Host events one after the other; it stops at the first that gives no next state. -/
def allEvents : List HostEvent → State → Result
  | [], s => .next s
  | e :: es, s =>
    match hostEvent e s with
    | .next t => allEvents es t
    | .fault r => .fault r
    | .refused r => .refused r

/-- The state in which the host is about to do the given events. -/
def withEvents (s : State) (es : List HostEvent) : State := { s with pending := es }

/-- The host's next event writes a byte of KEY, or KEY_LEN. -/
def keyWrite (s : State) (e : HostEvent) : Prop :=
  (∃ v, e = .write32 (s.config.engineBase + 0x1C) v) ∨
    (∃ i v, i < 32 ∧ e = .write8 (s.config.engineBase + 0x40 + i) v) ∨
      (∃ i v, i < 8 ∧ e = .write32 (s.config.engineBase + 0x40 + 4 * i) v)

end Sys2Proof.Claims

open Sys2Proof Sys2Proof.Machine Sys2Proof.Claims

/-! ## Encoding -/

/-- Decoding the encoding of a well-formed command gives it back, with every operand. -/
def Obligations.DecodeEncodeRoundTrip : Prop := ∀ i : Instr, i.wellFormed = true → decode (encode i) = .ok i

/-- R85: the decoder accepts exactly the words for which `Legal` holds, each as a well-formed command whose encoding it is. -/
def Obligations.DecoderAcceptsExactlyLegalWords : Prop :=
  ∀ w : Word,
    (legalFields (w.toNat % 256) (w.toNat / 256 % 256) (w.toNat / 65536 % 256) (w.toNat / 16777216) = true ↔
      ∃ i, decode w = .ok i) ∧
    ∀ i, decode w = .ok i → i.wellFormed = true ∧ encode i = w

/-- A word of every family, written out from 30_encoding.md R84 and R89, decodes to its command. -/
def Obligations.SpecWordsDecode : Prop :=
  decode 0x00835701 = .ok (.gfmul 0x57 0x83) ∧ decode 0x00005302 = .ok (.sbox 0x53) ∧ decode 0x00010014 = .ok (.mixc true) ∧
    decode 0x00000216 = .ok (.ark 2) ∧ decode 0x00010A17 = .ok (.round 10 true) ∧ decode 0x00000020 = .ok .kexp ∧
      decode 0x00000130 = .ok (.enc .cbc) ∧ decode 0x00000231 = .ok (.dec .ctr) ∧ decode 0x00001440 = .ok (.pad 20) ∧
        decode 0x00001042 = .ok (.valid 16)

/-- R87: the illegal words are exactly those of the rule's list, 0 among them, and an illegal word has exactly one effect,
STATUS.ERR <- 6; FAULT stays 0, so that later commands execute normally. -/
def Obligations.IllegalWordOnlyWritesErrSix : Prop :=
  (∀ (s : State) (w : Word) (rest : List HostEvent), commandPending s w rest → s.fault = false → legal w = false →
    step s = .next { s with pending := rest, err := errIllegalCommand }) ∧
  legal 0 = false ∧
  ∀ w : Word, legal w = false ↔
    (opOf w).toNat ∉ [0x01, 0x02, 0x03, 0x10, 0x11, 0x12, 0x13, 0x14, 0x15, 0x16, 0x17, 0x18, 0x20, 0x21, 0x22, 0x30, 0x31,
      0x40, 0x41, 0x42] ∨
    zOf w ≠ 0 ∨
    ((opOf w).toNat ∈ [0x10, 0x11, 0x12, 0x13, 0x20, 0x21, 0x22, 0x14, 0x15] ∧ aOf w ≠ 0) ∨
    ((opOf w).toNat ∈ [0x10, 0x11, 0x12, 0x13, 0x20, 0x21, 0x22, 0x02, 0x03, 0x16, 0x30, 0x31, 0x40, 0x41, 0x42] ∧ bOf w ≠ 0) ∨
    ((opOf w).toNat ∈ [0x14, 0x15, 0x17, 0x18] ∧ 2 ≤ (bOf w).toNat) ∨
    ((opOf w).toNat ∈ [0x16, 0x17, 0x18] ∧ 11 ≤ (aOf w).toNat) ∨
    ((opOf w).toNat ∈ [0x30, 0x31] ∧ 4 ≤ (aOf w).toNat)

/-! ## Steps -/

/-- R80: how a Write32 to CMD is handled: ignored under FAULT, ERR 6 if illegal, else the command of the word. -/
def Obligations.CommandWriteIsHandled : Prop :=
  ∀ (s : State) (w : Word) (rest : List HostEvent), commandPending s w rest →
    (s.fault = true → step s = .next { s with pending := rest }) ∧
    (s.fault = false → legal w = false → step s = .next { s with pending := rest, err := errIllegalCommand }) ∧
    (s.fault = false → legal w = true → ∃ i, decode w = .ok i ∧ step s = exec i { s with pending := rest })

/-- A step runs the decoded command: a command word that is pending, or placed by withFetchWord, is executed by exec on the state
without it; with nothing pending the state stays (60_exceptions.md R255). The queue is the model's (log 1). -/
def Obligations.StepRunsDecodedCommand : Prop :=
  (∀ (s : State) (w : Word) (rest : List HostEvent) (i : Instr), commandPending s w rest → s.fault = false → decode w = .ok i →
    step s = exec i { s with pending := rest }) ∧
  (∀ (s : State) (nbits w : Nat) (i : Instr), s.fault = false → decodeTableWord nbits w = some i →
    step (s.withFetchWord nbits w) = exec i s) ∧
  ∀ s : State, s.pending = [] → step s = .next s

/-- R37: FAULT is 0 at reset, is set by the unimplemented-path fault, and once set no step but the reset changes it, and every
CMD write is ignored. -/
def Obligations.FaultIsStickyUntilReset : Prop :=
  State.reset.fault = false ∧ (∀ s : State, s.platformReset.fault = false) ∧ (∀ s : State, s.raiseFault.fault = true) ∧
  (∀ s t : State, s.fault = true → step s = .next t → s.pending.head? ≠ some .reset → t.fault = true) ∧
  ∀ (s : State) (w : Word) (rest : List HostEvent), s.fault = true → commandPending s w rest →
    step s = .next { s with pending := rest }

/-- R244: while FAULT = 1 a CMD write has no effect at all; every other host access does what it does with FAULT = 0, and STATUS
still reads as its word; reset clears FAULT; a faulted state is never final. -/
def Obligations.AccessesWorkWhileFaulted : Prop :=
  (∀ (s : State) (w : Word), s.fault = true → hostEvent (.write32 s.config.engineBase w) s = .next s) ∧
  (∀ (s : State) (e : HostEvent), e ≠ .reset → (∀ w, e ≠ .write32 s.config.engineBase w) →
    e ≠ .read32 (s.config.engineBase + 4) →
    hostEvent e { s with fault := true } = onNext (fun t => { t with fault := true }) (hostEvent e { s with fault := false })) ∧
  (∀ s : State, hostEvent (.read32 (s.config.engineBase + 4)) s = .next { s with readData := some (.word (statusWord s)) }) ∧
  (∀ (s t : State) (e : HostEvent), s.fault = true → hostEvent e s = .next t → (t.fault = false ↔ e = .reset)) ∧
  ∀ s : State, s.fault = true → ¬ Final s

/-- R243: the fault is raised by KEXP, ENC and DEC with KEY_LEN 24 or 32, and by ENC and DEC in mode GCM after a key step that
succeeded, and in no other case; it writes ERR 15 and FAULT and changes nothing else beyond that key step. -/
def Obligations.FaultExactlyOnUnimplementedPaths : Prop :=
  (∀ (i : Instr) (s : State), keyed i = true → s.keyLen = 24 ∨ s.keyLen = 32 →
    exec i s = .next { s with err := errUnimplemented, fault := true }) ∧
  (∀ (i : Instr) (s : State), i = .enc .gcm ∨ i = .dec .gcm → s.keyLen = 16 → s.keyReady = true →
    exec i s = .next { keyedState s with err := errUnimplemented, fault := true }) ∧
  ∀ (i : Instr) (s t : State), s.fault = false → exec i s = .next t → t.fault = true →
    (keyed i = true ∧ (s.keyLen = 24 ∨ s.keyLen = 32)) ∨ ((i = .enc .gcm ∨ i = .dec .gcm) ∧ s.keyLen = 16)

/-- R245: when several conditions apply to one CMD write, the first of the rule's list is reported, with exactly its effects. -/
def Obligations.FirstApplicableConditionIsReported : Prop :=
  (∀ (s : State) (w : Word) (rest : List HostEvent), commandPending s w rest → s.fault = true →
    step s = .next { s with pending := rest }) ∧
  (∀ (s : State) (w : Word) (rest : List HostEvent), commandPending s w rest → s.fault = false → legal w = false →
    step s = .next { s with pending := rest, err := errIllegalCommand }) ∧
  (∀ (s : State) (m : Mode) (i : Instr), i = .enc m ∨ i = .dec m →
    (s.keyLen ∉ [16, 24, 32] → exec i s = .next { s with outLen := 0, err := errInvalidKeySize }) ∧
    (s.keyLen ∈ [24, 32] → exec i s = .next { s with err := errUnimplemented, fault := true }) ∧
    (s.keyLen = 16 → s.keyReady = true → m = .gcm →
      exec i s = .next { keyedState s with err := errUnimplemented, fault := true }) ∧
    (s.keyLen = 16 → s.keyReady = true → m ≠ .gcm → s.inRange s.src.toNat s.len.toNat = false →
      exec i s = .next { keyedState s with outLen := 0, err := errBounds }) ∧
    (s.keyLen = 16 → s.keyReady = true → m ≠ .gcm → s.inRange s.src.toNat s.len.toNat = true →
      s.inRange s.dst.toNat (codecLength m s.len.toNat) = false →
      exec i s = .next { keyedState s with outLen := 0, err := errBounds })) ∧
  (∀ s : State,
    (s.keyLen ∉ [16, 24, 32] → exec .kexp s = .next { s with err := errInvalidKeySize }) ∧
    (s.keyLen ∈ [24, 32] → exec .kexp s = .next { s with err := errUnimplemented, fault := true })) ∧
  (∀ (s : State) (n : Byte),
    (n = 0 → exec (.pad n) s = .next { s with outLen := 0, err := errInvalidBlockSize }) ∧
    (n ≠ 0 → s.inRange s.src.toNat s.len.toNat = false → exec (.pad n) s = .next { s with outLen := 0, err := errBounds }) ∧
    (n ≠ 0 → s.inRange s.src.toNat s.len.toNat = true → s.inRange s.dst.toNat (padLength s.len.toNat n.toNat) = false →
      exec (.pad n) s = .next { s with outLen := 0, err := errBounds })) ∧
  (∀ (s : State) (n : Byte) (b : List Byte),
    (s.inRange s.src.toNat s.len.toNat = false → exec (.unpad n) s = .next { s with outLen := 0, err := errBounds }) ∧
    (inputIs s b → ¬ endsInPadding b n.toNat → exec (.unpad n) s = .next { s with outLen := 0, err := errPadding }) ∧
    (inputIs s b → endsInPadding b n.toNat → s.inRange s.dst.toNat (b.length - (b.getLastD 0).toNat) = false →
      exec (.unpad n) s = .next { s with outLen := 0, err := errBounds })) ∧
  (∀ (s : State) (n : Byte) (b : List Byte),
    (s.inRange s.src.toNat s.len.toNat = false → exec (.valid n) s = .next { s with err := errBounds }) ∧
    (inputIs s b → ¬ endsInPadding b n.toNat → exec (.valid n) s = .next { s with err := errPadding })) ∧
  (∀ (s : State) (i : Instr), guarded i = true → s.rkValid = false → exec i s = .next { s with err := errKeyNotExpanded }) ∧
  ∀ (s t : State) (i : Instr) (a b : Byte), i ∈ unguarded ∨ i ∈ [.gfmul a b, .sbox a, .isbox a] → exec i s = .next t →
    t.err = errOk

/-- R39: every executed command writes ERR, and no command reads it: what a command does is the same whatever ERR holds. -/
def Obligations.NoCommandReadsErr : Prop :=
  ∀ (i : Instr) (s : State) (e : BitVec 4), exec i { s with err := e } = exec i s

/-- Every command completes with a next state when every byte it could read is written (70_reset_and_hazards.md R272), and no
command is ever refused. -/
def Obligations.EveryCommandCompletesOnWrittenInput : Prop :=
  (∀ (i : Instr) (s : State), s.keyReady = true → s.ivReady = true → s.stateReady = true →
    (∀ a, a < s.config.dmemSize → s.dmem.read a ≠ none) → ∃ t, exec i s = .next t ∧ t.err ∈ writableCodes) ∧
  ∀ (i : Instr) (s : State) (r : Refusal), exec i s ≠ .refused r

/-! ## GF(2^8) and the tables -/

/-- GFMUL completes in every state with the product of the two bytes as polynomials over GF(2), modulo 0x11B (40_gf_sbox.md R100,
R105); RESULT and ERR are all it writes. -/
def Obligations.GfmulIsPolynomialProduct : Prop :=
  ∀ (a b : Byte) (s : State), exec (.gfmul a b) s = .next { s with result := (polyProduct a b).setWidth 32, err := errOk }

/-- R101: the laws of the product. -/
def Obligations.GfmulFieldLaws : Prop :=
  (∀ a b : Byte, gmul a b = gmul b a) ∧ (∀ a b c : Byte, gmul (gmul a b) c = gmul a (gmul b c)) ∧
  (∀ a b c : Byte, gmul a (b ^^^ c) = gmul a b ^^^ gmul a c) ∧ (∀ a : Byte, gmul a 0 = 0 ∧ gmul a 1 = a) ∧
  (∀ a : Byte, gmul a 2 = twice a) ∧ ∀ a : Byte, a ≠ 0 → ∃! b : Byte, gmul a b = 1

/-- SBOX completes in every state with the affine map of the field inverse of its operand, the algebraic definition of the table in
40_gf_sbox.md R102, and no operand is a fixed point; RESULT and ERR are all it writes. -/
def Obligations.SboxIsAffineOfFieldInverse : Prop :=
  ∀ (x : Byte) (s : State), ∃ y r : Byte, (if x = 0 then y = 0 else gmul x y = 1) ∧
    (∀ i, i < 8 → r.getLsbD i = affineBit y i) ∧ r ≠ x ∧
    exec (.sbox x) s = .next { s with result := r.setWidth 32, err := errOk }

/-- R103: SBOX and ISBOX undo each other, in both orders, on every byte and in every state. -/
def Obligations.IsboxInvertsSbox : Prop :=
  (∀ (x : Byte) (s : State), ∃ y : Byte,
    exec (.sbox x) s = .next { s with result := y.setWidth 32, err := errOk } ∧
    exec (.isbox y) s = .next { s with result := x.setWidth 32, err := errOk }) ∧
  ∀ (y : Byte) (s : State), ∃ x : Byte,
    exec (.isbox y) s = .next { s with result := x.setWidth 32, err := errOk } ∧
    exec (.sbox x) s = .next { s with result := y.setWidth 32, err := errOk }

/-! ## Block commands -/

/-- SUBB and ISUBB complete on a written STATE, and lane i of the result is what the commands SBOX and ISBOX give for lane i
(41_block_transforms.md R121, R122, R132, R133). -/
def Obligations.SubstitutionActsOnLanes : Prop :=
  ∀ s : State, s.stateReady = true →
    (∃ b : Block, exec .subb s = .next { s with state := b, err := errOk } ∧
      ∀ k : Fin 16, exec (.sbox s.state[k.val]) s = .next { s with result := b[k.val].setWidth 32, err := errOk }) ∧
    ∃ b : Block, exec .isubb s = .next { s with state := b, err := errOk } ∧
      ∀ k : Fin 16, exec (.isbox s.state[k.val]) s = .next { s with result := b[k.val].setWidth 32, err := errOk }

/-- R123 and R124: SHR and ISHR complete on a written STATE with the matrix formulas and the flat permutations of the rules, row 0
is unchanged, and ISHR undoes SHR. -/
def Obligations.ShiftRowsPermutesBytes : Prop :=
  ∀ s : State, s.stateReady = true →
    ∃ b d : Block, exec .shr s = .next { s with state := b, err := errOk } ∧
      exec .ishr s = .next { s with state := d, err := errOk } ∧
      (∀ r c : Fin 4, b[r.val + 4 * c.val] = s.state[r.val + 4 * ((c.val + r.val) % 4)] ∧
        d[r.val + 4 * c.val] = s.state[r.val + 4 * ((c.val + 4 - r.val) % 4)]) ∧
      (∀ c : Fin 4, b[4 * c.val] = s.state[4 * c.val]) ∧
      b = #v[s.state[0], s.state[5], s.state[10], s.state[15], s.state[4], s.state[9], s.state[14], s.state[3],
        s.state[8], s.state[13], s.state[2], s.state[7], s.state[12], s.state[1], s.state[6], s.state[11]] ∧
      d = #v[s.state[0], s.state[13], s.state[10], s.state[7], s.state[4], s.state[1], s.state[14], s.state[11],
        s.state[8], s.state[5], s.state[2], s.state[15], s.state[12], s.state[9], s.state[6], s.state[3]] ∧
      exec .ishr { s with state := b } = .next { s with err := errOk }

/-- MIXC completes on a written STATE with each column's product by the rows [2,3,1,1], [1,2,3,1], [1,1,2,3], [3,1,1,2], written
with the doubling step of 40_gf_sbox.md R101; IMIXC completes with the block that MIXC takes to STATE, the inverse of the same matrix
(41_block_transforms.md R125, R126, R136, R137). -/
def Obligations.MixColumnsByDoubling : Prop :=
  ∀ s : State, s.stateReady = true →
    (∃ b : Block, exec (.mixc false) s = .next { s with state := b, err := errOk } ∧
      ∀ c : Fin 4,
        let a0 := s.state[4 * c.val]
        let a1 := s.state[4 * c.val + 1]
        let a2 := s.state[4 * c.val + 2]
        let a3 := s.state[4 * c.val + 3]
        b[4 * c.val] = twice a0 ^^^ (twice a1 ^^^ a1) ^^^ a2 ^^^ a3 ∧
        b[4 * c.val + 1] = a0 ^^^ twice a1 ^^^ (twice a2 ^^^ a2) ^^^ a3 ∧
        b[4 * c.val + 2] = a0 ^^^ a1 ^^^ twice a2 ^^^ (twice a3 ^^^ a3) ∧
        b[4 * c.val + 3] = (twice a0 ^^^ a0) ^^^ a1 ^^^ a2 ^^^ twice a3) ∧
    ∃ d : Block, exec (.imixc false) s = .next { s with state := d, err := errOk } ∧
      exec (.mixc false) { s with state := d } = .next { s with err := errOk }

/-- With the bypass flag MIXC and IMIXC complete in every state, leave STATE unchanged and write ERR 0 (41_block_transforms.md
R125, R126, R136, R137); that they do so on an unwritten STATE is the model's reading (log 14). -/
def Obligations.BypassedMixColumnsChangesNothing : Prop :=
  ∀ s : State, exec (.mixc true) s = .next { s with err := errOk } ∧ exec (.imixc true) s = .next { s with err := errOk }

/-- The transforms without a key are undone by their inverses, in both orders, and four SHR in a row restore STATE
(41_block_transforms.md R122, R124, R126, R134). -/
def Obligations.InverseTransformsRestoreState : Prop :=
  ∀ (s : State) (f : Bool), s.stateReady = true →
    execAll [.subb, .isubb] s = .next { s with err := errOk } ∧ execAll [.isubb, .subb] s = .next { s with err := errOk } ∧
    execAll [.shr, .ishr] s = .next { s with err := errOk } ∧ execAll [.ishr, .shr] s = .next { s with err := errOk } ∧
    execAll [.mixc f, .imixc f] s = .next { s with err := errOk } ∧
    execAll [.imixc f, .mixc f] s = .next { s with err := errOk } ∧
    execAll [.shr, .shr, .shr, .shr] s = .next { s with err := errOk }

/-- ENCB and DECB undo each other, ROUND and IROUND with one index and flag undo each other, and ARK is its own inverse, for
every STATE and every round key file (41_block_transforms.md R127, R129, R130). -/
def Obligations.DecryptionUndoesEncryption : Prop :=
  ∀ (s : State) (j : Byte) (f : Bool), s.stateReady = true → s.rkValid = true → j.toNat ≤ 10 →
    execAll [.encb, .decb] s = .next { s with err := errOk } ∧ execAll [.decb, .encb] s = .next { s with err := errOk } ∧
    execAll [.round j f, .iround j f] s = .next { s with err := errOk } ∧
    execAll [.iround j f, .round j f] s = .next { s with err := errOk } ∧
    execAll [.ark j, .ark j] s = .next { s with err := errOk }

/-- ARK, ROUND, IROUND, ENCB and DECB complete on a written STATE with RK_VALID = 1, and write STATE and ERR only; ARK gives the
XOR of STATE with round key j, byte for byte (41_block_transforms.md R127, R138 to R142). -/
def Obligations.RoundKeyCommandsComplete : Prop :=
  ∀ (s : State) (j : Fin 11) (f : Bool), s.stateReady = true → s.rkValid = true →
    (∃ b : Block, exec (.ark (BitVec.ofNat 8 j.val)) s = .next { s with state := b, err := errOk } ∧
      ∀ k : Fin 16, b[k.val] = s.state[k.val] ^^^ s.rk[j.val][k.val]) ∧
    (∃ b : Block, exec (.round (BitVec.ofNat 8 j.val) f) s = .next { s with state := b, err := errOk }) ∧
    (∃ b : Block, exec (.iround (BitVec.ofNat 8 j.val) f) s = .next { s with state := b, err := errOk }) ∧
    (∃ b : Block, exec .encb s = .next { s with state := b, err := errOk }) ∧
    ∃ b : Block, exec .decb s = .next { s with state := b, err := errOk }

/-- R144: ENCB and DECB equal their sequences of rounds, whatever RK_VALID is, a round equals its sequence of transforms, and with
RK_VALID = 0 the single round leaves STATE unchanged where its sequence changes it before ARK fails. -/
def Obligations.BlockCommandsEqualTheirSequences : Prop :=
  ∀ s : State, s.stateReady = true →
    exec .encb s = execAll [.ark 0, .round 1 false, .round 2 false, .round 3 false, .round 4 false, .round 5 false,
      .round 6 false, .round 7 false, .round 8 false, .round 9 false, .round 10 true] s ∧
    exec .decb s = execAll [.iround 10 true, .iround 9 false, .iround 8 false, .iround 7 false, .iround 6 false,
      .iround 5 false, .iround 4 false, .iround 3 false, .iround 2 false, .iround 1 false, .ark 0] s ∧
    (s.rkValid = true → ∀ j : Byte, j.toNat ≤ 10 →
        exec (.round j false) s = execAll [.subb, .shr, .mixc false, .ark j] s ∧
        exec (.round j true) s = execAll [.subb, .shr, .ark j] s) ∧
    (s.rkValid = false → exec .encb s = .next { s with err := errKeyNotExpanded } ∧
      exec .decb s = .next { s with err := errKeyNotExpanded } ∧ ∀ j : Byte, j.toNat ≤ 10 →
      exec (.round j false) s = .next { s with err := errKeyNotExpanded } ∧
      exec (.round j true) s = .next { s with err := errKeyNotExpanded } ∧
      execAll [.subb, .shr, .mixc false, .ark j] s =
        onNext (fun t => { t with err := errKeyNotExpanded }) (execAll [.subb, .shr, .mixc false] s) ∧
      execAll [.subb, .shr, .ark j] s = onNext (fun t => { t with err := errKeyNotExpanded }) (execAll [.subb, .shr] s))

/-- R131: with RK_VALID = 0 the commands that read RK end with error 8 and STATE unchanged, written or not; the others read neither
RK nor RK_VALID. -/
def Obligations.KeyGuard : Prop :=
  (∀ (i : Instr) (s : State), guarded i = true → s.rkValid = false → exec i s = .next { s with err := errKeyNotExpanded }) ∧
  ∀ (i : Instr) (s : State) (v : Bool) (rk : RoundKeys), i ∈ unguarded →
    exec i { s with rkValid := v, rk := rk } = onNext (fun t => { t with rkValid := v, rk := rk }) (exec i s)

/-- R143: SUBB, ISUBB and ARK act on 16 independent byte lanes, SHR and ISHR permute lanes whatever they hold, MIXC and IMIXC act on
four independent column groups, and each writes its result to STATE in place. -/
def Obligations.TransformsActOnLanes : Prop :=
  (∀ (s : State) (b : Block) (rk : RoundKeys) (j : Byte) (k : Fin 16) (i : Instr) (t u : State), i ∈ [.subb, .isubb, .ark j] →
    b[k.val] = s.state[k.val] → (∀ n : Fin 11, rk[n.val][k.val] = s.rk[n.val][k.val]) → exec i s = .next t →
    exec i { s with state := b, rk := rk } = .next u → u.state[k.val] = t.state[k.val]) ∧
  (∀ i : Instr, i = .shr ∨ i = .ishr → ∃ p : Equiv.Perm (Fin 16), ∀ s t : State, exec i s = .next t →
    ∀ k : Fin 16, t.state[k.val] = s.state[(p k).val]) ∧
  ∀ (s : State) (b : Block) (c : Fin 4) (f : Bool) (i : Instr) (t u : State), i = .mixc f ∨ i = .imixc f →
    (∀ r : Fin 4, b[4 * c.val + r.val] = s.state[4 * c.val + r.val]) → exec i s = .next t →
    exec i { s with state := b } = .next u → ∀ r : Fin 4, u.state[4 * c.val + r.val] = t.state[4 * c.val + r.val]

/-- The frame of the block commands, with every operand: STATE and ERR are all they may change, STATE only if ERR is 0, and every
byte of DMEM reads as before. -/
def Obligations.BlockCommandFrame : Prop :=
  ∀ (i : Instr) (s t : State), blockCommand i = true → exec i s = .next t →
    t = { s with state := t.state, err := t.err } ∧ (t.err ≠ errOk → t.state = s.state) ∧
      ∀ a, t.dmem.read a = s.dmem.read a

/-- A block command whose result depends on an unwritten byte of STATE stops with the model fault for it (10_state.md R41), and
only then: which results depend on one is the model's reading (log 6). -/
def Obligations.UnwrittenStateStopsBlockCommands : Prop :=
  (∀ (i : Instr) (s : State), i ∈ [.subb, .isubb, .shr, .ishr, .mixc false, .imixc false] → s.stateReady = false →
    exec i s = .fault .unwrittenState) ∧
  (∀ (i : Instr) (s : State), guarded i = true → s.rkValid = true → s.stateReady = false →
    exec i s = .fault .unwrittenState) ∧
  ∀ (i : Instr) (s : State) (r : Fault), blockCommand i = true → exec i s = .fault r →
    r = .unwrittenState ∧ s.stateReady = false

/-! ## Key schedule -/

/-- KEXP on a written 16-byte key completes with RK_VALID = 1 and a round key file whose 44 words are the key's four words
and then W[i] = W[i-4] xor t, t being W[i-1], for i mod 4 = 0 rotated left by one byte, substituted, and XORed with RCON[i div 4] in
its first byte; it changes nothing else (42_key_schedule.md R162). RCON[1] is 1 and RCON[i] = gmul(RCON[i-1], 2) up to i = 10
(40_gf_sbox.md R104): this clause is PRESUMED (log 11), for the spec marks these values "from general knowledge, not in source", so
the statement as a whole is derived from R162 and R104. -/
def Obligations.KexpExpandsTheKey : Prop :=
  (rcon 1 = 1 ∧ ∀ i, 2 ≤ i → i ≤ 10 → rcon i = gmul (rcon (i - 1)) 2) ∧
  ∀ s : State, s.keyLen = 16 → s.keyReady = true →
    ∃ rk : RoundKeys,
      exec .kexp s = .next { s with rk := rk, rkWritten := true, rkValid := true, err := errOk } ∧
      (∀ k : Fin 16, rk[0][k.val] = s.key[k.val]) ∧
      ∀ i b : Nat, 4 ≤ i → i < 44 → b < 4 →
        rkByte rk i b = rkByte rk (i - 4) b ^^^
          (if i % 4 = 0 then sbox (rkByte rk (i - 1) ((b + 1) % 4)) ^^^ (if b = 0 then rcon (i / 4) else 0)
           else rkByte rk (i - 1) b)

/-- KEY[16..31] do not matter to a 16-byte key: KEXP, ENC and DEC do the same whatever these bytes and their written marks are
(10_state.md R31, 42_key_schedule.md R164). -/
def Obligations.KeyTailIsIgnored : Prop :=
  ∀ (i : Instr) (s : State) (key : Vector Byte 32) (marks : Vector Bool 32), keyed i = true →
    (∀ k : Fin 16, key[k.val] = s.key[k.val] ∧ marks[k.val] = s.keyWritten[k.val]) →
    exec i { s with key := key, keyWritten := marks } =
      onNext (fun t => { t with key := key, keyWritten := marks }) (exec i s)

/-- The changes of RK_VALID (10_state.md R36): a host write to KEY_LEN or to any byte of KEY writes 0, also in a faulted state;
reset writes 0; a key step that succeeds writes 1; no other step changes it. -/
def Obligations.RkValidChangesOnlyAsListed : Prop :=
  (∀ (s : State) (e : HostEvent) (rest : List HostEvent), s.pending = e :: rest → keyWrite s e →
    ∃ t, step s = .next t ∧ t.rkValid = false) ∧
  (∀ s : State, s.platformReset.rkValid = false) ∧
  (∀ (i : Instr) (s t : State), keyed i = true → s.keyLen = 16 → exec i s = .next t → t.rkValid = true) ∧
  (∀ (i : Instr) (s t : State), exec i s = .next t → t.rkValid ≠ s.rkValid → keyed i = true ∧ s.keyLen = 16) ∧
  ∀ s t : State, step s = .next t → t.rkValid ≠ s.rkValid →
    ∃ e rest, s.pending = e :: rest ∧
      (keyWrite s e ∨ e = .reset ∨ (s.fault = false ∧ ∃ w i, e = .write32 s.config.engineBase w ∧ decode w = .ok i ∧ keyed i = true))

/-! ## Frames of the register commands -/

/-- The frame of the commands that touch no buffer and not STATE: GFMUL, SBOX and ISBOX write RESULT and ERR; KEXP writes RK,
RK_VALID, ERR and, on the fault, FAULT; every byte of DMEM reads as before. -/
def Obligations.RegisterCommandFrame : Prop :=
  (∀ (a b : Byte) (i : Instr) (s t : State), i ∈ [.gfmul a b, .sbox a, .isbox a] → exec i s = .next t →
    t = { s with result := t.result, err := t.err } ∧ ∀ x, t.dmem.read x = s.dmem.read x) ∧
  ∀ s t : State, exec .kexp s = .next t →
    t = { s with rk := t.rk, rkWritten := t.rkWritten, rkValid := t.rkValid, err := t.err, fault := t.fault } ∧
      (t.err ≠ errOk → t.rk = s.rk ∧ t.rkValid = s.rkValid) ∧ ∀ x, t.dmem.read x = s.dmem.read x

/-! ## Padding -/

/-- PAD n, n ≠ 0, on a written input whose padded form fits at DST completes and writes the input followed, if it is not aligned, by
k bytes of value k up to the next multiple of n (43_padding.md R180, R185). -/
def Obligations.PadWritesPaddedInput : Prop :=
  ∀ (n : Byte) (s : State) (b : List Byte), s.config.ok = true → n ≠ 0 → inputIs s b →
    s.inRange s.dst.toNat (padLength b.length n.toNat) = true →
    ∃ t out, exec (.pad n) s = .next t ∧ wroteOutput s t out ∧
      (b.length % n.toNat = 0 → out = b) ∧
      (b.length % n.toNat ≠ 0 → ∃ k : Nat, 1 ≤ k ∧ k < n.toNat ∧ (b.length + k) % n.toNat = 0 ∧
        out = b ++ List.replicate k (BitVec.ofNat 8 k))

/-- UNPAD n on a written input that ends in v bytes of value v, 1 ≤ v ≤ n, completes and writes the input without them, if that fits
at DST (43_padding.md R182, R186). -/
def Obligations.UnpadRemovesPadding : Prop :=
  ∀ (n : Byte) (s : State) (p : List Byte) (v : Nat), s.config.ok = true → 1 ≤ v → v ≤ n.toNat →
    inputIs s (p ++ List.replicate v (BitVec.ofNat 8 v)) → s.inRange s.dst.toNat p.length = true →
    ∃ t, exec (.unpad n) s = .next t ∧ wroteOutput s t p

/-- VALID n on a written input completes and writes only ERR: 0 if the input ends in v bytes of value v for some v in 1..n, and 3 if
not (43_padding.md R181, R187). -/
def Obligations.ValidDecidesPadding : Prop :=
  ∀ (n : Byte) (s : State) (b : List Byte), inputIs s b →
    (endsInPadding b n.toNat → exec (.valid n) s = .next { s with err := errOk }) ∧
    (¬ endsInPadding b n.toNat → exec (.valid n) s = .next { s with err := errPadding })

/-- R184: a padding failure reports PADDING_ERROR whatever check failed, and nothing shows which: on any two written inputs that
fail, VALID and UNPAD leave the same state but for DMEM, which they do not change. -/
def Obligations.PaddingFailureLeaksNothing : Prop :=
  ∀ (n : Byte) (s : State) (m : Memory) (b c : List Byte), inputIs s b → inputIs { s with dmem := m } c →
    ¬ endsInPadding b n.toNat → ¬ endsInPadding c n.toNat →
    ∃ t u, exec (.valid n) s = .next t ∧ exec (.valid n) { s with dmem := m } = .next { t with dmem := m } ∧
      exec (.unpad n) s = .next u ∧ exec (.unpad n) { s with dmem := m } = .next { u with dmem := m } ∧
      t.err = errPadding ∧ u.err = errPadding ∧ t.dmem = s.dmem ∧ u.dmem = s.dmem

/-- R183: on an unaligned buffer Pad gives the next multiple of n above its length, which validates, and Unpad takes back exactly the
padding; an aligned buffer is unchanged, and there are aligned buffers that validate and ones that do not; Validate fails on an empty
buffer, on a last byte of 0 or above n, and where the last v bytes are not all v. -/
def Obligations.PadThenUnpadIsIdentity : Prop :=
  (∀ (b : List Byte) (n : Nat), 1 ≤ n → n ≤ 255 → b.length % n ≠ 0 →
    (pad b n).length % n = 0 ∧ b.length < (pad b n).length ∧ (pad b n).length < b.length + n ∧
      validate (pad b n) n = true ∧ unpad (pad b n) n = some b) ∧
  (∀ (b : List Byte) (n : Nat), 1 ≤ n → n ≤ 255 → b.length % n = 0 → pad b n = b) ∧
  (∀ n : Nat, 1 ≤ n → n ≤ 255 →
    (∃ b : List Byte, b ≠ [] ∧ b.length % n = 0 ∧ validate b n = true) ∧
    ∃ b : List Byte, b ≠ [] ∧ b.length % n = 0 ∧ validate b n = false) ∧
  (∀ n : Nat, validate [] n = false) ∧
  (∀ (b : List Byte) (v : Byte) (n : Nat), v = 0 ∨ n < v.toNat ∨ (b ++ [v]).length < v.toNat → validate (b ++ [v]) n = false) ∧
  ∀ (b : List Byte) (v : Byte) (n k : Nat), k < v.toNat → v.toNat ≤ (b ++ [v]).length →
    (b ++ [v])[(b ++ [v]).length - 1 - k]? ≠ some v → validate (b ++ [v]) n = false

/-- PAD n and then UNPAD n with the source on PAD's output gives back an input that was not aligned, through the machine. -/
def Obligations.UnpadCommandUndoesPadCommand : Prop :=
  ∀ (n : Byte) (s : State) (b : List Byte) (d : Word), s.config.ok = true → n ≠ 0 → inputIs s b → b.length % n.toNat ≠ 0 →
    s.inRange s.dst.toNat (padLength b.length n.toNat) = true → s.inRange d.toNat b.length = true →
    ∃ t u, exec (.pad n) s = .next t ∧ exec (.unpad n) (chain t d) = .next u ∧
      wroteOutput (chain t d) u b

/-- The frame of PAD, UNPAD and VALID, with every operand: they may change DMEM, OUT_LEN and ERR, VALID only ERR; on an error DMEM is
unchanged; on success PAD changes at most the padded length from DST on, UNPAD at most the length without the last byte's count. -/
def Obligations.PaddingCommandFrame : Prop :=
  (∀ (n : Byte) (s t : State), exec (.pad n) s = .next t →
    t = { s with dmem := t.dmem, outLen := t.outLen, err := t.err } ∧ (t.err ≠ errOk → t.dmem = s.dmem) ∧
      sameOutside s t s.dst.toNat (padLength s.len.toNat n.toNat)) ∧
  (∀ (n : Byte) (s t : State), exec (.unpad n) s = .next t →
    t = { s with dmem := t.dmem, outLen := t.outLen, err := t.err } ∧ (t.err ≠ errOk → t.dmem = s.dmem) ∧
      sameOutside s t s.dst.toNat
        (s.len.toNat - ((s.dmem.read (s.src.toNat + s.len.toNat - 1)).getD 0).toNat)) ∧
  ∀ (n : Byte) (s t : State), exec (.valid n) s = .next t →
    t = { s with err := t.err } ∧ ∀ a, t.dmem.read a = s.dmem.read a

/-! ## Modes -/

/-- ENC.ECB and DEC.ECB complete: every block of the padded input goes through the cipher, or its inverse, on its own
(44_modes.md R201, R206, R213, R214). -/
def Obligations.EcbCommandsWorkBlockwise : Prop :=
  ∀ (s : State) (b : List Byte), codecReady .ecb s → inputIs s b →
    (∃ t out, exec (.enc .ecb) s = .next t ∧ wroteOutput (keyedState s) t out ∧ out.length = padLength b.length 16 ∧
      ∀ i k, i < out.length / 16 → (hk : k < 16) →
        byteOfBlock out i k = some (cipher (blockAt (pad b 16) i) (keyExpansion s.key128))[k]) ∧
    ∃ t out, exec (.dec .ecb) s = .next t ∧ wroteOutput (keyedState s) t out ∧ out.length = padLength b.length 16 ∧
      ∀ i k, i < out.length / 16 → (hk : k < 16) →
        byteOfBlock out i k = some (invCipher (blockAt (pad b 16) i) (keyExpansion s.key128))[k]

/-- ENC.CBC and DEC.CBC complete: block i is chained with ciphertext block i−1, block 0 with IV; in DEC the ciphertext is the input
snapshot (44_modes.md R202, R203, R206, R213, R214). -/
def Obligations.CbcCommandsChainCiphertext : Prop :=
  ∀ (s : State) (b : List Byte), codecReady .cbc s → inputIs s b →
    (∃ t out, exec (.enc .cbc) s = .next t ∧ wroteOutput (keyedState s) t out ∧ out.length = padLength b.length 16 ∧
      ∀ i k, i < out.length / 16 → (hk : k < 16) →
        byteOfBlock out i k =
          some (cipher (xorBlock (blockAt (pad b 16) i) (if i = 0 then s.iv else blockAt out (i - 1)))
            (keyExpansion s.key128))[k]) ∧
    ∃ t out, exec (.dec .cbc) s = .next t ∧ wroteOutput (keyedState s) t out ∧ out.length = padLength b.length 16 ∧
      ∀ i k, i < out.length / 16 → (hk : k < 16) →
        byteOfBlock out i k =
          some ((invCipher (blockAt (pad b 16) i) (keyExpansion s.key128))[k] ^^^
            (if i = 0 then s.iv else blockAt (pad b 16) (i - 1))[k])

/-- ENC.CTR and DEC.CTR complete and are the same: byte j is XORed with byte j mod 16 of the cipher of the nonce and the counter
j div 16, both little-endian, and the length is unchanged (44_modes.md R204, R213, R214). -/
def Obligations.CtrCommandsXorKeystream : Prop :=
  ∀ (s : State) (b : List Byte) (i : Instr), i = .enc .ctr ∨ i = .dec .ctr → codecReady .ctr s → inputIs s b →
    ∃ t out, exec i s = .next t ∧ wroteOutput (keyedState s) t out ∧ out.length = b.length ∧
      ∀ j, (hj : j < b.length) → ∃ ks : Block, ∃ input : Block,
        (∀ k, (hk : k < 8) → input[k] = (s.nonceHi ++ s.nonceLo).extractLsb' (8 * k) 8 ∧
          input[8 + k] = (BitVec.ofNat 64 (j / 16)).extractLsb' (8 * k) 8) ∧
        ks = cipher input (keyExpansion s.key128) ∧ out[j]? = some (b[j] ^^^ ks[j % 16]'(Nat.mod_lt j (Nat.succ_pos 15)))

/-- R215: DEC of the output of ENC gives the padded plaintext in ECB and CBC, the plaintext itself if its length is a multiple of 16,
and UNPAD 16 of it gives the plaintext if not; in CTR it gives the plaintext for every length. -/
def Obligations.DecodeUndoesEncode : Prop :=
  ∀ (s : State) (p : List Byte) (m : Mode) (d e : Word), m ≠ .gcm → codecReady m s → inputIs s p →
    s.inRange d.toNat (codecLength m p.length) = true → s.inRange e.toNat p.length = true →
    ∃ t u, exec (.enc m) s = .next t ∧ exec (.dec m) (chain t d) = .next u ∧
      wroteOutput (chain t d) u (if m = .ctr then p else pad p 16) ∧
      (p.length % 16 = 0 → wroteOutput (chain t d) u p) ∧
      (m ≠ .ctr → p.length % 16 ≠ 0 → ∃ v, exec (.unpad 16) (chain u e) = .next v ∧ wroteOutput (chain u e) v p)

/-- R216: two aligned CBC ciphertexts that differ in one bit of block i decode to the same bytes except in block i, which differs, and
in block i+1, which differs in exactly that bit. -/
def Obligations.CbcBitFlip : Prop :=
  ∀ (s : State) (ct : List Byte) (i k q : Nat) (x : Byte), codecReady .cbc s → inputIs s ct → ct.length % 16 = 0 →
    16 * i < ct.length → k < 16 → q < 8 → ct[16 * i + k]? = some x →
    ∃ t u, exec (.dec .cbc) s = .next t ∧
      exec (.dec .cbc) { s with dmem := s.dmem.write (s.src.toNat + (16 * i + k)) (x ^^^ (1#8 <<< q)) } = .next u ∧
      t.err = errOk ∧ u.err = errOk ∧
      (∃ y, y < 16 ∧ u.dmem.read (s.dst.toNat + (16 * i + y)) ≠ t.dmem.read (s.dst.toNat + (16 * i + y))) ∧
      ∀ j y, 16 * j < ct.length → y < 16 → j ≠ i →
        u.dmem.read (s.dst.toNat + (16 * j + y)) =
          (t.dmem.read (s.dst.toNat + (16 * j + y))).map fun z => if j = i + 1 ∧ y = k then z ^^^ (1#8 <<< q) else z

/-- R212: the output of a buffer command is a function of its input snapshot and of the registers alone: with any other destination,
overlapping the source or not, and any other bytes outside the input, a command that succeeds writes the same bytes. -/
def Obligations.OutputDependsOnInputSnapshotOnly : Prop :=
  ∀ (i : Instr) (s t u : State) (dst : Word) (m : Memory), bufferWriter i = true →
    m.cells s.src.toNat s.len.toNat = s.dmem.cells s.src.toNat s.len.toNat →
    exec i s = .next t → exec i { s with dst := dst, dmem := m } = .next u → t.err = errOk → u.err = errOk →
    u.outLen = t.outLen ∧ ∃ out, t.dmem = s.dmem.writeBytes s.dst.toNat out ∧ u.dmem = m.writeBytes dst.toNat out

/-- The frame of ENC and DEC, with every mode: they may change RK, RK_VALID, DMEM, OUT_LEN, ERR and FAULT; RK and RK_VALID only with
a 16-byte key; unless ERR is 0 DMEM is unchanged; and every byte outside the output at DST reads as before. -/
def Obligations.CodecFrame : Prop :=
  ∀ (i : Instr) (m : Mode) (s t : State), i = .enc m ∨ i = .dec m → exec i s = .next t →
    t = { s with rk := t.rk, rkWritten := t.rkWritten, rkValid := t.rkValid, dmem := t.dmem, outLen := t.outLen, err := t.err,
                 fault := t.fault } ∧
      (s.keyLen ≠ 16 → t.rk = s.rk ∧ t.rkValid = s.rkValid) ∧ (t.err ≠ errOk → t.dmem = s.dmem) ∧
      sameOutside s t s.dst.toNat (codecLength m s.len.toNat)

/-- A command other than the block commands stops with a model fault only where a byte that its result depends on is unwritten, and it
does stop there (10_state.md R41; what depends on what is the model's reading, log 6). After a first clause on all of them, each stop is
an iff. KEXP, ENC and DEC stop on KEY[0..15]; CBC on IV where there is a block; ENC, DEC and PAD on any byte of the input, once every
bounds check has passed; VALID exactly where its input may hold a sequence that ends in padding and one that does not; UNPAD exactly
there, and where the padding is written, its output fits, and a byte of that output is unwritten. -/
def Obligations.BufferCommandsStopOnlyOnUnwrittenBytes : Prop :=
  (∀ (i : Instr) (s : State) (r : Fault), exec i s = .fault r → blockCommand i = false →
    (r = .unwrittenKey ∧ keyed i = true ∧ s.keyLen = 16 ∧ s.keyReady = false) ∨
    (r = .unwrittenIv ∧ (i = .enc .cbc ∨ i = .dec .cbc) ∧ s.ivReady = false ∧ s.len ≠ 0) ∨
    (r = .unwrittenDmem ∧ s.dmem.readBytes s.src.toNat s.len.toNat = none ∧ s.inRange s.src.toNat s.len.toNat = true)) ∧
  (∀ (i : Instr) (s : State), exec i s = .fault .unwrittenKey ↔ keyed i = true ∧ s.keyLen = 16 ∧ s.keyReady = false) ∧
  (∀ (i : Instr) (s : State), exec i s = .fault .unwrittenIv ↔
    (i = .enc .cbc ∨ i = .dec .cbc) ∧ s.keyLen = 16 ∧ s.keyReady = true ∧ s.ivReady = false ∧
      s.inRange s.dst.toNat (codecLength .cbc s.len.toNat) = true ∧ ∃ b, inputIs s b ∧ b ≠ []) ∧
  (∀ (i : Instr) (m : Mode) (s : State), i = .enc m ∨ i = .dec m →
    (exec i s = .fault .unwrittenDmem ↔
      m ≠ .gcm ∧ s.keyLen = 16 ∧ s.keyReady = true ∧ inputUnwritten s (codecLength m s.len.toNat))) ∧
  (∀ (n : Byte) (s : State),
    exec (.pad n) s = .fault .unwrittenDmem ↔ n ≠ 0 ∧ inputUnwritten s (padLength s.len.toNat n.toNat)) ∧
  (∀ (n : Byte) (s : State),
    exec (.valid n) s = .fault .unwrittenDmem ↔ s.inRange s.src.toNat s.len.toNat = true ∧ paddingUndecided s n.toNat) ∧
  ∀ (n : Byte) (s : State),
    exec (.unpad n) s = .fault .unwrittenDmem ↔ s.inRange s.src.toNat s.len.toNat = true ∧
      (paddingUndecided s n.toNat ∨
        ∃ v : Nat, 1 ≤ v ∧ v ≤ n.toNat ∧ v ≤ s.len.toNat ∧
          (∀ k, k < v → s.dmem.read (s.src.toNat + s.len.toNat - 1 - k) = some (BitVec.ofNat 8 v)) ∧
          s.inRange s.dst.toNat (s.len.toNat - v) = true ∧
          ∃ k, k < s.len.toNat - v ∧ s.dmem.read (s.src.toNat + k) = none)

/-! ## Registers -/

/-- STATUS as the host reads it: ERR in bits 3..0, FAULT in bit 8, RK_VALID in bit 9 and 0 in every other bit; host writes to it are
ignored, and it is 0 after reset (10_state.md R25). -/
def Obligations.StatusWordLayout : Prop :=
  (∀ s : State, ∃ w : Word, hostEvent (.read32 (s.config.engineBase + 0x004)) s = .next { s with readData := some (.word w) } ∧
    w.extractLsb' 0 4 = s.err ∧ w.getLsbD 8 = s.fault ∧ w.getLsbD 9 = s.rkValid ∧
    ∀ i, (4 ≤ i ∧ i ≤ 7) ∨ (10 ≤ i ∧ i ≤ 31) → w.getLsbD i = false) ∧
  (∀ (s : State) (v : Word), hostEvent (.write32 (s.config.engineBase + 0x004) v) s = .next s) ∧
  ∀ s : State, statusWord State.reset = 0 ∧ statusWord s.platformReset = 0

/-- R42: no command writes SRC, DST, LEN, KEY_LEN, the nonce, KEY or IV; only host writes and reset change them. -/
def Obligations.EngineNeverWritesHostRegisters : Prop :=
  (∀ (i : Instr) (s t : State), exec i s = .next t → sameHostRegisters s t) ∧
  ∀ s t : State, step s = .next t → ¬ sameHostRegisters s t →
    ∃ e rest, s.pending = e :: rest ∧
      (e = .reset ∨ (∃ a v, e = .write8 a v) ∨ ∃ a v, a ≠ s.config.engineBase ∧ e = .write32 a v)

/-- R26: RESULT[31:8] is 0 and stays so in every step; GFMUL, SBOX and ISBOX put their byte in RESULT[7:0]; no other command writes
RESULT; a host write to it is ignored; it is 0 after reset. -/
def Obligations.ResultRegisterRule : Prop :=
  (∀ s t : State, ResultIsByte s → step s = .next t → ResultIsByte t) ∧
  (∀ (a b : Byte) (s t : State), (exec (.gfmul a b) s = .next t → t.result = (gmul a b).setWidth 32) ∧
    (exec (.sbox a) s = .next t → t.result = (sbox a).setWidth 32) ∧
    (exec (.isbox a) s = .next t → t.result = (invSbox a).setWidth 32)) ∧
  (∀ (i : Instr) (s t : State), (∀ a b, i ≠ .gfmul a b) → (∀ a, i ≠ .sbox a) → (∀ a, i ≠ .isbox a) → exec i s = .next t →
    t.result = s.result) ∧
  (∀ (s : State) (v : Word), hostEvent (.write32 (s.config.engineBase + 0x008) v) s = .next s) ∧
  State.reset.result = 0 ∧ ∀ s : State, s.platformReset.result = 0

/-- R27: OUT_LEN after ENC, DEC, PAD and UNPAD is the number of bytes written at DST on success, 0 after an error, and unchanged after
the fault; no other command writes it, nor a command that is illegal or ignored; host writes are ignored; it is 0 after reset; and no
step takes it beyond DMEM_SIZE. -/
def Obligations.OutLenRule : Prop :=
  (∀ (i : Instr) (s t : State), s.config.ok = true → s.fault = false → bufferWriter i = true → exec i s = .next t →
    (t.err = errOk → ∃ out : List Byte, t.dmem = s.dmem.writeBytes s.dst.toNat out ∧ t.outLen.toNat = out.length) ∧
    (1 ≤ t.err.toNat → t.err.toNat ≤ 8 → t.outLen = 0) ∧ (t.err = errUnimplemented → t.outLen = s.outLen)) ∧
  (∀ (i : Instr) (s t : State), bufferWriter i = false → exec i s = .next t → t.outLen = s.outLen) ∧
  (∀ (s t : State) (w : Word), (s.fault = true ∨ legal w = false) → issue w s = .next t → t.outLen = s.outLen) ∧
  (∀ (s : State) (v : Word), hostEvent (.write32 (s.config.engineBase + 0x00C) v) s = .next s ∧
    hostEvent (.read32 (s.config.engineBase + 0x00C)) s = .next { s with readData := some (.word s.outLen) }) ∧
  State.reset.outLen = 0 ∧ (∀ s : State, s.platformReset.outLen = 0) ∧
  ∀ s t : State, OutLenFits s → step s = .next t → OutLenFits t

/-! ## Host accesses and reset -/

/-- R40: in the state after reset, and in what a reset event leaves of every state: CMD reads 0, every 32-bit register reads 0, and no
byte of KEY, IV, STATE, RK or DMEM is written. -/
def Obligations.ResetLeavesResetValues : Prop :=
  (∀ s : State, ∃ t, hostEvent .reset s = .next t) ∧
  ∀ t : State, (t = State.reset ∨ ∃ s, hostEvent .reset s = .next t) →
    t.err = 0 ∧ t.fault = false ∧ t.rkValid = false ∧
    (∀ o, o < 0x28 → o % 4 = 0 →
      hostEvent (.read32 (t.config.engineBase + o)) t = .next { t with readData := some (.word 0) }) ∧
    ∀ (a : ArrayName) (i : Nat), t.arrayByte a i = none

/-- R53 and R54: multi-byte host accesses are little-endian and see one byte store: a Read32 of written bytes of any byte range, RK
too, is their sum with the first byte lowest; a word written to KEY, IV, STATE or DMEM reads back, its bytes are its lanes from the
lowest up, and a word reads what its four bytes last received, also one by one. Writing 0x74616854 at 0x040 sets KEY[0..3] to
"That". -/
def Obligations.WordAccessesAreLittleEndian : Prop :=
  (∀ (s : State) (o : Nat) (b : Fin 4 → Byte), o % 4 = 0 → readableBytes s o 4 →
    (∀ k : Fin 4, hostEvent (.read8 (s.config.engineBase + (o + k.val))) s = .next { s with readData := some (.byte (b k)) }) →
    hostEvent (.read32 (s.config.engineBase + o)) s =
      .next { s with readData := some (.word ((b 0).setWidth 32 ||| (b 1).setWidth 32 <<< 8 ||| (b 2).setWidth 32 <<< 16 |||
        (b 3).setWidth 32 <<< 24)) }) ∧
  (∀ (s : State) (o k : Nat) (v : Word), o % 4 = 0 → writableBytes s o 4 → k < 4 →
    (∃ t, Sys2Proof.core.run 2 (withEvents s [.write32 (s.config.engineBase + o) v, .read32 (s.config.engineBase + o)]) = .next t ∧
      t.readData = some (.word v)) ∧
    ∃ t, Sys2Proof.core.run 2 (withEvents s [.write32 (s.config.engineBase + o) v, .read8 (s.config.engineBase + (o + k))]) =
      .next t ∧ t.readData = some (.byte (v.extractLsb' (8 * k) 8))) ∧
  (∀ (s : State) (o : Nat) (b0 b1 b2 b3 : Byte), o % 4 = 0 → writableBytes s o 4 →
    ∃ t, Sys2Proof.core.run 5 (withEvents s [.write8 (s.config.engineBase + o) b0, .write8 (s.config.engineBase + (o + 1)) b1,
      .write8 (s.config.engineBase + (o + 2)) b2, .write8 (s.config.engineBase + (o + 3)) b3,
      .read32 (s.config.engineBase + o)]) = .next t ∧
      t.readData = some (.word (b0.setWidth 32 ||| b1.setWidth 32 <<< 8 ||| b2.setWidth 32 <<< 16 ||| b3.setWidth 32 <<< 24))) ∧
  ∀ s : State, ∃ t, hostEvent (.write32 (s.config.engineBase + 0x040) 0x74616854) s = .next t ∧
    t.key[0] = 0x54 ∧ t.key[1] = 0x68 ∧ t.key[2] = 0x61 ∧ t.key[3] = 0x74

/-- R51 and R52: exactly the admitted accesses are not refused: 8-bit ones on KEY, IV, STATE, RK and DMEM; 32-bit ones at a multiple
of 4 whose four bytes lie in one named range. -/
def Obligations.ExactlyAdmittedAccessesAreServed : Prop :=
  ∀ (s : State) (addr : Nat) (b : Byte) (w : Word),
    (isRefused (.read8 addr) s ↔ ¬ ∃ o, addr = s.config.engineBase + o ∧
      ((0x40 ≤ o ∧ o < 0x130) ∨ (0x1000 ≤ o ∧ o < 0x1000 + s.config.dmemSize))) ∧
    (isRefused (.write8 addr b) s ↔ isRefused (.read8 addr) s) ∧
    (isRefused (.read32 addr) s ↔ ¬ ∃ o, addr = s.config.engineBase + o ∧ o % 4 = 0 ∧
      (o < 0x28 ∨ (0x40 ≤ o ∧ o < 0x130) ∨ (0x1000 ≤ o ∧ o + 4 ≤ 0x1000 + s.config.dmemSize))) ∧
    (isRefused (.write32 addr w) s ↔ isRefused (.read32 addr) s)

/-- R55: host reads have no side effects and are idempotent, unless a byte read is unwritten (the model then draws a free value); a
read of a register returns all its 32 bits, and a Read8 of a written byte returns it (10_state.md R26 to R35); host writes have exactly
the listed effects, and a Write32 to a byte range is four Write8. -/
def Obligations.HostAccessSideEffects : Prop :=
  (∀ (s t : State) (addr : Nat) (e : HostEvent), e = .read8 addr ∨ e = .read32 addr → hostEvent e s = .next t →
    t = { s with readData := t.readData, draws := t.draws } ∧ (t.draws = s.draws → hostEvent e t = .next t)) ∧
  (∀ s : State,
    hostEvent (.read32 (s.config.engineBase + 0x004)) s = .next { s with readData := some (.word (statusWord s)) } ∧
    hostEvent (.read32 (s.config.engineBase + 0x008)) s = .next { s with readData := some (.word s.result) } ∧
    hostEvent (.read32 (s.config.engineBase + 0x00C)) s = .next { s with readData := some (.word s.outLen) } ∧
    hostEvent (.read32 (s.config.engineBase + 0x010)) s = .next { s with readData := some (.word s.src) } ∧
    hostEvent (.read32 (s.config.engineBase + 0x014)) s = .next { s with readData := some (.word s.dst) } ∧
    hostEvent (.read32 (s.config.engineBase + 0x018)) s = .next { s with readData := some (.word s.len) } ∧
    hostEvent (.read32 (s.config.engineBase + 0x01C)) s = .next { s with readData := some (.word s.keyLen) } ∧
    hostEvent (.read32 (s.config.engineBase + 0x020)) s = .next { s with readData := some (.word s.nonceLo) } ∧
    hostEvent (.read32 (s.config.engineBase + 0x024)) s = .next { s with readData := some (.word s.nonceHi) }) ∧
  (∀ (s : State) (o : Nat) (b : Byte), readableBytes s o 1 → hostByte s o = some b →
    hostEvent (.read8 (s.config.engineBase + o)) s = .next { s with readData := some (.byte b) }) ∧
  (∀ (s : State) (w : Word),
    hostEvent (.write32 s.config.engineBase w) s = issue w s ∧
    hostEvent (.read32 s.config.engineBase) s = .next { s with readData := some (.word 0) } ∧
    hostEvent (.write32 (s.config.engineBase + 0x004) w) s = .next s ∧
    hostEvent (.write32 (s.config.engineBase + 0x008) w) s = .next s ∧
    hostEvent (.write32 (s.config.engineBase + 0x00C) w) s = .next s ∧
    hostEvent (.write32 (s.config.engineBase + 0x010) w) s = .next { s with src := w } ∧
    hostEvent (.write32 (s.config.engineBase + 0x014) w) s = .next { s with dst := w } ∧
    hostEvent (.write32 (s.config.engineBase + 0x018) w) s = .next { s with len := w } ∧
    hostEvent (.write32 (s.config.engineBase + 0x01C) w) s = .next { s with keyLen := w, rkValid := false } ∧
    hostEvent (.write32 (s.config.engineBase + 0x020) w) s = .next { s with nonceLo := w } ∧
    hostEvent (.write32 (s.config.engineBase + 0x024) w) s = .next { s with nonceHi := w }) ∧
  (∀ (s : State) (o : Nat) (b : Byte) (w : Word), 0x80 ≤ o → o < 0x130 →
    hostEvent (.write8 (s.config.engineBase + o) b) s = .next s ∧
    (o % 4 = 0 → hostEvent (.write32 (s.config.engineBase + o) w) s = .next s)) ∧
  (∀ (s : State) (o : Nat) (b : Byte), 0x40 ≤ o → o < 0x60 → ∃ t, hostEvent (.write8 (s.config.engineBase + o) b) s = .next t ∧
    t = { s with key := t.key, keyWritten := t.keyWritten, rkValid := false } ∧ t.arrayByte .key (o - 0x40) = some b ∧
    ∀ i, i ≠ o - 0x40 → t.arrayByte .key i = s.arrayByte .key i) ∧
  (∀ (s : State) (o : Nat) (b : Byte), 0x60 ≤ o → o < 0x70 → ∃ t, hostEvent (.write8 (s.config.engineBase + o) b) s = .next t ∧
    t = { s with iv := t.iv, ivWritten := t.ivWritten } ∧ t.arrayByte .iv (o - 0x60) = some b ∧
    ∀ i, i ≠ o - 0x60 → t.arrayByte .iv i = s.arrayByte .iv i) ∧
  (∀ (s : State) (o : Nat) (b : Byte), 0x70 ≤ o → o < 0x80 → ∃ t, hostEvent (.write8 (s.config.engineBase + o) b) s = .next t ∧
    t = { s with state := t.state, stateWritten := t.stateWritten } ∧ t.arrayByte .state (o - 0x70) = some b ∧
    ∀ i, i ≠ o - 0x70 → t.arrayByte .state i = s.arrayByte .state i) ∧
  (∀ (s : State) (a : Nat) (b : Byte), a < s.config.dmemSize → ∃ t,
    hostEvent (.write8 (s.config.engineBase + (0x1000 + a)) b) s = .next t ∧
    t = { s with dmem := t.dmem } ∧ t.dmem.read a = some b ∧ ∀ x, x ≠ a → t.dmem.read x = s.dmem.read x) ∧
  ∀ (s : State) (o : Nat) (w : Word), o % 4 = 0 → writableBytes s o 4 →
    hostEvent (.write32 (s.config.engineBase + o) w) s =
      allEvents [.write8 (s.config.engineBase + o) (w.extractLsb' 0 8), .write8 (s.config.engineBase + (o + 1)) (w.extractLsb' 8 8),
        .write8 (s.config.engineBase + (o + 2)) (w.extractLsb' 16 8), .write8 (s.config.engineBase + (o + 3)) (w.extractLsb' 24 8)] s

/-- A host Read8 of an unwritten byte of KEY, IV, STATE, RK or DMEM returns a free value, and the next such read a value drawn anew, so
that two reads need not agree; a Read32 returns its written bytes as they are and a free value drawn anew for each unwritten one, from
the lowest up (10_state.md R41; the counter is the model's, log 5, and so is the reading of Read32, log 17). -/
def Obligations.UnwrittenReadsAreDrawnFreely : Prop :=
  (∀ (s : State) (o : Nat), readableBytes s o 1 → hostByte s o = none →
    hostEvent (.read8 (s.config.engineBase + o)) s =
      .next { s with readData := some (.byte (Config.unwrittenByte s.draws)), draws := s.draws + 1 }) ∧
  ∀ (s : State) (o : Nat), o % 4 = 0 → readableBytes s o 4 →
    hostEvent (.read32 (s.config.engineBase + o)) s =
      .next { s with
        readData := some (.word ((byteSeen s o 0).setWidth 32 ||| (byteSeen s o 1).setWidth 32 <<< 8 |||
          (byteSeen s o 2).setWidth 32 <<< 16 ||| (byteSeen s o 3).setWidth 32 <<< 24))
        draws := drawsAfter s o 4 }

/-! ## Invariants -/

/-- State.reset meets the five invariants that every step keeps (canonical memory, current round keys, legal STATUS, RESULT a byte,
OUT_LEN within DMEM), and so does the state after a reset event, from every state; and State.reset is a clean entry
(70_reset_and_hazards.md R273). -/
def Obligations.ResetMeetsInvariants : Prop :=
  (MemoryCanonical State.reset ∧ RoundKeysCurrent State.reset ∧ StatusLegal State.reset ∧ ResultIsByte State.reset ∧
    OutLenFits State.reset) ∧
  (∀ s : State, MemoryCanonical s.platformReset ∧ RoundKeysCurrent s.platformReset ∧ StatusLegal s.platformReset ∧
    ResultIsByte s.platformReset ∧ OutLenFits s.platformReset) ∧
  CleanEntry State.reset

/-- Every step keeps DMEM in canonical form and inside the data memory (10_state.md R35). -/
def Obligations.StepKeepsMemoryCanonical : Prop := ∀ s t : State, MemoryCanonical s → step s = .next t → MemoryCanonical t

/-- Every step keeps this: while RK_VALID is 1, RK is the expansion of the current, written KEY[0..15] and KEY_LEN is 16
(10_state.md R36, 42_key_schedule.md R165). -/
def Obligations.StepKeepsRoundKeysCurrent : Prop := ∀ s t : State, RoundKeysCurrent s → step s = .next t → RoundKeysCurrent t

/-- Every step keeps STATUS legal: ERR never holds 4, 5 or 9 to 14, and is 15 exactly while FAULT is 1 (60_exceptions.md R240). -/
def Obligations.StepKeepsStatusLegal : Prop := ∀ s t : State, StatusLegal s → step s = .next t → StatusLegal t
end

