-- ==== Sys2Proof/Laws/Gf.lean ====
section
/-! SUPPORT. GF(2^8): the product is additive in each argument, additive maps agree if they agree on the eight basis bytes, and the
two substitution tables are inverse permutations. -/

namespace Sys2Proof.Machine

theorem xtime_xor (a b : Byte) : xtime (a ^^^ b) = xtime a ^^^ xtime b := by
  unfold xtime
  rw [BitVec.getLsbD_xor]
  cases a.getLsbD 7 <;> cases b.getLsbD 7 <;> simp [BitVec.shiftLeft_xor_distrib] <;> try ac_rfl
  rw [show a <<< 1 ^^^ 27#8 ^^^ (b <<< 1 ^^^ 27#8) = a <<< 1 ^^^ b <<< 1 ^^^ (27#8 ^^^ 27#8) by ac_rfl]
  simp

theorem gmulLoop_xor_left (n : Nat) (a a' b p p' : Byte) :
    gmulLoop n (a ^^^ a') b (p ^^^ p') = gmulLoop n a b p ^^^ gmulLoop n a' b p' := by
  induction n generalizing a a' b p p' with
  | zero => rfl
  | succ n ih =>
    simp only [gmulLoop, xtime_xor]
    rw [← ih]
    congr 1
    split <;> ac_rfl

theorem gmulLoop_xor_right (n : Nat) (a b b' p p' : Byte) :
    gmulLoop n a (b ^^^ b') (p ^^^ p') = gmulLoop n a b p ^^^ gmulLoop n a b' p' := by
  induction n generalizing a b b' p p' with
  | zero => rfl
  | succ n ih =>
    simp only [gmulLoop, BitVec.ushiftRight_xor_distrib, BitVec.getLsbD_xor]
    rw [← ih]
    congr 1
    cases b.getLsbD 0 <;> cases b'.getLsbD 0 <;> simp <;> first | ac_rfl | skip
    rw [show p ^^^ a ^^^ (p' ^^^ a) = p ^^^ p' ^^^ (a ^^^ a) by ac_rfl]
    simp

/-- The product distributes over XOR in its first argument. -/
theorem gmul_xor_left (a a' b : Byte) : gmul (a ^^^ a') b = gmul a b ^^^ gmul a' b := by
  simpa [gmul] using gmulLoop_xor_left 8 a a' b 0 0

/-- The product distributes over XOR in its second argument. -/
theorem gmul_xor_right (a b b' : Byte) : gmul a (b ^^^ b') = gmul a b ^^^ gmul a b' := by
  simpa [gmul] using gmulLoop_xor_right 8 a b b' 0 0

/-- Bit i of a byte as a byte. -/
def basisPart (x : Byte) (i : Nat) : Byte := if x.getLsbD i then 1#8 <<< i else 0

theorem xor_basisParts (x : Byte) :
    x = basisPart x 0 ^^^ basisPart x 1 ^^^ basisPart x 2 ^^^ basisPart x 3 ^^^ basisPart x 4 ^^^ basisPart x 5 ^^^
      basisPart x 6 ^^^ basisPart x 7 := by
  revert x; decide +kernel

/-- Two additive maps of bytes are equal if they agree on the eight basis bytes. -/
theorem additive_ext {f g : Byte → Byte} (hf : ∀ x y, f (x ^^^ y) = f x ^^^ f y) (hg : ∀ x y, g (x ^^^ y) = g x ^^^ g y)
    (h : ∀ i < 8, f (1#8 <<< i) = g (1#8 <<< i)) (x : Byte) : f x = g x := by
  have f0 : f 0 = 0 := by simpa using hf 0 0
  have g0 : g 0 = 0 := by simpa using hg 0 0
  have hb : ∀ i < 8, f (basisPart x i) = g (basisPart x i) := by
    intro i hi
    unfold basisPart
    split
    · exact h i hi
    · rw [f0, g0]
  rw [xor_basisParts x]
  simp only [hf, hg, hb 0 (by omega), hb 1 (by omega), hb 2 (by omega), hb 3 (by omega), hb 4 (by omega), hb 5 (by omega),
    hb 6 (by omega), hb 7 (by omega)]

@[simp] theorem gmul_one_left (x : Byte) : gmul 1#8 x = x := by revert x; decide +kernel
theorem gmul_two_left (x : Byte) : gmul 2#8 x = xtime x := by revert x; decide +kernel
theorem gmul_three_left (x : Byte) : gmul 3#8 x = xtime x ^^^ x := by revert x; decide +kernel

@[simp] theorem invSbox_sbox (x : Byte) : invSbox (sbox x) = x := by revert x; decide +kernel
@[simp] theorem sbox_invSbox (y : Byte) : sbox (invSbox y) = y := by revert y; decide +kernel

theorem sboxTable_length : sboxTable.length = 256 := by decide +kernel
theorem invSboxTable_length : invSboxTable.length = 256 := by decide +kernel

end Sys2Proof.Machine
end

