-- ==== Sys2Proof/Laws/Block.lean ====
section
/-! SUPPORT. The block transforms: each by its elements, and each inverse undoes its transform (41_block_transforms.md R122, R124,
R126, R129, R130). -/

namespace Sys2Proof.Machine

/-! ## By elements -/

@[simp] theorem getElem_xorBlock (a b : Block) (i : Nat) (h : i < 16) : (xorBlock a b)[i] = a[i] ^^^ b[i] := by simp [xorBlock]
@[simp] theorem getElem_subBytes (s : Block) (i : Nat) (h : i < 16) : (subBytes s)[i] = sbox s[i] := by simp [subBytes]
@[simp] theorem getElem_invSubBytes (s : Block) (i : Nat) (h : i < 16) : (invSubBytes s)[i] = invSbox s[i] := by simp [invSubBytes]

theorem getElem_ofElems (f : Fin 4 → Fin 4 → Byte) (i : Nat) (h : i < 16) :
    (ofElems f)[i] = f ⟨i % 4, by omega⟩ ⟨i / 4, by omega⟩ := by simp [ofElems]

@[simp] theorem elem_ofElems (f : Fin 4 → Fin 4 → Byte) (r c : Fin 4) : elem (ofElems f) r c = f r c := by
  have hr := r.isLt
  have hc := c.isLt
  rw [elem, getElem_ofElems]
  congr 1 <;> ext <;> simp only <;> omega

/-- Two blocks with the same matrix are equal (R120: the mapping is a bijection). -/
theorem block_ext_elem {s t : Block} (h : ∀ r c, elem s r c = elem t r c) : s = t := by
  apply Vector.ext
  intro i hi
  have := h ⟨i % 4, by omega⟩ ⟨i / 4, by omega⟩
  simp only [elem] at this
  have e : i % 4 + 4 * (i / 4) = i := by omega
  simpa [e] using this

@[simp] theorem elem_shiftRows (s : Block) (r c : Fin 4) : elem (shiftRows s) r c = elem s r (c + r) := by simp [shiftRows]
@[simp] theorem elem_invShiftRows (s : Block) (r c : Fin 4) : elem (invShiftRows s) r c = elem s r (c - r) := by simp [invShiftRows]

theorem elem_mulColumns (m : Matrix4) (s : Block) (r c : Fin 4) :
    elem (mulColumns m s) r c =
      gmul (m r 0) (elem s 0 c) ^^^ gmul (m r 1) (elem s 1 c) ^^^ gmul (m r 2) (elem s 2 c) ^^^ gmul (m r 3) (elem s 3 c) := by
  simp [mulColumns]

/-! ## Inverses -/

@[simp] theorem invSubBytes_subBytes (s : Block) : invSubBytes (subBytes s) = s := by ext i hi; simp
@[simp] theorem subBytes_invSubBytes (s : Block) : subBytes (invSubBytes s) = s := by ext i hi; simp

@[simp] theorem invShiftRows_shiftRows (s : Block) : invShiftRows (shiftRows s) = s := by
  apply block_ext_elem
  intro r c
  rw [elem_invShiftRows, elem_shiftRows, sub_add_cancel]

@[simp] theorem shiftRows_invShiftRows (s : Block) : shiftRows (invShiftRows s) = s := by
  apply block_ext_elem
  intro r c
  rw [elem_shiftRows, elem_invShiftRows, add_sub_cancel_right]

@[simp] theorem xorBlock_xorBlock (a b : Block) : xorBlock (xorBlock a b) b = a := by
  ext i hi; simp

/-- Entry (r, k) of the product of two matrices over GF(2^8), applied to a byte. -/
def mixEntry (m m' : Matrix4) (r k : Fin 4) (x : Byte) : Byte :=
  gmul (m r 0) (gmul (m' 0 k) x) ^^^ gmul (m r 1) (gmul (m' 1 k) x) ^^^ gmul (m r 2) (gmul (m' 2 k) x) ^^^
    gmul (m r 3) (gmul (m' 3 k) x)

theorem mixEntry_xor (m m' : Matrix4) (r k : Fin 4) (x y : Byte) :
    mixEntry m m' r k (x ^^^ y) = mixEntry m m' r k x ^^^ mixEntry m m' r k y := by
  simp only [mixEntry, gmul_xor_right]; ac_rfl

theorem elem_mulColumns_mulColumns (m m' : Matrix4) (s : Block) (r c : Fin 4) :
    elem (mulColumns m (mulColumns m' s)) r c =
      mixEntry m m' r 0 (elem s 0 c) ^^^ mixEntry m m' r 1 (elem s 1 c) ^^^
        mixEntry m m' r 2 (elem s 2 c) ^^^ mixEntry m m' r 3 (elem s 3 c) := by
  simp only [elem_mulColumns, gmul_xor_right, mixEntry]
  ac_rfl

/-- The two matrices of R125 and R126 are inverse: their product is the identity. -/
theorem mixEntry_inv (r k : Fin 4) (x : Byte) : mixEntry invMixMatrix mixMatrix r k x = if r = k then x else 0 := by
  refine additive_ext (g := fun x => if r = k then x else 0) (mixEntry_xor _ _ r k)
    (fun x y => by by_cases h : r = k <;> simp [h]) ?_ x
  revert r k; decide +kernel

theorem mixEntry_mix (r k : Fin 4) (x : Byte) : mixEntry mixMatrix invMixMatrix r k x = if r = k then x else 0 := by
  refine additive_ext (g := fun x => if r = k then x else 0) (mixEntry_xor _ _ r k)
    (fun x y => by by_cases h : r = k <;> simp [h]) ?_ x
  revert r k; decide +kernel

theorem mulColumns_cancel {m m' : Matrix4}
    (h : ∀ r k x, mixEntry m m' r k x = if r = k then x else 0) (s : Block) : mulColumns m (mulColumns m' s) = s := by
  apply block_ext_elem
  intro r c
  rw [elem_mulColumns_mulColumns]
  simp only [h]
  fin_cases r <;> simp

@[simp] theorem invMixColumns_mixColumns (s : Block) (f : Bool) : invMixColumns (mixColumns s f) f = s := by
  cases f
  · exact mulColumns_cancel mixEntry_inv s
  · rfl

@[simp] theorem mixColumns_invMixColumns (s : Block) (f : Bool) : mixColumns (invMixColumns s f) f = s := by
  cases f
  · exact mulColumns_cancel mixEntry_mix s
  · rfl

@[simp] theorem addRoundKey_addRoundKey (s : Block) (rk : RoundKeys) (j : Fin 11) :
    addRoundKey (addRoundKey s rk j) rk j = s := xorBlock_xorBlock s _

@[simp] theorem applyInverseRound_applyRound (s : Block) (rk : RoundKeys) (j : Fin 11) (f : Bool) :
    applyInverseRound (applyRound s rk j f) rk j f = s := by simp [applyInverseRound, applyRound]

@[simp] theorem applyRound_applyInverseRound (s : Block) (rk : RoundKeys) (j : Fin 11) (f : Bool) :
    applyRound (applyInverseRound s rk j f) rk j f = s := by simp [applyInverseRound, applyRound]

end Sys2Proof.Machine
end

