-- ==== Sys2Proof/Laws/State.lean ====
section
/-! SUPPORT. One lemma for each field of State after each named update of it: what the update writes, and that it leaves every
other field alone. Each is true by unfolding the update once, so that no later proof does. -/

namespace Sys2Proof.Machine

/-! ### State.finish -/

@[simp] theorem State.finish_config (s : State) (c : BitVec 4) : (s.finish c).config = s.config := rfl
@[simp] theorem State.finish_err (s : State) (c : BitVec 4) : (s.finish c).err = c := rfl
@[simp] theorem State.finish_fault (s : State) (c : BitVec 4) : (s.finish c).fault = s.fault := rfl
@[simp] theorem State.finish_rkValid (s : State) (c : BitVec 4) : (s.finish c).rkValid = s.rkValid := rfl
@[simp] theorem State.finish_result (s : State) (c : BitVec 4) : (s.finish c).result = s.result := rfl
@[simp] theorem State.finish_outLen (s : State) (c : BitVec 4) : (s.finish c).outLen = s.outLen := rfl
@[simp] theorem State.finish_src (s : State) (c : BitVec 4) : (s.finish c).src = s.src := rfl
@[simp] theorem State.finish_dst (s : State) (c : BitVec 4) : (s.finish c).dst = s.dst := rfl
@[simp] theorem State.finish_len (s : State) (c : BitVec 4) : (s.finish c).len = s.len := rfl
@[simp] theorem State.finish_keyLen (s : State) (c : BitVec 4) : (s.finish c).keyLen = s.keyLen := rfl
@[simp] theorem State.finish_nonceLo (s : State) (c : BitVec 4) : (s.finish c).nonceLo = s.nonceLo := rfl
@[simp] theorem State.finish_nonceHi (s : State) (c : BitVec 4) : (s.finish c).nonceHi = s.nonceHi := rfl
@[simp] theorem State.finish_key (s : State) (c : BitVec 4) : (s.finish c).key = s.key := rfl
@[simp] theorem State.finish_keyWritten (s : State) (c : BitVec 4) : (s.finish c).keyWritten = s.keyWritten := rfl
@[simp] theorem State.finish_iv (s : State) (c : BitVec 4) : (s.finish c).iv = s.iv := rfl
@[simp] theorem State.finish_ivWritten (s : State) (c : BitVec 4) : (s.finish c).ivWritten = s.ivWritten := rfl
@[simp] theorem State.finish_state (s : State) (c : BitVec 4) : (s.finish c).state = s.state := rfl
@[simp] theorem State.finish_stateWritten (s : State) (c : BitVec 4) : (s.finish c).stateWritten = s.stateWritten := rfl
@[simp] theorem State.finish_rk (s : State) (c : BitVec 4) : (s.finish c).rk = s.rk := rfl
@[simp] theorem State.finish_rkWritten (s : State) (c : BitVec 4) : (s.finish c).rkWritten = s.rkWritten := rfl
@[simp] theorem State.finish_dmem (s : State) (c : BitVec 4) : (s.finish c).dmem = s.dmem := rfl
@[simp] theorem State.finish_pending (s : State) (c : BitVec 4) : (s.finish c).pending = s.pending := rfl
@[simp] theorem State.finish_readData (s : State) (c : BitVec 4) : (s.finish c).readData = s.readData := rfl
@[simp] theorem State.finish_draws (s : State) (c : BitVec 4) : (s.finish c).draws = s.draws := rfl

/-! ### State.raiseBufferError -/

@[simp] theorem State.raiseBufferError_config (s : State) (c : BitVec 4) : (s.raiseBufferError c).config = s.config := rfl
@[simp] theorem State.raiseBufferError_err (s : State) (c : BitVec 4) : (s.raiseBufferError c).err = c := rfl
@[simp] theorem State.raiseBufferError_fault (s : State) (c : BitVec 4) : (s.raiseBufferError c).fault = s.fault := rfl
@[simp] theorem State.raiseBufferError_rkValid (s : State) (c : BitVec 4) : (s.raiseBufferError c).rkValid = s.rkValid := rfl
@[simp] theorem State.raiseBufferError_result (s : State) (c : BitVec 4) : (s.raiseBufferError c).result = s.result := rfl
@[simp] theorem State.raiseBufferError_outLen (s : State) (c : BitVec 4) : (s.raiseBufferError c).outLen = 0 := rfl
@[simp] theorem State.raiseBufferError_src (s : State) (c : BitVec 4) : (s.raiseBufferError c).src = s.src := rfl
@[simp] theorem State.raiseBufferError_dst (s : State) (c : BitVec 4) : (s.raiseBufferError c).dst = s.dst := rfl
@[simp] theorem State.raiseBufferError_len (s : State) (c : BitVec 4) : (s.raiseBufferError c).len = s.len := rfl
@[simp] theorem State.raiseBufferError_keyLen (s : State) (c : BitVec 4) : (s.raiseBufferError c).keyLen = s.keyLen := rfl
@[simp] theorem State.raiseBufferError_nonceLo (s : State) (c : BitVec 4) : (s.raiseBufferError c).nonceLo = s.nonceLo := rfl
@[simp] theorem State.raiseBufferError_nonceHi (s : State) (c : BitVec 4) : (s.raiseBufferError c).nonceHi = s.nonceHi := rfl
@[simp] theorem State.raiseBufferError_key (s : State) (c : BitVec 4) : (s.raiseBufferError c).key = s.key := rfl
@[simp] theorem State.raiseBufferError_keyWritten (s : State) (c : BitVec 4) : (s.raiseBufferError c).keyWritten = s.keyWritten := rfl
@[simp] theorem State.raiseBufferError_iv (s : State) (c : BitVec 4) : (s.raiseBufferError c).iv = s.iv := rfl
@[simp] theorem State.raiseBufferError_ivWritten (s : State) (c : BitVec 4) : (s.raiseBufferError c).ivWritten = s.ivWritten := rfl
@[simp] theorem State.raiseBufferError_state (s : State) (c : BitVec 4) : (s.raiseBufferError c).state = s.state := rfl
@[simp] theorem State.raiseBufferError_stateWritten (s : State) (c : BitVec 4) : (s.raiseBufferError c).stateWritten = s.stateWritten := rfl
@[simp] theorem State.raiseBufferError_rk (s : State) (c : BitVec 4) : (s.raiseBufferError c).rk = s.rk := rfl
@[simp] theorem State.raiseBufferError_rkWritten (s : State) (c : BitVec 4) : (s.raiseBufferError c).rkWritten = s.rkWritten := rfl
@[simp] theorem State.raiseBufferError_dmem (s : State) (c : BitVec 4) : (s.raiseBufferError c).dmem = s.dmem := rfl
@[simp] theorem State.raiseBufferError_pending (s : State) (c : BitVec 4) : (s.raiseBufferError c).pending = s.pending := rfl
@[simp] theorem State.raiseBufferError_readData (s : State) (c : BitVec 4) : (s.raiseBufferError c).readData = s.readData := rfl
@[simp] theorem State.raiseBufferError_draws (s : State) (c : BitVec 4) : (s.raiseBufferError c).draws = s.draws := rfl

/-! ### State.raiseFault -/

@[simp] theorem State.raiseFault_config (s : State) : (s.raiseFault).config = s.config := rfl
@[simp] theorem State.raiseFault_err (s : State) : (s.raiseFault).err = errUnimplemented := rfl
@[simp] theorem State.raiseFault_fault (s : State) : (s.raiseFault).fault = true := rfl
@[simp] theorem State.raiseFault_rkValid (s : State) : (s.raiseFault).rkValid = s.rkValid := rfl
@[simp] theorem State.raiseFault_result (s : State) : (s.raiseFault).result = s.result := rfl
@[simp] theorem State.raiseFault_outLen (s : State) : (s.raiseFault).outLen = s.outLen := rfl
@[simp] theorem State.raiseFault_src (s : State) : (s.raiseFault).src = s.src := rfl
@[simp] theorem State.raiseFault_dst (s : State) : (s.raiseFault).dst = s.dst := rfl
@[simp] theorem State.raiseFault_len (s : State) : (s.raiseFault).len = s.len := rfl
@[simp] theorem State.raiseFault_keyLen (s : State) : (s.raiseFault).keyLen = s.keyLen := rfl
@[simp] theorem State.raiseFault_nonceLo (s : State) : (s.raiseFault).nonceLo = s.nonceLo := rfl
@[simp] theorem State.raiseFault_nonceHi (s : State) : (s.raiseFault).nonceHi = s.nonceHi := rfl
@[simp] theorem State.raiseFault_key (s : State) : (s.raiseFault).key = s.key := rfl
@[simp] theorem State.raiseFault_keyWritten (s : State) : (s.raiseFault).keyWritten = s.keyWritten := rfl
@[simp] theorem State.raiseFault_iv (s : State) : (s.raiseFault).iv = s.iv := rfl
@[simp] theorem State.raiseFault_ivWritten (s : State) : (s.raiseFault).ivWritten = s.ivWritten := rfl
@[simp] theorem State.raiseFault_state (s : State) : (s.raiseFault).state = s.state := rfl
@[simp] theorem State.raiseFault_stateWritten (s : State) : (s.raiseFault).stateWritten = s.stateWritten := rfl
@[simp] theorem State.raiseFault_rk (s : State) : (s.raiseFault).rk = s.rk := rfl
@[simp] theorem State.raiseFault_rkWritten (s : State) : (s.raiseFault).rkWritten = s.rkWritten := rfl
@[simp] theorem State.raiseFault_dmem (s : State) : (s.raiseFault).dmem = s.dmem := rfl
@[simp] theorem State.raiseFault_pending (s : State) : (s.raiseFault).pending = s.pending := rfl
@[simp] theorem State.raiseFault_readData (s : State) : (s.raiseFault).readData = s.readData := rfl
@[simp] theorem State.raiseFault_draws (s : State) : (s.raiseFault).draws = s.draws := rfl

/-! ### State.setResult -/

@[simp] theorem State.setResult_config (s : State) (v : Byte) : (s.setResult v).config = s.config := rfl
@[simp] theorem State.setResult_err (s : State) (v : Byte) : (s.setResult v).err = errOk := rfl
@[simp] theorem State.setResult_fault (s : State) (v : Byte) : (s.setResult v).fault = s.fault := rfl
@[simp] theorem State.setResult_rkValid (s : State) (v : Byte) : (s.setResult v).rkValid = s.rkValid := rfl
@[simp] theorem State.setResult_result (s : State) (v : Byte) : (s.setResult v).result = v.setWidth 32 := rfl
@[simp] theorem State.setResult_outLen (s : State) (v : Byte) : (s.setResult v).outLen = s.outLen := rfl
@[simp] theorem State.setResult_src (s : State) (v : Byte) : (s.setResult v).src = s.src := rfl
@[simp] theorem State.setResult_dst (s : State) (v : Byte) : (s.setResult v).dst = s.dst := rfl
@[simp] theorem State.setResult_len (s : State) (v : Byte) : (s.setResult v).len = s.len := rfl
@[simp] theorem State.setResult_keyLen (s : State) (v : Byte) : (s.setResult v).keyLen = s.keyLen := rfl
@[simp] theorem State.setResult_nonceLo (s : State) (v : Byte) : (s.setResult v).nonceLo = s.nonceLo := rfl
@[simp] theorem State.setResult_nonceHi (s : State) (v : Byte) : (s.setResult v).nonceHi = s.nonceHi := rfl
@[simp] theorem State.setResult_key (s : State) (v : Byte) : (s.setResult v).key = s.key := rfl
@[simp] theorem State.setResult_keyWritten (s : State) (v : Byte) : (s.setResult v).keyWritten = s.keyWritten := rfl
@[simp] theorem State.setResult_iv (s : State) (v : Byte) : (s.setResult v).iv = s.iv := rfl
@[simp] theorem State.setResult_ivWritten (s : State) (v : Byte) : (s.setResult v).ivWritten = s.ivWritten := rfl
@[simp] theorem State.setResult_state (s : State) (v : Byte) : (s.setResult v).state = s.state := rfl
@[simp] theorem State.setResult_stateWritten (s : State) (v : Byte) : (s.setResult v).stateWritten = s.stateWritten := rfl
@[simp] theorem State.setResult_rk (s : State) (v : Byte) : (s.setResult v).rk = s.rk := rfl
@[simp] theorem State.setResult_rkWritten (s : State) (v : Byte) : (s.setResult v).rkWritten = s.rkWritten := rfl
@[simp] theorem State.setResult_dmem (s : State) (v : Byte) : (s.setResult v).dmem = s.dmem := rfl
@[simp] theorem State.setResult_pending (s : State) (v : Byte) : (s.setResult v).pending = s.pending := rfl
@[simp] theorem State.setResult_readData (s : State) (v : Byte) : (s.setResult v).readData = s.readData := rfl
@[simp] theorem State.setResult_draws (s : State) (v : Byte) : (s.setResult v).draws = s.draws := rfl

/-! ### State.writeOutput -/

@[simp] theorem State.writeOutput_config (s : State) (o : List Byte) : (s.writeOutput o).config = s.config := rfl
@[simp] theorem State.writeOutput_err (s : State) (o : List Byte) : (s.writeOutput o).err = errOk := rfl
@[simp] theorem State.writeOutput_fault (s : State) (o : List Byte) : (s.writeOutput o).fault = s.fault := rfl
@[simp] theorem State.writeOutput_rkValid (s : State) (o : List Byte) : (s.writeOutput o).rkValid = s.rkValid := rfl
@[simp] theorem State.writeOutput_result (s : State) (o : List Byte) : (s.writeOutput o).result = s.result := rfl
@[simp] theorem State.writeOutput_outLen (s : State) (o : List Byte) : (s.writeOutput o).outLen = BitVec.ofNat 32 o.length := rfl
@[simp] theorem State.writeOutput_src (s : State) (o : List Byte) : (s.writeOutput o).src = s.src := rfl
@[simp] theorem State.writeOutput_dst (s : State) (o : List Byte) : (s.writeOutput o).dst = s.dst := rfl
@[simp] theorem State.writeOutput_len (s : State) (o : List Byte) : (s.writeOutput o).len = s.len := rfl
@[simp] theorem State.writeOutput_keyLen (s : State) (o : List Byte) : (s.writeOutput o).keyLen = s.keyLen := rfl
@[simp] theorem State.writeOutput_nonceLo (s : State) (o : List Byte) : (s.writeOutput o).nonceLo = s.nonceLo := rfl
@[simp] theorem State.writeOutput_nonceHi (s : State) (o : List Byte) : (s.writeOutput o).nonceHi = s.nonceHi := rfl
@[simp] theorem State.writeOutput_key (s : State) (o : List Byte) : (s.writeOutput o).key = s.key := rfl
@[simp] theorem State.writeOutput_keyWritten (s : State) (o : List Byte) : (s.writeOutput o).keyWritten = s.keyWritten := rfl
@[simp] theorem State.writeOutput_iv (s : State) (o : List Byte) : (s.writeOutput o).iv = s.iv := rfl
@[simp] theorem State.writeOutput_ivWritten (s : State) (o : List Byte) : (s.writeOutput o).ivWritten = s.ivWritten := rfl
@[simp] theorem State.writeOutput_state (s : State) (o : List Byte) : (s.writeOutput o).state = s.state := rfl
@[simp] theorem State.writeOutput_stateWritten (s : State) (o : List Byte) : (s.writeOutput o).stateWritten = s.stateWritten := rfl
@[simp] theorem State.writeOutput_rk (s : State) (o : List Byte) : (s.writeOutput o).rk = s.rk := rfl
@[simp] theorem State.writeOutput_rkWritten (s : State) (o : List Byte) : (s.writeOutput o).rkWritten = s.rkWritten := rfl
@[simp] theorem State.writeOutput_dmem (s : State) (o : List Byte) : (s.writeOutput o).dmem = s.dmem.writeBytes s.dst.toNat o := rfl
@[simp] theorem State.writeOutput_pending (s : State) (o : List Byte) : (s.writeOutput o).pending = s.pending := rfl
@[simp] theorem State.writeOutput_readData (s : State) (o : List Byte) : (s.writeOutput o).readData = s.readData := rfl
@[simp] theorem State.writeOutput_draws (s : State) (o : List Byte) : (s.writeOutput o).draws = s.draws := rfl

/-! ### State.setRoundKeys -/

@[simp] theorem State.setRoundKeys_config (s : State) (r : RoundKeys) : (s.setRoundKeys r).config = s.config := rfl
@[simp] theorem State.setRoundKeys_err (s : State) (r : RoundKeys) : (s.setRoundKeys r).err = s.err := rfl
@[simp] theorem State.setRoundKeys_fault (s : State) (r : RoundKeys) : (s.setRoundKeys r).fault = s.fault := rfl
@[simp] theorem State.setRoundKeys_rkValid (s : State) (r : RoundKeys) : (s.setRoundKeys r).rkValid = true := rfl
@[simp] theorem State.setRoundKeys_result (s : State) (r : RoundKeys) : (s.setRoundKeys r).result = s.result := rfl
@[simp] theorem State.setRoundKeys_outLen (s : State) (r : RoundKeys) : (s.setRoundKeys r).outLen = s.outLen := rfl
@[simp] theorem State.setRoundKeys_src (s : State) (r : RoundKeys) : (s.setRoundKeys r).src = s.src := rfl
@[simp] theorem State.setRoundKeys_dst (s : State) (r : RoundKeys) : (s.setRoundKeys r).dst = s.dst := rfl
@[simp] theorem State.setRoundKeys_len (s : State) (r : RoundKeys) : (s.setRoundKeys r).len = s.len := rfl
@[simp] theorem State.setRoundKeys_keyLen (s : State) (r : RoundKeys) : (s.setRoundKeys r).keyLen = s.keyLen := rfl
@[simp] theorem State.setRoundKeys_nonceLo (s : State) (r : RoundKeys) : (s.setRoundKeys r).nonceLo = s.nonceLo := rfl
@[simp] theorem State.setRoundKeys_nonceHi (s : State) (r : RoundKeys) : (s.setRoundKeys r).nonceHi = s.nonceHi := rfl
@[simp] theorem State.setRoundKeys_key (s : State) (r : RoundKeys) : (s.setRoundKeys r).key = s.key := rfl
@[simp] theorem State.setRoundKeys_keyWritten (s : State) (r : RoundKeys) : (s.setRoundKeys r).keyWritten = s.keyWritten := rfl
@[simp] theorem State.setRoundKeys_iv (s : State) (r : RoundKeys) : (s.setRoundKeys r).iv = s.iv := rfl
@[simp] theorem State.setRoundKeys_ivWritten (s : State) (r : RoundKeys) : (s.setRoundKeys r).ivWritten = s.ivWritten := rfl
@[simp] theorem State.setRoundKeys_state (s : State) (r : RoundKeys) : (s.setRoundKeys r).state = s.state := rfl
@[simp] theorem State.setRoundKeys_stateWritten (s : State) (r : RoundKeys) : (s.setRoundKeys r).stateWritten = s.stateWritten := rfl
@[simp] theorem State.setRoundKeys_rk (s : State) (r : RoundKeys) : (s.setRoundKeys r).rk = r := rfl
@[simp] theorem State.setRoundKeys_rkWritten (s : State) (r : RoundKeys) : (s.setRoundKeys r).rkWritten = true := rfl
@[simp] theorem State.setRoundKeys_dmem (s : State) (r : RoundKeys) : (s.setRoundKeys r).dmem = s.dmem := rfl
@[simp] theorem State.setRoundKeys_pending (s : State) (r : RoundKeys) : (s.setRoundKeys r).pending = s.pending := rfl
@[simp] theorem State.setRoundKeys_readData (s : State) (r : RoundKeys) : (s.setRoundKeys r).readData = s.readData := rfl
@[simp] theorem State.setRoundKeys_draws (s : State) (r : RoundKeys) : (s.setRoundKeys r).draws = s.draws := rfl

/-! ### State.platformReset: the parameters and the host's side stay, the rest is as after reset -/

@[simp] theorem State.platformReset_config (s : State) : s.platformReset.config = s.config := rfl
@[simp] theorem State.platformReset_err (s : State) : s.platformReset.err = State.reset.err := rfl
@[simp] theorem State.platformReset_fault (s : State) : s.platformReset.fault = State.reset.fault := rfl
@[simp] theorem State.platformReset_rkValid (s : State) : s.platformReset.rkValid = State.reset.rkValid := rfl
@[simp] theorem State.platformReset_result (s : State) : s.platformReset.result = State.reset.result := rfl
@[simp] theorem State.platformReset_outLen (s : State) : s.platformReset.outLen = State.reset.outLen := rfl
@[simp] theorem State.platformReset_src (s : State) : s.platformReset.src = State.reset.src := rfl
@[simp] theorem State.platformReset_dst (s : State) : s.platformReset.dst = State.reset.dst := rfl
@[simp] theorem State.platformReset_len (s : State) : s.platformReset.len = State.reset.len := rfl
@[simp] theorem State.platformReset_keyLen (s : State) : s.platformReset.keyLen = State.reset.keyLen := rfl
@[simp] theorem State.platformReset_nonceLo (s : State) : s.platformReset.nonceLo = State.reset.nonceLo := rfl
@[simp] theorem State.platformReset_nonceHi (s : State) : s.platformReset.nonceHi = State.reset.nonceHi := rfl
@[simp] theorem State.platformReset_key (s : State) : s.platformReset.key = State.reset.key := rfl
@[simp] theorem State.platformReset_keyWritten (s : State) : s.platformReset.keyWritten = State.reset.keyWritten := rfl
@[simp] theorem State.platformReset_iv (s : State) : s.platformReset.iv = State.reset.iv := rfl
@[simp] theorem State.platformReset_ivWritten (s : State) : s.platformReset.ivWritten = State.reset.ivWritten := rfl
@[simp] theorem State.platformReset_state (s : State) : s.platformReset.state = State.reset.state := rfl
@[simp] theorem State.platformReset_stateWritten (s : State) : s.platformReset.stateWritten = State.reset.stateWritten := rfl
@[simp] theorem State.platformReset_rk (s : State) : s.platformReset.rk = State.reset.rk := rfl
@[simp] theorem State.platformReset_rkWritten (s : State) : s.platformReset.rkWritten = State.reset.rkWritten := rfl
@[simp] theorem State.platformReset_dmem (s : State) : s.platformReset.dmem = State.reset.dmem := rfl
@[simp] theorem State.platformReset_pending (s : State) : s.platformReset.pending = s.pending := rfl
@[simp] theorem State.platformReset_readData (s : State) : s.platformReset.readData = s.readData := rfl
@[simp] theorem State.platformReset_draws (s : State) : s.platformReset.draws = s.draws := rfl

/-! ### The readiness tests read the written marks alone -/

@[simp] theorem State.finish_stateReady (s : State) (c : BitVec 4) : (s.finish c).stateReady = s.stateReady := rfl
@[simp] theorem State.finish_ivReady (s : State) (c : BitVec 4) : (s.finish c).ivReady = s.ivReady := rfl
@[simp] theorem State.finish_keyReady (s : State) (c : BitVec 4) : (s.finish c).keyReady = s.keyReady := rfl
@[simp] theorem State.finish_key128 (s : State) (c : BitVec 4) : (s.finish c).key128 = s.key128 := rfl
@[simp] theorem State.finish_nonce (s : State) (c : BitVec 4) : (s.finish c).nonce = s.nonce := rfl
@[simp] theorem State.finish_inRange (s : State) (c : BitVec 4) (x y : Nat) : (s.finish c).inRange x y = s.inRange x y := rfl
@[simp] theorem State.raiseBufferError_stateReady (s : State) (c : BitVec 4) : (s.raiseBufferError c).stateReady = s.stateReady := rfl
@[simp] theorem State.raiseBufferError_ivReady (s : State) (c : BitVec 4) : (s.raiseBufferError c).ivReady = s.ivReady := rfl
@[simp] theorem State.raiseBufferError_keyReady (s : State) (c : BitVec 4) : (s.raiseBufferError c).keyReady = s.keyReady := rfl
@[simp] theorem State.raiseBufferError_key128 (s : State) (c : BitVec 4) : (s.raiseBufferError c).key128 = s.key128 := rfl
@[simp] theorem State.raiseBufferError_nonce (s : State) (c : BitVec 4) : (s.raiseBufferError c).nonce = s.nonce := rfl
@[simp] theorem State.raiseBufferError_inRange (s : State) (c : BitVec 4) (x y : Nat) : (s.raiseBufferError c).inRange x y = s.inRange x y := rfl
@[simp] theorem State.raiseFault_stateReady (s : State) : (s.raiseFault).stateReady = s.stateReady := rfl
@[simp] theorem State.raiseFault_ivReady (s : State) : (s.raiseFault).ivReady = s.ivReady := rfl
@[simp] theorem State.raiseFault_keyReady (s : State) : (s.raiseFault).keyReady = s.keyReady := rfl
@[simp] theorem State.raiseFault_key128 (s : State) : (s.raiseFault).key128 = s.key128 := rfl
@[simp] theorem State.raiseFault_nonce (s : State) : (s.raiseFault).nonce = s.nonce := rfl
@[simp] theorem State.raiseFault_inRange (s : State) (x y : Nat) : (s.raiseFault).inRange x y = s.inRange x y := rfl
@[simp] theorem State.setResult_stateReady (s : State) (v : Byte) : (s.setResult v).stateReady = s.stateReady := rfl
@[simp] theorem State.setResult_ivReady (s : State) (v : Byte) : (s.setResult v).ivReady = s.ivReady := rfl
@[simp] theorem State.setResult_keyReady (s : State) (v : Byte) : (s.setResult v).keyReady = s.keyReady := rfl
@[simp] theorem State.setResult_key128 (s : State) (v : Byte) : (s.setResult v).key128 = s.key128 := rfl
@[simp] theorem State.setResult_nonce (s : State) (v : Byte) : (s.setResult v).nonce = s.nonce := rfl
@[simp] theorem State.setResult_inRange (s : State) (v : Byte) (x y : Nat) : (s.setResult v).inRange x y = s.inRange x y := rfl
@[simp] theorem State.writeOutput_stateReady (s : State) (o : List Byte) : (s.writeOutput o).stateReady = s.stateReady := rfl
@[simp] theorem State.writeOutput_ivReady (s : State) (o : List Byte) : (s.writeOutput o).ivReady = s.ivReady := rfl
@[simp] theorem State.writeOutput_keyReady (s : State) (o : List Byte) : (s.writeOutput o).keyReady = s.keyReady := rfl
@[simp] theorem State.writeOutput_key128 (s : State) (o : List Byte) : (s.writeOutput o).key128 = s.key128 := rfl
@[simp] theorem State.writeOutput_nonce (s : State) (o : List Byte) : (s.writeOutput o).nonce = s.nonce := rfl
@[simp] theorem State.writeOutput_inRange (s : State) (o : List Byte) (x y : Nat) : (s.writeOutput o).inRange x y = s.inRange x y := rfl
@[simp] theorem State.setRoundKeys_stateReady (s : State) (r : RoundKeys) : (s.setRoundKeys r).stateReady = s.stateReady := rfl
@[simp] theorem State.setRoundKeys_ivReady (s : State) (r : RoundKeys) : (s.setRoundKeys r).ivReady = s.ivReady := rfl
@[simp] theorem State.setRoundKeys_keyReady (s : State) (r : RoundKeys) : (s.setRoundKeys r).keyReady = s.keyReady := rfl
@[simp] theorem State.setRoundKeys_key128 (s : State) (r : RoundKeys) : (s.setRoundKeys r).key128 = s.key128 := rfl
@[simp] theorem State.setRoundKeys_nonce (s : State) (r : RoundKeys) : (s.setRoundKeys r).nonce = s.nonce := rfl
@[simp] theorem State.setRoundKeys_inRange (s : State) (r : RoundKeys) (x y : Nat) : (s.setRoundKeys r).inRange x y = s.inRange x y := rfl

end Sys2Proof.Machine
end

