-- ==== Sys2Proof/Laws/KeySchedule.lean ====
section
/-! SUPPORT. The key schedule: the recurrence of its 44 words (42_key_schedule.md R162), and what a key step can answer (R163). -/

namespace Sys2Proof.Machine

/-! ## The words -/

/-- The words after `n` iterations. -/
def expandPrefix (k : Block) (n : Nat) : List KeyWord :=
  (List.range' 4 n).foldl expandStep [keyWord k 0, keyWord k 1, keyWord k 2, keyWord k 3]

theorem expandedWords_eq (k : Block) : expandedWords k = expandPrefix k 40 := rfl

theorem expandPrefix_succ (k : Block) (n : Nat) : expandPrefix k (n + 1) = expandStep (expandPrefix k n) (4 + n) := by
  simp [expandPrefix, List.range'_1_concat]

@[simp] theorem length_expandStep (w : List KeyWord) (i : Nat) : (expandStep w i).length = w.length + 1 := by simp [expandStep]

@[simp] theorem length_expandPrefix (k : Block) (n : Nat) : (expandPrefix k n).length = 4 + n := by
  induction n with
  | zero => rfl
  | succ n ih => rw [expandPrefix_succ, length_expandStep, ih]; omega

/-- A word once computed is never changed. -/
theorem wordAt_expandStep_old {w : List KeyWord} {j : Nat} (i : Nat) (h : j < w.length) :
    wordAt (expandStep w i) j = wordAt w j := by
  simp [wordAt, expandStep, List.getD_eq_getElem?_getD, List.getElem?_append_left h]

theorem wordAt_expandStep_new (w : List KeyWord) (i : Nat) :
    wordAt (expandStep w i) w.length =
      xorWord (wordAt w (i - 4)) (if i % 4 = 0 then scheduleCore (wordAt w (i - 1)) i else wordAt w (i - 1)) := by
  simp [wordAt, expandStep, List.getD_eq_getElem?_getD]

theorem wordAt_expandPrefix_mono (k : Block) {n m j : Nat} (h : n ≤ m) (hj : j < 4 + n) :
    wordAt (expandPrefix k m) j = wordAt (expandPrefix k n) j := by
  induction m, h using Nat.le_induction with
  | base => rfl
  | succ m hm ih => rw [expandPrefix_succ, wordAt_expandStep_old _ (by simp; omega), ih]

/-- The recurrence of R162 for i = 4..43. -/
theorem wordAt_expandedWords (k : Block) {i : Nat} (h4 : 4 ≤ i) (h : i < 44) :
    wordAt (expandedWords k) i =
      xorWord (wordAt (expandedWords k) (i - 4))
        (if i % 4 = 0 then scheduleCore (wordAt (expandedWords k) (i - 1)) i else wordAt (expandedWords k) (i - 1)) := by
  rw [expandedWords_eq]
  have e : ∀ j < i, wordAt (expandPrefix k 40) j = wordAt (expandPrefix k (i - 4)) j := fun j hj =>
    wordAt_expandPrefix_mono k (by omega) (by omega)
  rw [e (i - 4) (by omega), e (i - 1) (by omega), wordAt_expandPrefix_mono k (n := i - 4 + 1) (by omega) (by omega),
    expandPrefix_succ, show 4 + (i - 4) = i by omega]
  have := wordAt_expandStep_new (expandPrefix k (i - 4)) i
  rwa [length_expandPrefix, show 4 + (i - 4) = i by omega] at this

/-- The first four words are the key (R162). -/
theorem wordAt_expandedWords_key (k : Block) (i : Fin 4) : wordAt (expandedWords k) i.val = keyWord k i := by
  rw [expandedWords_eq, wordAt_expandPrefix_mono k (n := 0) (by omega) (by omega)]
  fin_cases i <;> rfl

/-- Byte i of round key j is byte i mod 4 of word 4j + i div 4 (R162). -/
theorem getElem_keyExpansion (k : Block) (j i : Nat) (hj : j < 11) (hi : i < 16) :
    (keyExpansion k)[j][i] = (wordAt (expandedWords k) (4 * j + i / 4))[i % 4] := by simp [keyExpansion]

/-! ## The key step -/

theorem keyStep_invalid {s : State} (h16 : s.keyLen ≠ 16) (h24 : s.keyLen ≠ 24) (h32 : s.keyLen ≠ 32) :
    keyStep s = .invalidKeySize := if_pos ⟨h16, h24, h32⟩

theorem keyStep_unimplemented {s : State} (h : s.keyLen = 24 ∨ s.keyLen = 32) : keyStep s = .unimplemented := by
  rcases h with h | h <;> simp [keyStep, h]

theorem keyStep_ok {s : State} (h : s.keyLen = 16) (hk : s.keyReady = true) :
    keyStep s = .ok (s.setRoundKeys (keyExpansion s.key128)) := by simp [keyStep, h, hk]

theorem keyStep_unwritten {s : State} (h : s.keyLen = 16) (hk : s.keyReady = false) : keyStep s = .unwritten := by
  simp [keyStep, h, hk]

/-- Everything a key step can answer. -/
theorem keyStep_cases (s : State) :
    (keyStep s = .invalidKeySize ∧ s.keyLen ≠ 16 ∧ s.keyLen ≠ 24 ∧ s.keyLen ≠ 32) ∨
    (keyStep s = .unimplemented ∧ (s.keyLen = 24 ∨ s.keyLen = 32)) ∨
    (keyStep s = .unwritten ∧ s.keyLen = 16 ∧ s.keyReady = false) ∨
    (keyStep s = .ok (s.setRoundKeys (keyExpansion s.key128)) ∧ s.keyLen = 16 ∧ s.keyReady = true) := by
  by_cases h16 : s.keyLen = 16
  · cases hk : s.keyReady
    · exact .inr (.inr (.inl ⟨keyStep_unwritten h16 hk, h16, rfl⟩))
    · exact .inr (.inr (.inr ⟨keyStep_ok h16 hk, h16, rfl⟩))
  · by_cases h : s.keyLen = 24 ∨ s.keyLen = 32
    · exact .inr (.inl ⟨keyStep_unimplemented h, h⟩)
    · push Not at h
      exact .inl ⟨keyStep_invalid h16 h.1 h.2, h16, h.1, h.2⟩

end Sys2Proof.Machine
end

