-- ==== Sys2Proof/Laws/Memory.lean ====
section
/-! SUPPORT. The laws of DMEM: a read after a write, what a write leaves alone, the canonical form, and the same for byte
sequences. -/

namespace Sys2Proof.Machine

/-! ## One byte -/

@[simp] theorem Memory.read_nil (a : Nat) : Memory.read [] a = none := rfl

theorem Memory.read_write (m : Memory) (a b : Nat) (v : Byte) :
    (m.write a v).read b = if b = a then some v else m.read b := by
  induction m with
  | nil => simp [Memory.write, Memory.read]
  | cons c m ih =>
    obtain ⟨d, u⟩ := c
    simp only [Memory.write]
    split
    · simp [Memory.read]
    · split
      · subst a; simp only [Memory.read]; split <;> simp_all
      · simp only [Memory.read, ih]; split <;> split <;> simp_all

@[simp] theorem Memory.read_write_same (m : Memory) (a : Nat) (v : Byte) : (m.write a v).read a = some v := by
  simp [Memory.read_write]

theorem Memory.read_write_other (m : Memory) {a b : Nat} (v : Byte) (h : b ≠ a) : (m.write a v).read b = m.read b := by
  simp [Memory.read_write, h]

/-- Every entry of a written memory is the new one or an old one. -/
theorem Memory.mem_write {m : Memory} {a : Nat} {v : Byte} {c : Host.Cell} (h : c ∈ m.write a v) : c = (a, v) ∨ c ∈ m := by
  induction m with
  | nil => simpa [Memory.write] using h
  | cons d m ih =>
    obtain ⟨b, u⟩ := d
    simp only [Memory.write] at h
    split at h
    · simpa using h
    · split at h
      · rcases List.mem_cons.1 h with h | h
        · exact .inl h
        · exact .inr (List.mem_cons_of_mem _ h)
      · rcases List.mem_cons.1 h with h | h
        · exact .inr (by simp [h])
        · rcases ih h with h | h
          · exact .inl h
          · exact .inr (List.mem_cons_of_mem _ h)

/-- A write keeps the canonical form. -/
theorem Memory.write_wf {m : Memory} (h : m.wf) (a : Nat) (v : Byte) : (m.write a v).wf := by
  induction m with
  | nil => simp [Memory.write, Memory.wf]
  | cons c m ih =>
    obtain ⟨b, u⟩ := c
    have hc := List.pairwise_cons.1 h
    simp only [Memory.write]
    split
    · refine List.pairwise_cons.2 ⟨fun d hd => ?_, h⟩
      rcases List.mem_cons.1 hd with rfl | hd
      · assumption
      · have := hc.1 d hd; simp only at this ⊢; omega
    · split
      · subst a; exact List.pairwise_cons.2 ⟨hc.1, hc.2⟩
      · refine List.pairwise_cons.2 ⟨fun d hd => ?_, ih hc.2⟩
        rcases Memory.mem_write hd with rfl | hd
        · simp only; omega
        · exact hc.1 d hd

/-- A write below a bound keeps every entry below it. -/
theorem Memory.write_below {m : Memory} {n : Nat} (h : ∀ c ∈ m, c.1 < n) {a : Nat} (ha : a < n) (v : Byte) :
    ∀ c ∈ m.write a v, c.1 < n := by
  intro c hc
  rcases Memory.mem_write hc with rfl | hc
  · exact ha
  · exact h c hc

/-! ## Byte sequences -/

@[simp] theorem Memory.writeBytes_nil (m : Memory) (a : Nat) : m.writeBytes a [] = m := rfl

/-- What a byte reads as after a sequence is written: its own element inside the range, as before outside it. -/
theorem Memory.read_writeBytes (m : Memory) (a b : Nat) (vs : List Byte) :
    (m.writeBytes a vs).read b = if a ≤ b ∧ b < a + vs.length then vs[b - a]? else m.read b := by
  induction vs generalizing m a with
  | nil => simp
  | cons v vs ih =>
    simp only [Memory.writeBytes, ih, List.length_cons]
    by_cases h : b = a
    · subst h; simp
    · rw [Memory.read_write_other _ _ h]
      by_cases h2 : a + 1 ≤ b ∧ b < a + 1 + vs.length
      · rw [if_pos h2, if_pos (by omega), show b - a = (b - (a + 1)) + 1 by omega, List.getElem?_cons_succ]
      · rw [if_neg h2, if_neg (by omega)]

theorem Memory.read_writeBytes_inside (m : Memory) (a : Nat) (vs : List Byte) {k : Nat} (h : k < vs.length) :
    (m.writeBytes a vs).read (a + k) = some vs[k] := by
  rw [Memory.read_writeBytes, if_pos (by omega)]
  simp [h]

theorem Memory.read_writeBytes_outside (m : Memory) {a b : Nat} (vs : List Byte) (h : b < a ∨ a + vs.length ≤ b) :
    (m.writeBytes a vs).read b = m.read b := by
  rw [Memory.read_writeBytes, if_neg (by omega)]

theorem Memory.writeBytes_wf {m : Memory} (h : m.wf) (a : Nat) (vs : List Byte) : (m.writeBytes a vs).wf := by
  induction vs generalizing m a with
  | nil => exact h
  | cons v vs ih => exact ih (Memory.write_wf h a v) (a + 1)

theorem Memory.writeBytes_below {m : Memory} {n : Nat} (h : ∀ c ∈ m, c.1 < n) {a : Nat} (vs : List Byte)
    (ha : a + vs.length ≤ n) : ∀ c ∈ m.writeBytes a vs, c.1 < n := by
  induction vs generalizing m a with
  | nil => exact h
  | cons v vs ih =>
    simp only [List.length_cons] at ha
    exact ih (Memory.write_below h (by omega) v) (by omega)

/-! ## Reading sequences -/

@[simp] theorem Memory.cells_length (m : Memory) (a n : Nat) : (m.cells a n).length = n := by simp [Memory.cells]

theorem Memory.getElem_cells (m : Memory) (a n k : Nat) (h : k < (m.cells a n).length) : (m.cells a n)[k] = m.read (a + k) := by
  simp [Memory.cells]

theorem allWritten_eq_some {cs : List (Option Byte)} {vs : List Byte} : allWritten cs = some vs ↔ cs = vs.map some := by
  induction cs generalizing vs with
  | nil => cases vs <;> simp [allWritten]
  | cons c cs ih =>
    cases c with
    | none => cases vs <;> simp [allWritten]
    | some v =>
      simp only [allWritten]
      cases h : allWritten cs with
      | none =>
        cases vs with
        | nil => simp
        | cons u us =>
          simp only [List.map_cons, List.cons.injEq, reduceCtorEq, false_iff, not_and]
          intro _ hc
          rw [ih.2 hc] at h
          cases h
      | some ws =>
        have hw := ih.1 h
        cases vs with
        | nil => simp
        | cons u us =>
          simp only [Option.some.injEq, List.cons.injEq, List.map_cons, hw]
          constructor
          · rintro ⟨rfl, rfl⟩; simp
          · rintro ⟨h1, h2⟩; exact ⟨h1, (List.map_injective_iff.2 (Option.some_injective _)) h2⟩

theorem allWritten_eq_none {cs : List (Option Byte)} : allWritten cs = none ↔ none ∈ cs := by
  induction cs with
  | nil => simp [allWritten]
  | cons c cs ih =>
    cases c with
    | none => simp [allWritten]
    | some v => cases h : allWritten cs <;> simp [allWritten, h, ← ih]

/-- `MemRead` succeeds exactly when every byte of the range is written, and gives those bytes. -/
theorem Memory.readBytes_eq_some {m : Memory} {a n : Nat} {vs : List Byte} :
    m.readBytes a n = some vs ↔ vs.length = n ∧ ∀ k (h : k < vs.length), m.read (a + k) = some vs[k] := by
  rw [Memory.readBytes, allWritten_eq_some]
  constructor
  · intro h
    have hl : n = vs.length := by simpa using congrArg List.length h
    refine ⟨hl.symm, fun k hk => ?_⟩
    have := congrArg (fun l => l[k]?) h
    simpa [Memory.cells, hk, hl] using this
  · rintro ⟨rfl, h⟩
    apply List.ext_getElem (by simp)
    intro k h1 h2
    rw [Memory.getElem_cells, h k (by simpa using h2)]
    simp

theorem Memory.readBytes_length {m : Memory} {a n : Nat} {vs : List Byte} (h : m.readBytes a n = some vs) : vs.length = n :=
  (Memory.readBytes_eq_some.1 h).1

/-- A sequence that was written reads back. -/
theorem Memory.readBytes_writeBytes (m : Memory) (a : Nat) (vs : List Byte) :
    (m.writeBytes a vs).readBytes a vs.length = some vs :=
  Memory.readBytes_eq_some.2 ⟨rfl, fun _ hk => Memory.read_writeBytes_inside m a vs hk⟩

theorem Memory.cells_of_readBytes {m : Memory} {a n : Nat} {vs : List Byte} (h : m.readBytes a n = some vs) :
    m.cells a n = vs.map some := allWritten_eq_some.1 h

end Sys2Proof.Machine
end

