-- ==== Sys2Proof/Laws/Padding.lean ====
section
/-! SUPPORT. The padding functions and the buffer operation that PAD, ENC and DEC share. -/

namespace Sys2Proof.Machine

/-! ## Pad -/

@[simp] theorem length_pad (b : List Byte) (n : Nat) : (pad b n).length = padLength b.length n := by
  simp only [pad, padLength]; split <;> simp

theorem padLength_mod (l : Nat) {n : Nat} (h : 0 < n) : padLength l n % n = 0 := by
  simp only [padLength]
  split
  · assumption
  · have := Nat.mod_lt l h
    rw [show l + (n - l % n) = n * (l / n) + n by have := Nat.div_add_mod l n; omega]
    simp

theorem padLength_aligned {l n : Nat} (h : l % n = 0) : padLength l n = l := by simp [padLength, h]

/-! ## Validate -/

/-- On a buffer all of whose bytes are written, `validateCells` is `Validate` (43_padding.md R181). -/
theorem validateCells_map_some (b : List Byte) (n : Nat) : validateCells (b.map some) n = some (validate b n) := by
  simp only [validateCells, validate, List.getLast?_map]
  cases b.getLast? with
  | none => rfl
  | some v =>
    simp only [Option.map_some, List.length_map]
    by_cases h : v = 0 ∨ n < v.toNat ∨ b.length < v.toNat
    · rw [if_pos h]
      rcases h with h | h | h
      · simp [h]
      · simp [Nat.not_le.2 h]
      · simp [Nat.not_le.2 h]
    · rw [if_neg h]
      push Not at h
      obtain ⟨h0, h1, h2⟩ := h
      simp only [h0, h1, h2, ne_eq, not_false_eq_true, decide_true, Bool.true_and, ← List.map_drop, List.any_map, List.all_map]
      by_cases ha : (b.drop (b.length - v.toNat)).all (fun x => decide (x = v)) = true
      · rw [if_neg, if_pos, ha]
        · simp
        · simp only [List.all_eq_true, decide_eq_true_eq] at ha
          simpa using fun x hx => ha x hx
      · rw [Bool.not_eq_true] at ha
        rw [if_pos, ha]
        rw [List.all_eq_false] at ha
        obtain ⟨x, hx, hxv⟩ := ha
        exact List.any_eq_true.2 ⟨x, hx, by simpa using hxv⟩

/-- The last byte of a list of written cells. -/
theorem getLast_bind_map_some (b : List Byte) : (((b.map some).getLast?.bind id).getD 0 : Byte) = b.getLastD 0 := by
  rw [List.getLast?_map, List.getLastD_eq_getLast?]
  cases b.getLast? <;> rfl

/-! ## Validate where bytes may be unwritten (10_state.md R41) -/

/-- A byte sequence that a list of cells may stand for: it has their length and agrees with every written one. -/
def Fills (cs : List (Option Byte)) (b : List Byte) : Prop :=
  b.length = cs.length ∧ ∀ (k : Nat) (v : Byte), cs[k]? = some (some v) → b[k]? = some v

theorem fills_getD (cs : List (Option Byte)) (d : Byte) : Fills cs (cs.map (·.getD d)) :=
  ⟨by simp, fun k v h => by simp [h]⟩

/-- The tail of a buffer that `Validate` looks at, by its positions. -/
theorem all_drop_iff {α : Type} (l : List α) (m : Nat) (p : α → Bool) :
    (l.drop m).all p = true ↔ ∀ k x, m ≤ k → l[k]? = some x → p x = true := by
  simp only [List.all_eq_true, List.mem_iff_getElem?, List.getElem?_drop, forall_exists_index]
  constructor
  · intro h k x hk hx
    exact h x (k - m) (by rwa [Nat.add_sub_cancel' hk])
  · intro h x i hi
    exact h (m + i) x (Nat.le_add_right m i) hi

/-- `Validate` by positions: the last byte is a count v in 1..n and in 1..len, and the last v bytes are v (43_padding.md R181). -/
theorem validate_iff (b : List Byte) (n : Nat) : validate b n = true ↔ ∃ v : Byte, b.getLast? = some v ∧ v ≠ 0 ∧ v.toNat ≤ n ∧
    v.toNat ≤ b.length ∧ ∀ k x, b.length - v.toNat ≤ k → b[k]? = some x → x = v := by
  unfold validate
  cases b.getLast? with
  | none => simp
  | some v =>
    simp only [Bool.and_eq_true, decide_eq_true_eq, all_drop_iff, Option.some.injEq, exists_eq_left', and_assoc, ne_eq]

/-- What a `true` of `validateCells` says of the cells. -/
theorem validateCells_eq_true {cs : List (Option Byte)} {n : Nat} (h : validateCells cs n = some true) :
    ∃ v : Byte, cs.getLast? = some (some v) ∧ v ≠ 0 ∧ v.toNat ≤ n ∧ v.toNat ≤ cs.length ∧
      ∀ k x, cs.length - v.toNat ≤ k → cs[k]? = some x → x = some v := by
  unfold validateCells at h
  split at h
  · cases h
  · split at h <;> cases h
  · rename_i v hv
    split at h
    · cases h
    · rename_i hn
      push Not at hn
      simp only at h
      split at h
      · cases h
      · rename_i hany
        split at h
        · rename_i hall
          refine ⟨v, hv, hn.1, hn.2.1, hn.2.2, fun k x hk hx => ?_⟩
          have h1 := (all_drop_iff _ _ _).1 hall k x hk hx
          rw [Bool.not_eq_true, ← Bool.not_eq_true', List.not_any_eq_all_not] at hany
          have h2 := (all_drop_iff _ _ _).1 hany k x hk hx
          simp_all
        · cases h

theorem Fills.getLast? {cs : List (Option Byte)} {b : List Byte} (h : Fills cs b) {v : Byte} (hv : cs.getLast? = some (some v)) :
    b.getLast? = some v := by
  rw [List.getLast?_eq_getElem?] at hv ⊢
  rw [h.1]
  exact h.2 _ _ hv

/-- Where `validateCells` answers, every sequence the cells may stand for validates so (10_state.md R41). -/
theorem validateCells_eq_some {cs : List (Option Byte)} {n : Nat} {r : Bool} {b : List Byte} (h : validateCells cs n = some r)
    (hb : Fills cs b) : validate b n = r := by
  cases r with
  | true =>
    obtain ⟨v, hv, h0, hn, hl, ht⟩ := validateCells_eq_true h
    refine (validate_iff b n).2 ⟨v, hb.getLast? hv, h0, hn, hb.1 ▸ hl, fun k x hk hx => ?_⟩
    have hk' : k < cs.length := hb.1 ▸ (List.getElem?_eq_some_iff.1 hx).1
    have hc := ht k _ (hb.1 ▸ hk) (List.getElem?_eq_getElem hk')
    have := hb.2 k v (by rw [List.getElem?_eq_getElem hk', hc])
    rw [hx] at this
    exact Option.some.inj this
  | false =>
    rw [Bool.eq_false_iff]
    intro hv
    obtain ⟨v, hl, h0, hn, hlen, ht⟩ := (validate_iff b n).1 hv
    unfold validateCells at h
    split at h
    · rename_i hc
      rw [List.getLast?_eq_none_iff] at hc
      have := hb.1
      simp [hc] at this
      simp [this] at hl
    · split at h
      · rename_i h'
        subst h'
        exact h0 (BitVec.eq_of_toNat_eq (Nat.le_zero.1 hn))
      · cases h
    · rename_i w hw
      have hwv : w = v := Option.some.inj ((hb.getLast? hw).symm.trans hl)
      subst hwv
      split at h
      · rename_i h'
        rcases h' with h' | h' | h'
        · exact h0 h'
        · omega
        · rw [← hb.1] at h'; omega
      · simp only at h
        split at h
        · rename_i hany
          rw [List.any_eq_true] at hany
          obtain ⟨x, hx, hxv⟩ := hany
          obtain ⟨i, hi⟩ := List.mem_iff_getElem?.1 hx
          rw [List.getElem?_drop] at hi
          simp only [Bool.and_eq_true, decide_eq_true_eq] at hxv
          obtain ⟨u, rfl⟩ := Option.ne_none_iff_exists'.1 hxv.1
          have := ht (cs.length - w.toNat + i) u (by rw [hb.1]; exact Nat.le_add_right _ i) (hb.2 _ _ hi)
          exact hxv.2 (congrArg some this)
        · split at h <;> cases h

/-- Where `validateCells` does not answer, the cells may stand for a sequence that validates and for one that does not. -/
theorem validateCells_eq_none {cs : List (Option Byte)} {n : Nat} (h : validateCells cs n = none) :
    (∃ b, Fills cs b ∧ validate b n = true) ∧ ∃ b, Fills cs b ∧ validate b n = false := by
  unfold validateCells at h
  split at h
  · cases h
  · rename_i hl
    split at h
    · cases h
    · rename_i hn
      have hl' : ∀ d : Byte, (cs.map (·.getD d)).getLast? = some d := fun d => by simp [List.getLast?_map, hl]
      have hpos : 0 < cs.length := List.length_pos_iff.2 fun h => by simp [h] at hl
      refine ⟨⟨_, fills_getD cs 1, (validate_iff _ _).2 ⟨1, hl' 1, by decide, by simp; omega, by simp; omega, ?_⟩⟩,
        _, fills_getD cs 0, Bool.eq_false_iff.2 fun hv => ?_⟩
      · intro k x hk hx
        have hk' := (List.getElem?_eq_some_iff.1 hx).1
        rw [List.length_map] at hk hk'
        have e : k = cs.length - 1 := by simp at hk; omega
        have := hl' 1
        rw [List.getLast?_eq_getElem?, List.length_map, ← e, hx] at this
        exact Option.some.inj this
      · obtain ⟨v, h1, h0, _⟩ := (validate_iff _ _).1 hv
        rw [hl' 0] at h1
        exact h0 (Option.some.inj h1).symm
  · rename_i v hl
    split at h
    · cases h
    · rename_i hn
      push Not at hn
      simp only at h
      split at h
      · cases h
      · rename_i hany
        split at h
        · cases h
        · rename_i hall
          rw [Bool.not_eq_true, ← Bool.not_eq_true', List.not_any_eq_all_not] at hany
          have hany := (all_drop_iff _ _ _).1 hany
          have hl' : ∀ d : Byte, (cs.map (·.getD d)).getLast? = some v := fun d => by simp [List.getLast?_map, hl]
          refine ⟨⟨_, fills_getD cs v, (validate_iff _ _).2 ⟨v, hl' v, hn.1, hn.2.1, by simpa using hn.2.2, fun k x hk hx => ?_⟩⟩,
            _, fills_getD cs (v + 1), Bool.eq_false_iff.2 fun hv => ?_⟩
          · rw [List.length_map] at hk
            rw [List.getElem?_map, Option.map_eq_some_iff] at hx
            obtain ⟨o, ho, rfl⟩ := hx
            have := hany k o hk ho
            cases o with
            | none => rfl
            | some u => simpa using this
          · obtain ⟨w, h1, h0, _, _, ht⟩ := (validate_iff _ _).1 hv
            rw [hl' (v + 1)] at h1
            cases h1
            rw [Bool.not_eq_true, List.all_eq_false] at hall
            obtain ⟨x, hx, hxn⟩ := hall
            obtain ⟨i, hi⟩ := List.mem_iff_getElem?.1 hx
            rw [List.getElem?_drop] at hi
            have hxn : x = none := by simpa using hxn
            subst hxn
            have := ht (cs.length - v.toNat + i) (v + 1) (by simp) (by rw [List.getElem?_map, hi]; rfl)
            simp at this

/-! ## The buffer operation -/

theorem State.inRange_iff (s : State) (a n : Nat) : s.inRange a n = true ↔ a + n ≤ s.config.dmemSize := by
  simp [State.inRange]

/-- A buffer operation whose ranges are in DMEM and whose input is written answers what `f` gives. -/
theorem State.runBuffer_ok {s : State} {n : Nat} {f : List Byte → Except Fault (List Byte)} {b out : List Byte}
    (hs : s.inRange s.src.toNat s.len.toNat = true) (hd : s.inRange s.dst.toNat n = true)
    (hb : s.dmem.readBytes s.src.toNat s.len.toNat = some b) (hf : f b = .ok out) :
    s.runBuffer n f = .next (s.writeOutput out) := by simp [State.runBuffer, hs, hd, hb, hf]

/-- A buffer operation whose ranges are in DMEM stops on an unwritten byte of its input (10_state.md R41). -/
theorem State.runBuffer_unwritten {s : State} {n : Nat} (f : List Byte → Except Fault (List Byte))
    (hs : s.inRange s.src.toNat s.len.toNat = true) (hd : s.inRange s.dst.toNat n = true)
    (hb : s.dmem.readBytes s.src.toNat s.len.toNat = none) : s.runBuffer n f = .fault .unwrittenDmem := by
  simp [State.runBuffer, hs, hd, hb]

/-- It stops where `f` stops on its input. -/
theorem State.runBuffer_error {s : State} {n : Nat} {f : List Byte → Except Fault (List Byte)} {b : List Byte} {r : Fault}
    (hs : s.inRange s.src.toNat s.len.toNat = true) (hd : s.inRange s.dst.toNat n = true)
    (hb : s.dmem.readBytes s.src.toNat s.len.toNat = some b) (hf : f b = .error r) : s.runBuffer n f = .fault r := by
  simp [State.runBuffer, hs, hd, hb, hf]

/-- Exactly when a buffer operation stops: its ranges are in DMEM, and its input is unwritten or `f` stops on it. -/
theorem State.runBuffer_eq_fault {s : State} {n : Nat} {f : List Byte → Except Fault (List Byte)} {r : Fault} :
    s.runBuffer n f = .fault r ↔ s.inRange s.src.toNat s.len.toNat = true ∧ s.inRange s.dst.toNat n = true ∧
      ((s.dmem.readBytes s.src.toNat s.len.toNat = none ∧ r = .unwrittenDmem) ∨
        ∃ b, s.dmem.readBytes s.src.toNat s.len.toNat = some b ∧ f b = .error r) := by
  unfold State.runBuffer
  cases s.inRange s.src.toNat s.len.toNat <;> cases s.inRange s.dst.toNat n <;> simp
  cases s.dmem.readBytes s.src.toNat s.len.toNat with
  | none => simp [eq_comm]
  | some b => cases hf : f b <;> simp [hf]

/-- Everything a buffer operation can answer as a next state: a bounds error, or the output of its input snapshot. -/
theorem State.runBuffer_next {s t : State} {n : Nat} {f : List Byte → Except Fault (List Byte)}
    (h : s.runBuffer n f = .next t) :
    (t = s.raiseBufferError errBounds ∧
      ¬ (s.inRange s.src.toNat s.len.toNat = true ∧ s.inRange s.dst.toNat n = true)) ∨
    (s.inRange s.src.toNat s.len.toNat = true ∧ s.inRange s.dst.toNat n = true ∧
      ∃ b out, s.dmem.readBytes s.src.toNat s.len.toNat = some b ∧ f b = .ok out ∧ t = s.writeOutput out) := by
  unfold State.runBuffer at h
  split at h
  · cases h; exact .inl ⟨rfl, fun c => by simp_all⟩
  · rename_i hs
    split at h
    · cases h; exact .inl ⟨rfl, fun c => by simp_all⟩
    · rename_i hd
      split at h
      · cases h
      · rename_i b hb
        split at h
        · cases h
        · rename_i out hf
          cases h
          exact .inr ⟨by simpa using hs, by simpa using hd, b, out, hb, hf, rfl⟩

end Sys2Proof.Machine
end

