-- ==== Sys2Proof/Laws/Modes.lean ====
section
/-! SUPPORT. The mode functions: the length of each output, and the blocks of a buffer (44_modes.md R201 to R204). -/

namespace Sys2Proof.Machine

@[simp] theorem getElem_blockAt (b : List Byte) (i k : Nat) (h : k < 16) : (blockAt b i)[k] = b.getD (16 * i + k) 0 := by
  simp [blockAt]

@[simp] theorem length_blocksOf (b : List Byte) : (blocksOf b).length = b.length / 16 := by simp [blocksOf]

@[simp] theorem length_bytesOf (bs : List Block) : (bytesOf bs).length = 16 * bs.length := by
  induction bs with
  | nil => rfl
  | cons x xs ih => simp only [bytesOf, List.flatMap_cons, List.length_append, Vector.length_toList, List.length_cons] at ih ⊢; omega

@[simp] theorem bytesOf_nil : bytesOf [] = [] := rfl
@[simp] theorem bytesOf_cons (x : Block) (xs : List Block) : bytesOf (x :: xs) = x.toList ++ bytesOf xs := rfl

/-- Byte 16i + k of the bytes of a sequence of blocks is byte k of block i. -/
theorem getElem?_bytesOf (bs : List Block) (i k : Nat) (hk : k < 16) :
    (bytesOf bs)[16 * i + k]? = (bs[i]?).map fun x => x[k] := by
  induction bs generalizing i with
  | nil => simp
  | cons x xs ih =>
    rw [bytesOf_cons]
    cases i with
    | zero => simp [List.getElem?_append_left, hk]
    | succ i =>
      rw [List.getElem?_append_right (by simp; omega), Vector.length_toList, show 16 * (i + 1) + k - 16 = 16 * i + k by omega, ih]
      simp

/-- The blocks of a sequence of blocks are the sequence. -/
theorem blocksOf_bytesOf (bs : List Block) : blocksOf (bytesOf bs) = bs := by
  apply List.ext_getElem (by simp)
  intro i h1 h2
  simp only [blocksOf, List.getElem_map, List.getElem_range]
  apply Vector.ext
  intro k hk
  rw [getElem_blockAt, List.getD_eq_getElem?_getD, getElem?_bytesOf bs i k hk]
  simp [h2]

/-- An aligned buffer is the bytes of its blocks. -/
theorem bytesOf_blocksOf {b : List Byte} (h : b.length % 16 = 0) : bytesOf (blocksOf b) = b := by
  apply List.ext_getElem?
  intro j
  rw [show j = 16 * (j / 16) + j % 16 by omega, getElem?_bytesOf _ _ _ (by omega)]
  by_cases hj : j / 16 < b.length / 16
  · have : 16 * (j / 16) + j % 16 < b.length := by omega
    simp [blocksOf, hj, this]
  · have : ¬ 16 * (j / 16) + j % 16 < b.length := by omega
    simp [blocksOf, hj, this]

@[simp] theorem length_cbcEncBlocks (rk : RoundKeys) (prev : Block) (xs : List Block) :
    (cbcEncBlocks rk prev xs).length = xs.length := by
  induction xs generalizing prev with
  | nil => rfl
  | cons x xs ih => simp [cbcEncBlocks, ih]

@[simp] theorem length_cbcDecBlocks (rk : RoundKeys) (prev : Block) (xs : List Block) :
    (cbcDecBlocks rk prev xs).length = xs.length := by
  induction xs generalizing prev with
  | nil => rfl
  | cons x xs ih => simp [cbcDecBlocks, ih]

theorem sixteen_mul_padLength (l : Nat) : 16 * (padLength l 16 / 16) = padLength l 16 := by
  have := padLength_mod l (n := 16) (by omega); omega

@[simp] theorem length_ecbEnc (b : List Byte) (rk : RoundKeys) : (ecbEnc b rk).length = padLength b.length 16 := by
  simp [ecbEnc, sixteen_mul_padLength]
@[simp] theorem length_ecbDec (b : List Byte) (rk : RoundKeys) : (ecbDec b rk).length = padLength b.length 16 := by
  simp [ecbDec, sixteen_mul_padLength]
@[simp] theorem length_cbcEnc (b : List Byte) (rk : RoundKeys) (iv : Block) :
    (cbcEnc b rk iv).length = padLength b.length 16 := by simp [cbcEnc, sixteen_mul_padLength]
@[simp] theorem length_cbcDec (b : List Byte) (rk : RoundKeys) (iv : Block) :
    (cbcDec b rk iv).length = padLength b.length 16 := by simp [cbcDec, sixteen_mul_padLength]

/-! ## The chained modes, block by block (R202, R203) -/

/-- Block i of the CBC ciphertext: the plaintext block XOR the ciphertext block before it, or the IV, through the cipher. -/
theorem getElem?_cbcEncBlocks (rk : RoundKeys) (prev : Block) (xs : List Block) (i : Nat) :
    (cbcEncBlocks rk prev xs)[i]? =
      (xs[i]?).map fun x => cipher (xorBlock x (if i = 0 then prev else ((cbcEncBlocks rk prev xs)[i - 1]?).getD prev)) rk := by
  induction xs generalizing prev i with
  | nil => simp [cbcEncBlocks]
  | cons x xs ih =>
    cases i with
    | zero => simp [cbcEncBlocks]
    | succ i =>
      simp only [cbcEncBlocks, List.getElem?_cons_succ, Nat.succ_ne_zero, if_false, Nat.add_sub_cancel]
      rw [ih]
      generalize cipher (xorBlock x prev) rk = y
      cases h : xs[i]? with
      | none => simp only [Option.map_none]
      | some z =>
        have hi : i < xs.length := (List.getElem?_eq_some_iff.1 h).1
        suffices hp : (if i = 0 then y else ((cbcEncBlocks rk y xs)[i - 1]?).getD y) =
            ((y :: cbcEncBlocks rk y xs)[i]?).getD prev by rw [hp]
        cases i with
        | zero => rfl
        | succ i =>
          rw [if_neg (Nat.succ_ne_zero i), List.getElem?_cons_succ, Nat.add_sub_cancel,
            List.getElem?_eq_getElem (by rw [length_cbcEncBlocks]; omega)]
          rfl

/-- Block i of the CBC plaintext: the ciphertext block through the inverse cipher, XOR the one before it, or the IV. -/
theorem getElem?_cbcDecBlocks (rk : RoundKeys) (prev : Block) (xs : List Block) (i : Nat) :
    (cbcDecBlocks rk prev xs)[i]? =
      (xs[i]?).map fun x => xorBlock (invCipher x rk) (if i = 0 then prev else (xs[i - 1]?).getD prev) := by
  induction xs generalizing prev i with
  | nil => simp [cbcDecBlocks]
  | cons x xs ih =>
    cases i with
    | zero => simp [cbcDecBlocks]
    | succ i =>
      simp only [cbcDecBlocks, List.getElem?_cons_succ]
      rw [ih]
      cases i with
      | zero => simp
      | succ i =>
        cases h : xs[i + 1]? with
        | none => rfl
        | some y =>
          have hi : i < xs.length := by have := (List.getElem?_eq_some_iff.1 h).1; omega
          simp [hi]

theorem getElem?_blocksOf {b : List Byte} {i : Nat} (h : i < b.length / 16) : (blocksOf b)[i]? = some (blockAt b i) := by
  simp [blocksOf, h]

/-! ## CTR byte by byte -/

/-- The keystream input block is the nonce and then the counter, both little-endian (R204). -/
theorem getElem_counterBlock (nonce : BitVec 64) (c k : Nat) (h : k < 16) :
    (counterBlock nonce c)[k] =
      if k < 8 then nonce.extractLsb' (8 * k) 8 else (BitVec.ofNat 64 c).extractLsb' (8 * (k - 8)) 8 := by
  show (le64 nonce ++ le64 (BitVec.ofNat 64 c) : Vector Byte (8 + 8))[k] = _
  rw [Vector.getElem_append]
  split <;> simp [le64]

/-- The bytes of chunk c of the CTR output. -/
def ctrChunk (b : List Byte) (rk : RoundKeys) (nonce : BitVec 64) (c : Nat) : List Byte :=
  List.zipWith (fun x y => x ^^^ y) ((b.drop (16 * c)).take 16) (cipher (counterBlock nonce c) rk).toList

theorem length_ctrChunk (b : List Byte) (rk : RoundKeys) (nonce : BitVec 64) (c : Nat) :
    (ctrChunk b rk nonce c).length = min 16 (b.length - 16 * c) := by simp [ctrChunk]

/-- The first n chunks hold min(16n, len(b)) bytes; byte j of them is byte j of the input XOR byte j mod 16 of keystream block
j div 16. -/
theorem getElem?_ctrChunks (b : List Byte) (rk : RoundKeys) (nonce : BitVec 64) (n : Nat) :
    ((List.range n).flatMap (ctrChunk b rk nonce)).length = min (16 * n) b.length ∧
    ∀ j, j < 16 * n → ((List.range n).flatMap (ctrChunk b rk nonce))[j]? =
      (b[j]?).map fun x => x ^^^ (cipher (counterBlock nonce (j / 16)) rk)[j % 16]'(Nat.mod_lt _ (by omega)) := by
  induction n with
  | zero => simp
  | succ n ih =>
    obtain ⟨hl, hv⟩ := ih
    rw [List.range_succ, List.flatMap_append]
    simp only [List.flatMap_cons, List.flatMap_nil, List.append_nil]
    refine ⟨by rw [List.length_append, hl, length_ctrChunk]; omega, fun j hj => ?_⟩
    by_cases h : j < 16 * n
    · by_cases hb : j < b.length
      · rw [List.getElem?_append_left (by omega), hv j h]
      · rw [List.getElem?_eq_none (by rw [List.length_append, hl, length_ctrChunk]; omega), List.getElem?_eq_none (by omega)]
        rfl
    · by_cases hb : j < b.length
      · rw [List.getElem?_append_right (by omega), hl, show min (16 * n) b.length = 16 * n by omega]
        have e1 : j / 16 = n := by omega
        have e2 : j % 16 = j - 16 * n := by omega
        simp only [ctrChunk, List.getElem?_zipWith, List.getElem?_take, List.getElem?_drop, e1, e2]
        rw [if_pos (by omega), show 16 * n + (j - 16 * n) = j by omega]
        have : j - 16 * n < 16 := by omega
        simp [hb, this]
      · rw [List.getElem?_eq_none (by rw [List.length_append, hl, length_ctrChunk]; omega), List.getElem?_eq_none (by omega)]
        rfl

@[simp] theorem length_ctr (b : List Byte) (rk : RoundKeys) (nonce : BitVec 64) : (ctr b rk nonce).length = b.length := by
  have := (getElem?_ctrChunks b rk nonce ((b.length + 15) / 16)).1
  rw [show ctr b rk nonce = (List.range ((b.length + 15) / 16)).flatMap (ctrChunk b rk nonce) from rfl, this]
  omega

/-- Byte j of the CTR output (44_modes.md R204). -/
theorem getElem?_ctr (b : List Byte) (rk : RoundKeys) (nonce : BitVec 64) (j : Nat) :
    (ctr b rk nonce)[j]? =
      (b[j]?).map fun x => x ^^^ (cipher (counterBlock nonce (j / 16)) rk)[j % 16]'(Nat.mod_lt _ (by omega)) := by
  by_cases h : j < 16 * ((b.length + 15) / 16)
  · exact (getElem?_ctrChunks b rk nonce _).2 j h
  · have hb : b.length ≤ j := by omega
    rw [List.getElem?_eq_none (by simpa using hb), List.getElem?_eq_none hb]
    rfl

/-! ## The IV -/

theorem State.withIv_ok {s : State} (f : Block → List Byte → List Byte) (b : List Byte)
    (h : b = [] ∨ s.ivReady = true) : s.withIv f b = .ok (f s.iv b) := by
  rcases h with h | h <;> simp [State.withIv, h]

theorem State.withIv_eq_ok {s : State} {f : Block → List Byte → List Byte} {b out : List Byte}
    (h : s.withIv f b = .ok out) : out = f s.iv b ∧ (b = [] ∨ s.ivReady = true) := by
  unfold State.withIv at h
  split at h
  · cases h; exact ⟨rfl, .inl ‹_›⟩
  · split at h
    · cases h; exact ⟨rfl, .inr ‹_›⟩
    · cases h

theorem State.withIv_unready {s : State} (f : Block → List Byte → List Byte) {b : List Byte} (hb : b ≠ [])
    (h : s.ivReady = false) : s.withIv f b = .error .unwrittenIv := by simp [State.withIv, hb, h]

theorem State.withIv_eq_error {s : State} {f : Block → List Byte → List Byte} {b : List Byte} {r : Fault} :
    s.withIv f b = .error r ↔ r = .unwrittenIv ∧ b ≠ [] ∧ s.ivReady = false := by
  unfold State.withIv
  by_cases hb : b = []
  · simp [hb]
  · cases s.ivReady <;> simp [hb, eq_comm]

/-! ## After the key step -/

/-- Everything ENC and DEC can answer as a next state before and after the key step (44_modes.md R210 step 1). -/
theorem State.afterKeyStep_next {s t : State} {body : State → Result} (h : s.afterKeyStep body = .next t) :
    (t = s.raiseBufferError errInvalidKeySize ∧ s.keyLen ≠ 16 ∧ s.keyLen ≠ 24 ∧ s.keyLen ≠ 32) ∨
    (t = s.raiseFault ∧ (s.keyLen = 24 ∨ s.keyLen = 32)) ∨
    (body (s.setRoundKeys (keyExpansion s.key128)) = .next t ∧ s.keyLen = 16 ∧ s.keyReady = true) := by
  unfold State.afterKeyStep at h
  rcases keyStep_cases s with ⟨e, hk⟩ | ⟨e, hk⟩ | ⟨e, hk⟩ | ⟨e, hk⟩ <;> rw [e] at h
  · cases h; exact .inl ⟨rfl, hk⟩
  · cases h; exact .inr (.inl ⟨rfl, hk⟩)
  · cases h
  · exact .inr (.inr ⟨h, hk⟩)

theorem State.afterKeyStep_ok {s : State} (body : State → Result) (h : s.keyLen = 16) (hk : s.keyReady = true) :
    s.afterKeyStep body = body (s.setRoundKeys (keyExpansion s.key128)) := by simp [State.afterKeyStep, keyStep_ok h hk]

theorem State.afterKeyStep_unwritten {s : State} (body : State → Result) (h : s.keyLen = 16) (hk : s.keyReady = false) :
    s.afterKeyStep body = .fault .unwrittenKey := by simp [State.afterKeyStep, keyStep_unwritten h hk]

/-- Exactly when ENC and DEC stop: the key step stops, or it succeeds and `body` stops. -/
theorem State.afterKeyStep_eq_fault {s : State} {body : State → Result} {r : Fault} : s.afterKeyStep body = .fault r ↔
    s.keyLen = 16 ∧ ((s.keyReady = false ∧ r = .unwrittenKey) ∨
      (s.keyReady = true ∧ body (s.setRoundKeys (keyExpansion s.key128)) = .fault r)) := by
  unfold State.afterKeyStep
  rcases keyStep_cases s with ⟨e, h⟩ | ⟨e, h⟩ | ⟨e, h⟩ | ⟨e, h⟩ <;> rw [e]
  · exact iff_of_false (by simp) fun c => h.1 c.1
  · rcases h with h | h <;> simp [h]
  · simp [h.1, h.2, eq_comm]
  · simp [h.1, h.2]

end Sys2Proof.Machine
end

