-- ==== Sys2Proof/Laws/Exec.lean ====
section
/-! SUPPORT. What the shared operations of the commands can answer, and, once for all commands, every form a command's next state
can have (exec_effect), from which invariants follow without unfolding a meaning again. -/

namespace Sys2Proof.Machine

/-! ## STATE and the key guard -/

theorem State.updateState_ok {s : State} (f : Block → Block) (h : s.stateReady = true) :
    s.updateState f = .next { s with state := f s.state, err := errOk } := by simp [State.updateState, h]

theorem State.updateState_unready {s : State} (f : Block → Block) (h : s.stateReady = false) :
    s.updateState f = .fault .unwrittenState := by simp [State.updateState, h]

theorem State.updateState_next {s t : State} {f : Block → Block} (h : s.updateState f = .next t) :
    s.stateReady = true ∧ t = { s with state := f s.state, err := errOk } := by
  unfold State.updateState at h
  split at h
  · cases h; exact ⟨‹_›, rfl⟩
  · cases h

theorem State.guardRk_valid {s : State} (body : RoundKeys → Result) (h : s.rkValid = true) : s.guardRk body = body s.rk := by
  simp [State.guardRk, h]

theorem State.guardRk_invalid {s : State} (body : RoundKeys → Result) (h : s.rkValid = false) :
    s.guardRk body = .next (s.finish errKeyNotExpanded) := by simp [State.guardRk, h]

theorem roundIndex_eq_some {j : Byte} {i : Fin 11} (h : roundIndex j = some i) : j.toNat = i.val := by
  unfold roundIndex at h
  split at h
  · cases h; rfl
  · cases h

theorem roundIndex_of_lt {j : Byte} (h : j.toNat < 11) : roundIndex j = some ⟨j.toNat, h⟩ := by simp [roundIndex, h]

theorem roundIndex_of_ge {j : Byte} (h : 11 ≤ j.toNat) : roundIndex j = none := by simp [roundIndex, Nat.not_lt.2 h]

/-! ## Commands that run to their end -/

theorem exec_ark {s : State} {j : Byte} (hj : j.toNat < 11) (h : s.rkValid = true) :
    exec (.ark j) s = s.updateState fun b => addRoundKey b s.rk ⟨j.toNat, hj⟩ := by
  simp only [exec, execArk, roundIndex_of_lt hj]
  exact State.guardRk_valid (fun rk => s.updateState fun b => addRoundKey b rk _) h

theorem exec_round {s : State} {j : Byte} (f : Bool) (hj : j.toNat < 11) (h : s.rkValid = true) :
    exec (.round j f) s = s.updateState fun b => applyRound b s.rk ⟨j.toNat, hj⟩ f := by
  simp only [exec, execRound, roundIndex_of_lt hj]
  exact State.guardRk_valid (fun rk => s.updateState fun b => applyRound b rk _ f) h

theorem exec_iround {s : State} {j : Byte} (f : Bool) (hj : j.toNat < 11) (h : s.rkValid = true) :
    exec (.iround j f) s = s.updateState fun b => applyInverseRound b s.rk ⟨j.toNat, hj⟩ f := by
  simp only [exec, execIround, roundIndex_of_lt hj]
  exact State.guardRk_valid (fun rk => s.updateState fun b => applyInverseRound b rk _ f) h

theorem exec_encb {s : State} (h : s.rkValid = true) : exec .encb s = s.updateState fun b => cipher b s.rk :=
  State.guardRk_valid (fun rk => s.updateState fun b => cipher b rk) h

theorem exec_decb {s : State} (h : s.rkValid = true) : exec .decb s = s.updateState fun b => invCipher b s.rk :=
  State.guardRk_valid (fun rk => s.updateState fun b => invCipher b rk) h

/-- On a written STATE the bypass flag of MIXC is that of the transform. -/
theorem exec_mixc {s : State} (f : Bool) (h : s.stateReady = true) :
    exec (.mixc f) s = s.updateState fun b => mixColumns b f := by
  cases f
  · rfl
  · rw [State.updateState_ok _ h]; rfl

theorem exec_imixc {s : State} (f : Bool) (h : s.stateReady = true) :
    exec (.imixc f) s = s.updateState fun b => invMixColumns b f := by
  cases f
  · rfl
  · rw [State.updateState_ok _ h]; rfl

/-- VALID on a written input answers `Validate` (43_padding.md R187). -/
theorem exec_valid_written {s : State} {b : List Byte} (n : Byte) (hs : s.inRange s.src.toNat s.len.toNat = true)
    (hb : s.dmem.readBytes s.src.toNat s.len.toNat = some b) :
    exec (.valid n) s = .next (s.finish (if validate b n.toNat then errOk else errPadding)) := by
  simp only [exec, execValid, hs, Memory.cells_of_readBytes hb, validateCells_map_some]
  cases validate b n.toNat <;> rfl

/-- UNPAD on a written input: validation, destination bounds, and the input without its last bytes (43_padding.md R186). -/
theorem exec_unpad_written {s : State} {b : List Byte} (n : Byte) (hs : s.inRange s.src.toNat s.len.toNat = true)
    (hb : s.dmem.readBytes s.src.toNat s.len.toNat = some b) :
    exec (.unpad n) s =
      if validate b n.toNat then
        if s.inRange s.dst.toNat (b.length - (b.getLastD 0).toNat) then
          .next (s.writeOutput (b.take (b.length - (b.getLastD 0).toNat)))
        else .next (s.raiseBufferError errBounds)
      else .next (s.raiseBufferError errPadding) := by
  simp only [exec, execUnpad, hs, Memory.cells_of_readBytes hb, validateCells_map_some, getLast_bind_map_some]
  rw [← Memory.readBytes_length hb]
  cases validate b n.toNat
  · rfl
  · have ht : allWritten ((b.map some).take (b.length - (b.getLastD 0).toNat)) =
        some (b.take (b.length - (b.getLastD 0).toNat)) := by rw [allWritten_eq_some, List.map_take]
    simp only [ht]
    cases s.inRange s.dst.toNat (b.length - (b.getLastD 0).toNat) <;> rfl

/-! ## Every effect of a command -/

/-- The state a command's last writes start from: the state itself, or, in KEXP, ENC and DEC, the state after a key step that
succeeded. -/
def KeyedFrom (s base : State) : Prop :=
  base = s ∨ (base = s.setRoundKeys (keyExpansion s.key128) ∧ s.keyLen = 16 ∧ s.keyReady = true)

/-- The last writes of a command, by the operation that makes them. -/
def EndsAs (base t : State) : Prop :=
  (∃ c ∈ writableCodes, c ≠ errUnimplemented ∧ t = base.finish c) ∨
  (∃ c ∈ writableCodes, c ≠ errUnimplemented ∧ t = base.raiseBufferError c) ∨
  t = base.raiseFault ∨
  (∃ v, t = base.setResult v) ∨
  (∃ b, base.stateReady = true ∧ t = { base with state := b, err := errOk }) ∨
  (∃ out, base.dst.toNat + out.length ≤ base.config.dmemSize ∧ t = base.writeOutput out)

theorem endsAs_finish {base : State} (c : BitVec 4) (h : c ∈ writableCodes) (h15 : c ≠ errUnimplemented) :
    EndsAs base (base.finish c) := .inl ⟨c, h, h15, rfl⟩

theorem endsAs_bufferError {base : State} (c : BitVec 4) (h : c ∈ writableCodes) (h15 : c ≠ errUnimplemented) :
    EndsAs base (base.raiseBufferError c) := .inr (.inl ⟨c, h, h15, rfl⟩)

theorem endsAs_updateState {s t : State} {f : Block → Block} (h : s.updateState f = .next t) : EndsAs s t := by
  obtain ⟨hr, rfl⟩ := State.updateState_next h
  exact .inr (.inr (.inr (.inr (.inl ⟨_, hr, rfl⟩))))

theorem endsAs_guardRk {s t : State} {f : RoundKeys → Block → Block} (h : (s.guardRk fun rk => s.updateState (f rk)) = .next t) :
    EndsAs s t := by
  unfold State.guardRk at h
  split at h
  · exact endsAs_updateState h
  · cases h; exact endsAs_finish _ (by decide) (by decide)

theorem endsAs_indexed {s t : State} {j : Byte} {f : Fin 11 → RoundKeys → Block → Block}
    (h : (match roundIndex j with
      | none => .next (s.finish errIllegalCommand)
      | some i => s.guardRk fun rk => s.updateState (f i rk)) = Host.Outcome.next t) : EndsAs s t := by
  split at h
  · cases h; exact endsAs_finish _ (by decide) (by decide)
  · exact endsAs_guardRk h

theorem endsAs_runBuffer {s t : State} {n : Nat} {f : List Byte → Except Fault (List Byte)}
    (hf : ∀ b out, b.length = s.len.toNat → f b = .ok out → out.length = n) (h : s.runBuffer n f = .next t) : EndsAs s t := by
  rcases State.runBuffer_next h with ⟨rfl, _⟩ | ⟨_, hd, b, out, hb, ho, rfl⟩
  · exact endsAs_bufferError _ (by decide) (by decide)
  · refine .inr (.inr (.inr (.inr (.inr ⟨out, ?_, rfl⟩))))
    rw [hf b out (Memory.readBytes_length hb) ho]
    exact (State.inRange_iff ..).1 hd

theorem endsAs_codec {s t : State} {body : State → Result} (hb : ∀ u t, body u = .next t → EndsAs u t)
    (h : s.afterKeyStep body = .next t) : ∃ base, KeyedFrom s base ∧ EndsAs base t := by
  rcases State.afterKeyStep_next h with ⟨rfl, _⟩ | ⟨rfl, _⟩ | ⟨h, h16, hk⟩
  · exact ⟨s, .inl rfl, endsAs_bufferError _ (by decide) (by decide)⟩
  · exact ⟨s, .inl rfl, .inr (.inr (.inl rfl))⟩
  · exact ⟨_, .inr ⟨rfl, h16, hk⟩, hb _ _ h⟩

/-- Every next state of every command: a key step or none, and then one of the six ends. -/
theorem exec_effect {i : Instr} {s t : State} (h : exec i s = .next t) : ∃ base, KeyedFrom s base ∧ EndsAs base t := by
  cases i with
  | gfmul a b => cases h; exact ⟨s, .inl rfl, .inr (.inr (.inr (.inl ⟨_, rfl⟩)))⟩
  | sbox x => cases h; exact ⟨s, .inl rfl, .inr (.inr (.inr (.inl ⟨_, rfl⟩)))⟩
  | isbox y => cases h; exact ⟨s, .inl rfl, .inr (.inr (.inr (.inl ⟨_, rfl⟩)))⟩
  | subb => exact ⟨s, .inl rfl, endsAs_updateState h⟩
  | isubb => exact ⟨s, .inl rfl, endsAs_updateState h⟩
  | shr => exact ⟨s, .inl rfl, endsAs_updateState h⟩
  | ishr => exact ⟨s, .inl rfl, endsAs_updateState h⟩
  | mixc f =>
    refine ⟨s, .inl rfl, ?_⟩
    simp only [exec, execMixc] at h
    split at h
    · cases h; exact endsAs_finish _ (by decide) (by decide)
    · exact endsAs_updateState h
  | imixc f =>
    refine ⟨s, .inl rfl, ?_⟩
    simp only [exec, execImixc] at h
    split at h
    · cases h; exact endsAs_finish _ (by decide) (by decide)
    · exact endsAs_updateState h
  | ark j => exact ⟨s, .inl rfl, endsAs_indexed (f := fun i rk b => addRoundKey b rk i) h⟩
  | round j f => exact ⟨s, .inl rfl, endsAs_indexed (f := fun i rk b => applyRound b rk i f) h⟩
  | iround j f => exact ⟨s, .inl rfl, endsAs_indexed (f := fun i rk b => applyInverseRound b rk i f) h⟩
  | encb => exact ⟨s, .inl rfl, endsAs_guardRk (f := fun rk b => cipher b rk) h⟩
  | decb => exact ⟨s, .inl rfl, endsAs_guardRk (f := fun rk b => invCipher b rk) h⟩
  | kexp =>
    simp only [exec, execKexp] at h
    rcases keyStep_cases s with ⟨e, hk⟩ | ⟨e, hk⟩ | ⟨e, hk⟩ | ⟨e, hk⟩ <;> rw [e] at h
    · cases h; exact ⟨s, .inl rfl, endsAs_finish _ (by decide) (by decide)⟩
    · cases h; exact ⟨s, .inl rfl, .inr (.inr (.inl rfl))⟩
    · cases h
    · cases h; exact ⟨_, .inr ⟨rfl, hk⟩, endsAs_finish _ (by decide) (by decide)⟩
  | enc m =>
    refine endsAs_codec (fun u t hu => ?_) h
    cases m with
    | ecb => exact endsAs_runBuffer (fun b out hl ho => by cases ho; simp [hl]) hu
    | cbc => exact endsAs_runBuffer (fun b out hl ho => by rw [(State.withIv_eq_ok ho).1]; simp [hl]) hu
    | ctr => exact endsAs_runBuffer (fun b out hl ho => by cases ho; simp [hl]) hu
    | gcm => cases hu; exact .inr (.inr (.inl rfl))
  | dec m =>
    refine endsAs_codec (fun u t hu => ?_) h
    cases m with
    | ecb => exact endsAs_runBuffer (fun b out hl ho => by cases ho; simp [hl]) hu
    | cbc => exact endsAs_runBuffer (fun b out hl ho => by rw [(State.withIv_eq_ok ho).1]; simp [hl]) hu
    | ctr => exact endsAs_runBuffer (fun b out hl ho => by cases ho; simp [hl]) hu
    | gcm => cases hu; exact .inr (.inr (.inl rfl))
  | pad n =>
    refine ⟨s, .inl rfl, ?_⟩
    simp only [exec, execPad] at h
    split at h
    · cases h; exact endsAs_bufferError _ (by decide) (by decide)
    · exact endsAs_runBuffer (fun b out hl ho => by cases ho; simp [hl]) h
  | unpad n =>
    refine ⟨s, .inl rfl, ?_⟩
    simp only [exec, execUnpad] at h
    split at h
    · cases h; exact endsAs_bufferError _ (by decide) (by decide)
    · split at h
      · cases h
      · cases h; exact endsAs_bufferError _ (by decide) (by decide)
      · split at h
        · cases h; exact endsAs_bufferError _ (by decide) (by decide)
        · rename_i hd
          split at h
          · cases h
          · rename_i out ho
            cases h
            refine .inr (.inr (.inr (.inr (.inr ⟨out, ?_, rfl⟩))))
            have hl := congrArg List.length (allWritten_eq_some.1 ho)
            rw [Bool.not_eq_true, Bool.not_eq_false, State.inRange_iff] at hd
            simp only [List.length_take, List.length_map, Memory.cells_length] at hl
            omega
  | valid n =>
    refine ⟨s, .inl rfl, ?_⟩
    simp only [exec, execValid] at h
    split at h
    · cases h; exact endsAs_finish _ (by decide) (by decide)
    · split at h <;> cases h <;> exact endsAs_finish _ (by decide) (by decide)

end Sys2Proof.Machine
end

