-- ==== Sys2Proof/Laws/Step.lean ====
section
/-! SUPPORT. What a host access selects, what a step can answer, and one lemma that carries an invariant through every step. -/

namespace Sys2Proof.Machine

/-! ## The address map -/

/-- A row that an access selects is one of the map, and the offset lies in it. -/
theorem rowAt_eq_some {c : Config} {addr o : Nat} {r : MapRow} (h : rowAt c addr = some (r, o)) :
    c.engineBase ≤ addr ∧ o = addr - c.engineBase ∧ r ∈ addressMap c ∧ r.base ≤ o ∧ o < r.base + r.size := by
  unfold rowAt at h
  split at h
  · cases h
  · split at h
    · cases h
    · rename_i r' hf
      cases h
      have h1 := List.find?_some hf
      simp only [MapRow.holds, Bool.and_eq_true, decide_eq_true_eq] at h1
      exact ⟨by omega, rfl, List.mem_of_find?_eq_some hf, h1⟩

/-- A DMEM row of the map is the whole of DMEM. -/
theorem dmem_row {c : Config} {r : MapRow} (h : r ∈ addressMap c) (hn : r.name = .array .dmem) :
    r.base = 0x1000 ∧ r.size = c.dmemSize := by
  simp only [addressMap, List.mem_cons, List.not_mem_nil, or_false] at h
  rcases h with h | h | h | h | h | h | h | h | h | h | h | h | h | h | h <;> subst h <;> simp_all

theorem locate8_dmem {c : Config} {addr i : Nat} (h : locate8 c addr = .ok (.dmem, i)) : i < c.dmemSize := by
  unfold locate8 at h
  split at h
  · cases h
  · rename_i r o hr
    obtain ⟨_, _, hm, h1, h2⟩ := rowAt_eq_some hr
    split at h
    · rename_i hn
      cases h
      obtain ⟨hb, hs⟩ := dmem_row hm hn
      omega
    · cases h
    · cases h

theorem locate32_dmem {c : Config} {addr i : Nat} (h : locate32 c addr = .ok (.array .dmem, i)) : i + 3 < c.dmemSize := by
  unfold locate32 at h
  split at h
  · cases h
  · rename_i r o hr
    obtain ⟨_, _, hm, h1, h2⟩ := rowAt_eq_some hr
    split at h
    · cases h
    · split at h
      · rename_i h3
        obtain ⟨hn, hi⟩ := Prod.mk.inj (Except.ok.inj h)
        obtain ⟨hb, hs⟩ := dmem_row hm hn
        simp only [MapRow.holds, Bool.and_eq_true, decide_eq_true_eq] at h3
        omega
      · cases h

/-- The access at ENGINE_BASE is CMD. -/
theorem locate32_cmd (c : Config) : locate32 c c.engineBase = .ok (.cmd, 0) := by
  simp [locate32, rowAt, addressMap, MapRow.holds]

/-! ## Reads draw free bytes and change nothing else of the engine -/

theorem State.drawByte_snd (s : State) (c : Option Byte) : ∃ n, (s.drawByte c).2 = { s with draws := n } := by
  cases c with
  | none => exact ⟨s.draws + 1, rfl⟩
  | some v => exact ⟨s.draws, rfl⟩

theorem State.readArrayWord_snd (s : State) (a : ArrayName) (i : Nat) :
    ∃ n, (s.readArrayWord a i).2 = { s with draws := n } := by
  simp only [State.readArrayWord]
  obtain ⟨n0, h0⟩ := s.drawByte_snd (s.arrayByte a i)
  obtain ⟨n1, h1⟩ := (s.drawByte (s.arrayByte a i)).2.drawByte_snd (s.arrayByte a (i + 1))
  obtain ⟨n2, h2⟩ := ((s.drawByte (s.arrayByte a i)).2.drawByte (s.arrayByte a (i + 1))).2.drawByte_snd (s.arrayByte a (i + 2))
  obtain ⟨n3, h3⟩ := (((s.drawByte (s.arrayByte a i)).2.drawByte (s.arrayByte a (i + 1))).2.drawByte
    (s.arrayByte a (i + 2))).2.drawByte_snd (s.arrayByte a (i + 3))
  exact ⟨n3, by rw [h3, h2, h1, h0]⟩

/-! ## Steps -/

/-- What a host write to the engine can be, other than a command. -/
inductive HostWrite (s : State) : State → Prop
  | reg (r : RegName) (v : Word) : HostWrite s (s.writeReg r v)
  | byte (a : ArrayName) (i : Nat) (v : Byte) (h : a = .dmem → i < s.config.dmemSize) : HostWrite s (s.writeArrayByte a i v)
  | word (a : ArrayName) (i : Nat) (v : Word) (h : a = .dmem → i + 3 < s.config.dmemSize) :
      HostWrite s (s.writeArrayWord a i v)

/-- Everything a host event can answer as a next state: a read, a write, a command word, or the reset. -/
theorem hostEvent_next {e : HostEvent} {s t : State} (h : hostEvent e s = .next t) :
    (∃ d n, t = { s with readData := d, draws := n }) ∨ HostWrite s t ∨ (∃ w, issue w s = .next t) ∨
      (e = .reset ∧ t = s.platformReset) := by
  cases e with
  | read8 addr =>
    simp only [hostEvent] at h
    split at h
    · cases h
    · rename_i a i _
      cases h
      obtain ⟨n, hn⟩ := s.drawByte_snd (s.arrayByte a i)
      exact .inl ⟨_, n, by rw [hn]⟩
  | read32 addr =>
    simp only [hostEvent] at h
    split at h
    · cases h
    · cases h; exact .inl ⟨_, s.draws, rfl⟩
    · cases h; exact .inl ⟨_, s.draws, rfl⟩
    · rename_i a i _
      cases h
      obtain ⟨n, hn⟩ := s.readArrayWord_snd a i
      exact .inl ⟨_, n, by rw [hn]⟩
  | write8 addr v =>
    simp only [hostEvent] at h
    split at h
    · cases h
    · rename_i a i hl
      cases h
      exact .inr (.inl (.byte a i v fun ha => locate8_dmem (ha ▸ hl)))
  | write32 addr v =>
    simp only [hostEvent] at h
    split at h
    · cases h
    · exact .inr (.inr (.inl ⟨v, h⟩))
    · rename_i r _ _
      cases h
      exact .inr (.inl (.reg r v))
    · rename_i a i hl
      cases h
      exact .inr (.inl (.word a i v fun ha => locate32_dmem (ha ▸ hl)))
  | reset => cases h; exact .inr (.inr (.inr ⟨rfl, rfl⟩))

/-- Everything a command word can do: nothing while faulted, ERR 6 if it is illegal, its command otherwise. -/
theorem issue_next {w : Word} {s t : State} (h : issue w s = .next t) :
    (s.fault = true ∧ t = s) ∨ (s.fault = false ∧ t = s.finish errIllegalCommand) ∨
      (s.fault = false ∧ ∃ i, decode w = .ok i ∧ exec i s = .next t) := by
  unfold issue at h
  split at h
  · cases h; exact .inl ⟨‹_›, rfl⟩
  · rename_i hf
    rw [Bool.not_eq_true] at hf
    split at h
    · cases h; exact .inr (.inl ⟨hf, rfl⟩)
    · rename_i i hi
      exact .inr (.inr ⟨hf, i, hi, h⟩)

/-- Everything a command can do from a state that is not faulted, in terms of its two parts. -/
theorem issue_effect {w : Word} {s t : State} (h : issue w s = .next t) :
    t = s ∨ (s.fault = false ∧ ∃ base, KeyedFrom s base ∧ EndsAs base t) := by
  rcases issue_next h with ⟨_, rfl⟩ | ⟨hf, rfl⟩ | ⟨hf, i, _, h⟩
  · exact .inl rfl
  · exact .inr ⟨hf, s, .inl rfl, endsAs_finish _ (by decide) (by decide)⟩
  · exact .inr ⟨hf, exec_effect h⟩

/-- An invariant that ignores the host's queue, reads and counter, is kept by host writes, by the two parts of every command, and
by reset, is kept by every step. -/
theorem step_keeps {P : State → Prop}
    (hHost : ∀ s l d n, P s → P { s with pending := l, readData := d, draws := n })
    (hWrite : ∀ s t, P s → HostWrite s t → P t)
    (hKey : ∀ s base, P s → s.fault = false → KeyedFrom s base → P base ∧ base.fault = false)
    (hEnd : ∀ s t, P s → s.fault = false → EndsAs s t → P t)
    (hReset : ∀ s, P s → P s.platformReset)
    {s t : State} (hs : P s) (h : step s = .next t) : P t := by
  unfold step at h
  split at h
  · cases h; exact hs
  · rename_i e rest _
    have hs' : P { s with pending := rest } := hHost s rest s.readData s.draws hs
    rcases hostEvent_next h with ⟨d, n, rfl⟩ | hw | ⟨w, hw⟩ | ⟨_, rfl⟩
    · exact hHost s rest d n hs
    · exact hWrite _ _ hs' hw
    · rcases issue_effect hw with rfl | ⟨hf, base, hk, he⟩
      · exact hs'
      · obtain ⟨hb, hbf⟩ := hKey _ base hs' hf hk
        exact hEnd base t hb hbf he
    · exact hReset _ hs'

end Sys2Proof.Machine
end

