-- ==== Sys2Proof/Laws/Bus.lean ====
section
/-! SUPPORT. The bus: where an access to each range goes, what byte a host write leaves in a byte range, and the word a read of four
written bytes gives (20_memory.md R51 to R54). -/

namespace Sys2Proof.Machine

/-! ## Where an access goes -/

/-- The first offset and the size of a byte range (10_state.md R23). -/
def arrayRange (c : Config) : ArrayName → Nat × Nat
  | .key => (0x40, 32)
  | .iv => (0x60, 16)
  | .state => (0x70, 16)
  | .rk => (0x80, 176)
  | .dmem => (0x1000, c.dmemSize)

theorem rowAt_array {c : Config} {a : ArrayName} {o : Nat} (h1 : (arrayRange c a).1 ≤ o)
    (h2 : o < (arrayRange c a).1 + (arrayRange c a).2) :
    rowAt c (c.engineBase + o) = some (⟨.array a, (arrayRange c a).1, (arrayRange c a).2⟩, o) := by
  have h40 : 0x40 ≤ o := by cases a <;> simp [arrayRange] at h1 <;> omega
  unfold rowAt
  rw [if_neg (by omega), Nat.add_sub_cancel_left]
  simp only [addressMap, List.find?_cons, MapRow.holds]
  have e4 : ¬ o < 4 := by omega
  have e8 : ¬ o < 8 := by omega
  have e12 : ¬ o < 12 := by omega
  have e16 : ¬ o < 16 := by omega
  have e20 : ¬ o < 20 := by omega
  have e24 : ¬ o < 24 := by omega
  have e28 : ¬ o < 28 := by omega
  have e32 : ¬ o < 32 := by omega
  have e36 : ¬ o < 36 := by omega
  have e40 : ¬ o < 40 := by omega
  cases a <;> simp only [arrayRange] at h1 h2 ⊢
  · simp [e4, e8, e12, e16, e20, e24, e28, e32, e36, e40, h1, h2]
  · have k1 : ¬ o < 96 := by omega
    simp [e4, e8, e12, e16, e20, e24, e28, e32, e36, e40, k1, h1, h2]
  · have k1 : ¬ o < 96 := by omega
    have k2 : ¬ o < 112 := by omega
    simp [e4, e8, e12, e16, e20, e24, e28, e32, e36, e40, k1, k2, h1, h2]
  · have k1 : ¬ o < 96 := by omega
    have k2 : ¬ o < 112 := by omega
    have k3 : ¬ o < 128 := by omega
    simp [e4, e8, e12, e16, e20, e24, e28, e32, e36, e40, k1, k2, k3, h1, h2]
  · have k1 : ¬ o < 96 := by omega
    have k2 : ¬ o < 112 := by omega
    have k3 : ¬ o < 128 := by omega
    have k4 : ¬ o < 304 := by omega
    simp [e4, e8, e12, e16, e20, e24, e28, e32, e36, e40, k1, k2, k3, k4, h1, h2]

/-- An 8-bit access to a byte range goes to that range (R52). -/
theorem locate8_array {c : Config} {a : ArrayName} {o : Nat} (h1 : (arrayRange c a).1 ≤ o)
    (h2 : o < (arrayRange c a).1 + (arrayRange c a).2) :
    locate8 c (c.engineBase + o) = .ok (a, o - (arrayRange c a).1) := by simp [locate8, rowAt_array h1 h2]

/-- An aligned 32-bit access inside a byte range goes to that range (R52). -/
theorem locate32_array {c : Config} {a : ArrayName} {o : Nat} (h4 : o % 4 = 0) (h1 : (arrayRange c a).1 ≤ o)
    (h2 : o + 4 ≤ (arrayRange c a).1 + (arrayRange c a).2) :
    locate32 c (c.engineBase + o) = .ok (.array a, o - (arrayRange c a).1) := by
  simp only [locate32, rowAt_array h1 (show o < _ by omega)]
  simp [MapRow.holds, h4]
  omega

/-- The offsets of the 32-bit registers (10_state.md R23). -/
def regOffset : RegName → Nat
  | .status => 0x04
  | .result => 0x08
  | .outLen => 0x0C
  | .src => 0x10
  | .dst => 0x14
  | .len => 0x18
  | .keyLen => 0x1C
  | .nonceLo => 0x20
  | .nonceHi => 0x24

/-- A 32-bit access at a register's offset goes to it (R51). -/
theorem locate32_reg (c : Config) (r : RegName) : locate32 c (c.engineBase + regOffset r) = .ok (.reg r, 0) := by
  cases r <;> simp [locate32, rowAt, addressMap, MapRow.holds, regOffset]

/-- A 32-bit access that is served lies whole in the row of the range it goes to, at a multiple of 4. -/
theorem locate32_inv {c : Config} {addr i : Nat} {n : RangeName} (h : locate32 c addr = .ok (n, i)) :
    ∃ r ∈ addressMap c, r.name = n ∧ addr = c.engineBase + r.base + i ∧ i + 3 < r.size ∧ (r.base + i) % 4 = 0 := by
  unfold locate32 at h
  split at h
  · cases h
  · rename_i r o hr
    obtain ⟨h0, ho, hm, h1, h2⟩ := rowAt_eq_some hr
    split at h
    · cases h
    · split at h
      · rename_i h4 h3
        obtain ⟨hn, hi⟩ := Prod.mk.inj (Except.ok.inj h)
        simp only [MapRow.holds, Bool.and_eq_true, decide_eq_true_eq] at h3
        exact ⟨r, hm, hn, by omega, by omega, by rw [← hi, show r.base + (o - r.base) = o by omega]; omega⟩
      · cases h

/-! ## Bytes and words -/

/-- What a byte of a byte range holds after a host write to it: RK takes none (R55). -/
theorem State.arrayByte_writeArrayByte (s : State) {a : ArrayName} {i : Nat} (ha : a ≠ .rk)
    (hi : i < (arrayRange s.config a).2) (j : Nat) (v : Byte) :
    (s.writeArrayByte a i v).arrayByte a j = if j = i then some v else s.arrayByte a j := by
  by_cases h : j = i
  · subst h
    rw [if_pos rfl]
    cases a <;> simp only [arrayRange] at hi
    · simp [State.writeArrayByte, State.arrayByte, hi]
    · simp [State.writeArrayByte, State.arrayByte, hi]
    · simp [State.writeArrayByte, State.arrayByte, hi]
    · exact absurd rfl ha
    · simp [State.writeArrayByte, State.arrayByte]
  · rw [if_neg h]
    have h' : ¬ i = j := fun e => h e.symm
    cases a
    · simp [State.writeArrayByte, State.arrayByte, h']
    · simp [State.writeArrayByte, State.arrayByte, h']
    · simp [State.writeArrayByte, State.arrayByte, h']
    · rfl
    · simp [State.writeArrayByte, State.arrayByte, Memory.read_write, h]

/-- A read of four written bytes draws nothing and gives their word. -/
theorem State.readArrayWord_written {s : State} {a : ArrayName} {i : Nat} {b0 b1 b2 b3 : Byte} (h0 : s.arrayByte a i = some b0)
    (h1 : s.arrayByte a (i + 1) = some b1) (h2 : s.arrayByte a (i + 2) = some b2) (h3 : s.arrayByte a (i + 3) = some b3) :
    s.readArrayWord a i = (wordOfBytes b0 b1 b2 b3, s) := by simp only [State.readArrayWord, h0, State.drawByte, h1, h2, h3]

theorem getLsbD_wordOfBytes (b0 b1 b2 b3 : Byte) (i : Nat) : (wordOfBytes b0 b1 b2 b3).getLsbD i =
    if i < 8 then b0.getLsbD i else if i < 16 then b1.getLsbD (i - 8) else if i < 24 then b2.getLsbD (i - 16)
    else b3.getLsbD (i - 24) := by
  unfold wordOfBytes
  erw [BitVec.getLsbD_append, BitVec.getLsbD_append, BitVec.getLsbD_append]
  by_cases h8 : i < 8
  · simp [h8]
  · rw [if_neg h8, if_neg h8]
    by_cases h16 : i < 16
    · rw [if_pos (by omega), if_pos h16]
    · rw [if_neg (by omega), if_neg h16]
      by_cases h24 : i < 24
      · rw [if_pos (by omega), if_pos h24, show i - 8 - 8 = i - 16 by omega]
      · rw [if_neg (by omega), if_neg h24, show i - 8 - 8 - 8 = i - 24 by omega]

/-- A word is made of its lanes. -/
theorem wordOfBytes_byteLane (v : Word) : wordOfBytes (byteLane v 0) (byteLane v 1) (byteLane v 2) (byteLane v 3) = v := by
  apply BitVec.eq_of_getLsbD_eq
  intro i hi
  rw [getLsbD_wordOfBytes]
  simp only [byteLane, BitVec.getLsbD_extractLsb']
  split
  · simp [*]
  · split
    · rw [show 8 * 1 + (i - 8) = i by omega]; simp; omega
    · split
      · rw [show 8 * 2 + (i - 16) = i by omega]; simp; omega
      · rw [show 8 * 3 + (i - 24) = i by omega]; simp; omega

end Sys2Proof.Machine
end

