-- ==== Sys2Proof/Laws/Encoding.lean ====
section
/-! SUPPORT. The fields of a command word: what each holds of a packed word, that they determine the word, and their values as
numbers (30_encoding.md R81). -/

namespace Sys2Proof

theorem getLsbD_packWord (op a b : Byte) (i : Nat) : (packWord op a b).getLsbD i =
    if i < 8 then op.getLsbD i else if i < 16 then a.getLsbD (i - 8) else if i < 24 then b.getLsbD (i - 16) else false := by
  unfold packWord
  erw [BitVec.getLsbD_append, BitVec.getLsbD_append, BitVec.getLsbD_append]
  by_cases h8 : i < 8
  · simp [h8]
  · rw [if_neg h8, if_neg h8]
    by_cases h16 : i < 16
    · rw [if_pos (by omega), if_pos h16]
    · rw [if_neg (by omega), if_neg h16]
      by_cases h24 : i < 24
      · rw [if_pos (by omega), if_pos h24, show i - 8 - 8 = i - 16 by omega]
      · rw [if_neg (by omega), if_neg h24]; simp

@[simp] theorem opOf_packWord (op a b : Byte) : opOf (packWord op a b) = op := by
  apply BitVec.eq_of_getLsbD_eq
  intro i hi
  rw [opOf, BitVec.getLsbD_extractLsb', getLsbD_packWord]
  simp [hi]

@[simp] theorem aOf_packWord (op a b : Byte) : aOf (packWord op a b) = a := by
  apply BitVec.eq_of_getLsbD_eq
  intro i hi
  rw [aOf, BitVec.getLsbD_extractLsb', getLsbD_packWord, if_neg (by omega), if_pos (by omega)]
  simp [hi]

@[simp] theorem bOf_packWord (op a b : Byte) : bOf (packWord op a b) = b := by
  apply BitVec.eq_of_getLsbD_eq
  intro i hi
  rw [bOf, BitVec.getLsbD_extractLsb', getLsbD_packWord, if_neg (by omega), if_neg (by omega), if_pos (by omega)]
  simp [hi]

@[simp] theorem zOf_packWord (op a b : Byte) : zOf (packWord op a b) = 0 := by
  apply BitVec.eq_of_getLsbD_eq
  intro i hi
  rw [zOf, BitVec.getLsbD_extractLsb', getLsbD_packWord, if_neg (by omega), if_neg (by omega), if_neg (by omega)]
  simp

/-- A word whose reserved field is 0 is packed from its fields. -/
theorem packWord_fields {w : Word} (h : zOf w = 0) : packWord (opOf w) (aOf w) (bOf w) = w := by
  apply BitVec.eq_of_getLsbD_eq
  intro i hi
  rw [getLsbD_packWord]
  simp only [opOf, aOf, bOf, BitVec.getLsbD_extractLsb']
  split
  · simp [*]
  · split
    · rw [show 8 + (i - 8) = i by omega]; simp; omega
    · split
      · rw [show 16 + (i - 16) = i by omega]; simp; omega
      · have hz := congrArg (fun x => x.getLsbD (i - 24)) h
        simp only [zOf, BitVec.getLsbD_extractLsb'] at hz
        rw [show 24 + (i - 24) = i by omega] at hz
        simp only [BitVec.ofNat_eq_ofNat, BitVec.getLsbD_zero, Bool.and_eq_false_imp, decide_eq_true_eq] at hz
        exact (hz (by omega)).symm

/-- The fields as numbers. -/
theorem toNat_fields (w : Word) :
    (opOf w).toNat = w.toNat % 256 ∧ (aOf w).toNat = w.toNat / 256 % 256 ∧ (bOf w).toNat = w.toNat / 65536 % 256 ∧
      (zOf w).toNat = w.toNat / 16777216 := by
  have := w.isLt
  refine ⟨?_, ?_, ?_, ?_⟩ <;> simp [opOf, aOf, bOf, zOf, BitVec.extractLsb'_toNat, Nat.shiftRight_eq_div_pow]
  omega

/-- Decoding a packed word is decoding its fields. -/
theorem decode_packWord (op a b : Byte) : decode (packWord op a b) = decodeFields op.toNat a b := by simp [decode]

/-- Legality of a packed word is legality of its fields. -/
theorem legal_packWord (op a b : Byte) : legal (packWord op a b) = legalFields op.toNat a.toNat b.toNat 0 := by simp [legal]

end Sys2Proof
end

