-- ==== Sys2Proof/Laws/PerInstr.lean ====
section
/-! SUPPORT. One lemma for each constructor of Instr: the word of a well-formed command is legal by the spec's own predicate
(30_encoding.md R85). -/

namespace Sys2Proof.Laws.EncodeLegal

/-- The encoding of the command is a legal word if the command is well formed. -/
def Statement (i : Instr) : Prop := i.wellFormed = true → legal (encode i) = true

theorem round_legal {op j : Byte} (f : Bool) (ho : op = 0x17 ∨ op = 0x18) (h : roundIndexOk j = true) :
    legal (packWord op j (flagByte f)) = true := by
  simp only [roundIndexOk, decide_eq_true_eq] at h
  rcases ho with rfl | rfl <;> cases f <;> simp [legal_packWord, legalFields, flagByte, h]

theorem gfmul (a b : Byte) : Statement (.gfmul a b) := fun _ => by simp [encode, legal_packWord, legalFields]
theorem sbox (x : Byte) : Statement (.sbox x) := fun _ => by simp [encode, legal_packWord, legalFields]
theorem isbox (y : Byte) : Statement (.isbox y) := fun _ => by simp [encode, legal_packWord, legalFields]
theorem subb : Statement .subb := fun _ => by decide
theorem isubb : Statement .isubb := fun _ => by decide
theorem shr : Statement .shr := fun _ => by decide
theorem ishr : Statement .ishr := fun _ => by decide
theorem mixc (f : Bool) : Statement (.mixc f) := fun _ => by revert f; decide
theorem imixc (f : Bool) : Statement (.imixc f) := fun _ => by revert f; decide
theorem ark (j : Byte) : Statement (.ark j) := fun h => by
  have hj : j.toNat ≤ 10 := by simpa [Instr.wellFormed, roundIndexOk] using h
  simp [encode, legal_packWord, legalFields, hj]
theorem round (j : Byte) (f : Bool) : Statement (.round j f) := fun h => round_legal f (.inl rfl) h
theorem iround (j : Byte) (f : Bool) : Statement (.iround j f) := fun h => round_legal f (.inr rfl) h
theorem kexp : Statement .kexp := fun _ => by decide
theorem encb : Statement .encb := fun _ => by decide
theorem decb : Statement .decb := fun _ => by decide
theorem enc (m : Mode) : Statement (.enc m) := fun _ => by cases m <;> decide
theorem dec (m : Mode) : Statement (.dec m) := fun _ => by cases m <;> decide
theorem pad (n : Byte) : Statement (.pad n) := fun _ => by simp [encode, legal_packWord, legalFields]
theorem unpad (n : Byte) : Statement (.unpad n) := fun _ => by simp [encode, legal_packWord, legalFields]
theorem valid (n : Byte) : Statement (.valid n) := fun _ => by simp [encode, legal_packWord, legalFields]

end Sys2Proof.Laws.EncodeLegal
end

