-- ==== Sys2Proof/Tests/Slice0.lean ====
section
/-! SUPPORT. Tests of one step each, with words and results from the spec's encodings (30_encoding.md) and vectors
(95_test_vectors.md), and for each obligation with hypotheses a witness: concrete states and operands that meet them together. -/

namespace Sys2Proof.Tests

open Sys2Proof.Machine Sys2Proof.Claims

-- One theorem at a time: with many kernel evaluations waiting for each other Lean runs out of threads.
set_option Elab.async false

/-! ## Well-formedness: each operand check refuses an ill-formed term (30_encoding.md R82) -/

theorem test_wellFormed_ark : (Instr.ark 10).wellFormed = true ∧ (Instr.ark 11).wellFormed = false := by decide
theorem test_wellFormed_round : (Instr.round 10 true).wellFormed = true ∧ (Instr.round 11 false).wellFormed = false := by decide
theorem test_wellFormed_iround : (Instr.iround 0 true).wellFormed = true ∧ (Instr.iround 255 true).wellFormed = false := by decide

/-! ## Decoding: words written out from 30_encoding.md R84 and R89 -/

theorem test_decode_gfmul : decode 0x00835701 = .ok (.gfmul 0x57 0x83) := by rfl
theorem test_decode_sbox : decode 0x00005302 = .ok (.sbox 0x53) := by rfl
theorem test_decode_isbox : decode 0x0000ED03 = .ok (.isbox 0xED) := by rfl
theorem test_decode_subb : decode 0x00000010 = .ok .subb := by rfl
theorem test_decode_isubb : decode 0x00000011 = .ok .isubb := by rfl
theorem test_decode_shr : decode 0x00000012 = .ok .shr := by rfl
theorem test_decode_ishr : decode 0x00000013 = .ok .ishr := by rfl
theorem test_decode_mixc : decode 0x00000014 = .ok (.mixc false) ∧ decode 0x00010014 = .ok (.mixc true) := ⟨rfl, rfl⟩
theorem test_decode_imixc : decode 0x00000015 = .ok (.imixc false) ∧ decode 0x00010015 = .ok (.imixc true) := ⟨rfl, rfl⟩
theorem test_decode_ark : decode 0x00000216 = .ok (.ark 2) := by rfl
theorem test_decode_round : decode 0x00000117 = .ok (.round 1 false) ∧ decode 0x00010A17 = .ok (.round 10 true) := ⟨rfl, rfl⟩
theorem test_decode_iround : decode 0x00000918 = .ok (.iround 9 false) ∧ decode 0x00010A18 = .ok (.iround 10 true) := ⟨rfl, rfl⟩
theorem test_decode_kexp : decode 0x00000020 = .ok .kexp := by rfl
theorem test_decode_encb : decode 0x00000021 = .ok .encb := by rfl
theorem test_decode_decb : decode 0x00000022 = .ok .decb := by rfl
theorem test_decode_enc : decode 0x00000130 = .ok (.enc .cbc) ∧ decode 0x00000330 = .ok (.enc .gcm) := ⟨rfl, rfl⟩
theorem test_decode_dec : decode 0x00000031 = .ok (.dec .ecb) ∧ decode 0x00000231 = .ok (.dec .ctr) := ⟨rfl, rfl⟩
theorem test_decode_pad : decode 0x00001440 = .ok (.pad 20) := by rfl
theorem test_decode_unpad : decode 0x00001041 = .ok (.unpad 16) := by rfl
theorem test_decode_valid : decode 0x00001042 = .ok (.valid 16) := by rfl

/-- 95_test_vectors.md V-ENC1 to V-ENC6, T12, T26, and the word 0 of R87. -/
theorem test_decode_illegal :
    decode 0x01000020 = .error .nonzeroZ ∧ decode 0x00000004 = .error .unassignedOpcode ∧
    decode 0x00000430 = .error .modeOutOfRange ∧ decode 0x00000120 = .error .nonzeroA ∧ decode 0x00010042 = .error .nonzeroB ∧
    decode 0x00000B17 = .error .indexOutOfRange ∧ decode 0x00020014 = .error .flagOutOfRange ∧
    decode 0x00000B16 = .error .indexOutOfRange ∧ decode 0 = .error .unassignedOpcode := ⟨rfl, rfl, rfl, rfl, rfl, rfl, rfl, rfl, rfl⟩

/-! ## States and views for the step tests -/

/-- The 16 bytes of a literal of 32 hex digits, byte 0 first (95_test_vectors.md). -/
def hex16 (n : Nat) : Block := Vector.ofFn fun i : Fin 16 => BitVec.ofNat 8 (n / 2 ^ (8 * (15 - i.val)))

/-- The `k` bytes of a literal of 2k hex digits, byte 0 first. -/
def hexBytes (k n : Nat) : List Byte := (List.range k).map fun i => BitVec.ofNat 8 (n / 2 ^ (8 * (k - 1 - i)))

/-- "Thats my Kung Fu". -/
def keyK : Block := hex16 0x5468617473206d79204b756e67204675
/-- "YELLOW SUBMARINE". -/
def keyY : Block := hex16 0x59454c4c4f57205355424d4152494e45
/-- "Two One Nine Two". -/
def textT : Block := hex16 0x54776f204f6e65204e696e652054776f
/-- The bytes 00 to 0f. -/
def bytesI : Block := hex16 0x000102030405060708090a0b0c0d0e0f

/-- Reset, a data memory of 64 bytes, and then KEY[0..15] and KEY_LEN written. -/
def withKey (k : Block) : State :=
  { State.reset with
    config := ⟨64, 0⟩
    key := Vector.ofFn fun i : Fin 32 => k.toList.getD i.val 0
    keyWritten := Vector.ofFn fun i : Fin 32 => decide (i.val < 16)
    keyLen := 16 }

/-- The key is expanded. -/
def withSchedule (k : Block) : State := { withKey k with rk := keyExpansion k, rkWritten := true, rkValid := true }

/-- STATE is written. -/
def withBlock (s : State) (b : Block) : State := { s with state := b, stateWritten := Vector.replicate 16 true }

/-- DMEM[0..n) is written and is the input, with the output at `dst`. -/
def withInput (s : State) (b : List Byte) (dst : Word) : State :=
  { s with dmem := s.dmem.writeBytes 0 b, src := 0, len := BitVec.ofNat 32 b.length, dst := dst }

/-- IV is written. -/
def withIV (s : State) (v : Block) : State := { s with iv := v, ivWritten := Vector.replicate 16 true }

/-- The step that runs a command word. -/
def runWord (w : Nat) (s : State) : Result := step (s.withFetchWord 32 w)

/-- STATE and ERR of a next state. -/
def blockAfter : Result → Option (Block × Nat)
  | .next t => some (t.state, t.err.toNat)
  | .fault _ => none
  | .refused _ => none

/-- The bytes at DST, OUT_LEN and ERR of a next state. -/
def outputAfter : Result → Option (Option (List Byte) × Nat × Nat)
  | .next t => some (t.dmem.readBytes t.dst.toNat t.outLen.toNat, t.outLen.toNat, t.err.toNat)
  | .fault _ => none
  | .refused _ => none

/-- STATUS and RESULT of a next state. -/
def registersAfter : Result → Option (Word × Word)
  | .next t => some (statusWord t, t.result)
  | .fault _ => none
  | .refused _ => none

/-- A round key and STATUS of a next state. -/
def roundKeyAfter (j : Fin 11) : Result → Option (Block × Word)
  | .next t => some (t.rk[j.val], statusWord t)
  | .fault _ => none
  | .refused _ => none

/-- Whether a result is a next state with the given property. -/
def holds (r : Result) (p : State → Bool) : Bool :=
  match r with
  | .next t => p t
  | .fault _ => false
  | .refused _ => false

theorem exists_next {r : Result} {p : State → Bool} (h : holds r p = true) : ∃ t, r = .next t ∧ p t = true := by
  cases r with
  | next t => exact ⟨t, rfl, h⟩
  | fault _ => cases h
  | refused _ => cases h

/-! ## One step of each command, against 95_test_vectors.md -/

/-- Section 2.1: 57 · 83 = c1, and 80 · 02 = 1b. -/
theorem test_gfmul : registersAfter (runWord 0x00835701 State.reset) = some (0, 0xc1) ∧
    registersAfter (runWord 0x00028001 State.reset) = some (0, 0x1b) := by decide +kernel
/-- Section 2.1: SBOX[53] = ed; 0x00015302 is illegal and leaves RESULT. -/
theorem test_sbox : registersAfter (runWord 0x00005302 State.reset) = some (0, 0xed) ∧
    registersAfter (runWord 0x00015302 State.reset) = some (6, 0) := by decide +kernel
/-- Section 2.1: INV_SBOX[ed] = 53, INV_SBOX[16] = ff. -/
theorem test_isbox : registersAfter (runWord 0x0000ED03 State.reset) = some (0, 0x53) ∧
    registersAfter (runWord 0x00001603 State.reset) = some (0, 0xff) := by decide +kernel
/-- T3. -/
theorem test_subb : blockAfter (runWord 0x10 (withBlock State.reset bytesI)) =
    some (hex16 0x637c777bf26b6fc53001672bfed7ab76, 0) := by decide +kernel
/-- T4. -/
theorem test_isubb : blockAfter (runWord 0x11 (withBlock State.reset bytesI)) =
    some (hex16 0x52096ad53036a538bf40a39e81f3d7fb, 0) := by decide +kernel
/-- T1. -/
theorem test_shr : blockAfter (runWord 0x12 (withBlock State.reset bytesI)) =
    some (hex16 0x00050a0f04090e03080d02070c01060b, 0) := by decide +kernel
/-- T2. -/
theorem test_ishr : blockAfter (runWord 0x13 (withBlock State.reset bytesI)) =
    some (hex16 0x000d0a0704010e0b0805020f0c090603, 0) := by decide +kernel
/-- T5 and T7. -/
theorem test_mixc : blockAfter (runWord 0x14 (withBlock State.reset (hex16 0xdb135345f20a225c01010101c6c6c6c6))) =
      some (hex16 0x8e4da1bc9fdc589d01010101c6c6c6c6, 0) ∧
    blockAfter (runWord 0x00010014 (withBlock State.reset (hex16 0xdb135345f20a225c01010101c6c6c6c6))) =
      some (hex16 0xdb135345f20a225c01010101c6c6c6c6, 0) := by decide +kernel
/-- T11. -/
theorem test_imixc : blockAfter (runWord 0x15 (withBlock State.reset bytesI)) =
    some (hex16 0x0a0f080d0e0b0c090207000506030401, 0) := by decide +kernel
/-- T17 and T27. -/
theorem test_ark : blockAfter (runWord 0x16 (withBlock (withSchedule keyK) textT)) =
      some (hex16 0x001f0e543c4e08596e221b0b4774311a, 0) ∧
    blockAfter (runWord 0x16 (withBlock (withKey keyK) textT)) = some (textT, 8) := by decide +kernel
/-- V-ERR8, and V-ERR2 with KEY_LEN 20. -/
theorem test_kexp_keyLen : registersAfter (runWord 0x20 { withKey keyK with keyLen := 24 }) = some (0x10F, 0) ∧
    registersAfter (runWord 0x20 { withKey keyK with keyLen := 20 }) = some (0x001, 0) := by decide +kernel
/-- V-PAD row 6, and row 8: block size 0. -/
theorem test_pad : outputAfter (runWord 0x440 (withInput (withKey keyK) (hexBytes 5 0x4142434445) 32)) =
      some (some (hexBytes 8 0x4142434445030303), 8, 0) ∧
    outputAfter (runWord 0x40 (withInput (withKey keyK) (hexBytes 5 0x4142434445) 32)) = some (some [], 0, 2) := by decide +kernel
/-- V-VAL row 10, and row 8. -/
theorem test_unpad : outputAfter (runWord 0x1041 (withInput (withKey keyK) (hexBytes 5 0x4141030303) 32)) =
      some (some (hexBytes 2 0x4141), 2, 0) ∧
    outputAfter (runWord 0x1041 (withInput (withKey keyK) (hexBytes 3 0x414102) 32)) = some (some [], 0, 3) := by decide +kernel
/-- V-VAL row 4, and row 14: v = 17 > 16. -/
theorem test_valid : registersAfter (runWord 0x1042 (withInput (withKey keyK) (hexBytes 7 0x41414104040404) 0)) = some (0, 0) ∧
    registersAfter (runWord 0x1042 (withInput (withKey keyK) (List.replicate 17 0x11) 0)) = some (3, 0) := by decide +kernel
/-- V-BND4: SRC + LEN does not wrap. -/
theorem test_bounds_do_not_wrap :
    registersAfter (runWord 0x230 { withKey keyY with src := 0xFFFFFFF0, len := 0x20 }) = some (0x207, 0) := by decide +kernel

/-! ## The matrices of 41_block_transforms.md R125 and R126, written out row by row -/

theorem test_mixMatrix : (List.finRange 4).map (fun r => (List.finRange 4).map (mixMatrix r)) =
    [[2, 3, 1, 1], [1, 2, 3, 1], [1, 1, 2, 3], [3, 1, 1, 2]] := by decide +kernel
theorem test_invMixMatrix : (List.finRange 4).map (fun r => (List.finRange 4).map (invMixMatrix r)) =
    [[0x0E, 0x0B, 0x0D, 0x09], [0x09, 0x0E, 0x0B, 0x0D], [0x0D, 0x09, 0x0E, 0x0B], [0x0B, 0x0D, 0x09, 0x0E]] := by decide +kernel

/-! ## Host events -/

/-- 20_memory.md R53: Write32(ENGINE_BASE + 0x040, 0x74616854) sets KEY[0..3] to "That". -/
theorem test_write32_key : holds (hostEvent (.write32 0x40 0x74616854) State.reset)
    (fun t => t.key.toList.take 4 == [0x54, 0x68, 0x61, 0x74]) = true := by decide +kernel
/-- Program P1: Read32 at 0x090 after KEXP of the key K. -/
theorem test_read32_rk : holds (hostEvent (.read32 0x90) (withSchedule keyK))
    (fun t => t.readData == some (.word 0xF1FC32E2)) = true := by decide +kernel
/-- 20_memory.md R51, R52: the refused accesses. -/
theorem test_refused_accesses :
    hostEvent (.read32 0x28) State.reset = .refused .reservedOffset ∧
    hostEvent (.read8 4) State.reset = .refused .narrowRegisterAccess ∧
    hostEvent (.read32 6) State.reset = .refused .misalignedAccess ∧
    hostEvent (.read32 0x2000) State.reset = .refused .reservedOffset ∧
    hostEvent (.read32 0x1010) { State.reset with config := ⟨18, 0⟩ } = .refused .straddlingAccess := ⟨rfl, rfl, rfl, rfl, rfl⟩

/-! ## Witnesses: for every obligation with hypotheses, states and operands that meet them -/

/-- The model fault of a result. -/
def faultOf : Result → Option Fault
  | .next _ => none
  | .fault f => some f
  | .refused _ => none

theorem stops_of {r : Result} {f : Fault} (h : faultOf r = some f) : r = .fault f := by
  cases r with
  | next _ => cases h
  | fault _ => cases h; rfl
  | refused _ => cases h

theorem next_of {r : Result} (h : holds r (fun _ => true) = true) : ∃ t, r = .next t :=
  (exists_next h).imp fun _ h => h.1

/-- Every byte of KEY[0..15], IV, STATE and a DMEM of 64 bytes is written, the key is expanded, and the input is 41 41 03 03 03. -/
def full : State :=
  { withIV (withBlock (withSchedule keyK) textT) bytesI with
    dmem := Memory.writeBytes [] 0 (hexBytes 5 0x4141030303 ++ List.replicate 59 0x41), src := 0, len := 5, dst := 32 }

/-- The same, faulted. -/
def faulted : State := full.raiseFault

/-- The same with RK_VALID = 0. -/
def unkeyed : State := { full with rkValid := false }

/-- The same with no byte of STATE written. -/
def stateless : State := { full with stateWritten := Vector.replicate 16 false }

/-- A command word and a second event are pending. -/
def about (s : State) (w : Word) : State := withEvents s [.write32 0 w, .reset]

theorem endsInPadding_input : endsInPadding (hexBytes 5 0x4141030303) 16 := ⟨[0x41, 0x41], 3, by decide, by decide, by decide, by rfl⟩

/-- A last byte above n is no padding. -/
theorem not_endsInPadding (p : List Byte) (x : Byte) (n : Nat) (h : n < x.toNat) : ¬ endsInPadding (p ++ [x]) n := by
  rintro ⟨q, v, h1, hn, h256, he⟩
  obtain ⟨m, rfl⟩ : ∃ m, v = m + 1 := ⟨v - 1, by omega⟩
  rw [List.replicate_succ', ← List.append_assoc] at he
  have hx := (List.append_inj' he rfl).2
  simp only [List.cons.injEq, and_true] at hx
  rw [hx, BitVec.toNat_ofNat] at h
  omega

theorem inputIs_full : inputIs full (hexBytes 5 0x4141030303) := ⟨by decide +kernel, by decide +kernel⟩

theorem inputIs_full2 : inputIs { full with len := 2 } ([0x41] ++ [0x41]) := ⟨by decide +kernel, by decide +kernel⟩

theorem codecReady_full (m : Mode) : codecReady m full := by
  refine ⟨by decide +kernel, by decide +kernel, by decide +kernel, fun _ => by decide +kernel, ?_⟩
  cases m <;> decide +kernel

theorem witness_DecodeEncodeRoundTrip : (Instr.iround 10 true).wellFormed = true ∧ (Instr.ark 0).wellFormed = true ∧
    (Instr.dec .gcm).wellFormed = true ∧ (Instr.gfmul 255 255).wellFormed = true := by decide

theorem witness_DecoderAcceptsExactlyLegalWords : decode 0x00010A18 = .ok (.iround 10 true) ∧ decode 0x0000FF42 = .ok (.valid 255) :=
  ⟨rfl, rfl⟩

theorem witness_IllegalWordOnlyWritesErrSix :
    commandPending (about full 0x00000B16) 0x00000B16 [.reset] ∧ (about full 0x00000B16).fault = false ∧ legal 0x00000B16 = false :=
  ⟨rfl, rfl, by decide⟩

theorem witness_CommandWriteIsHandled :
    commandPending (about faulted 0x20) 0x20 [.reset] ∧ (about faulted 0x20).fault = true ∧
    commandPending (about full 0x00000430) 0x00000430 [.reset] ∧ (about full 0x00000430).fault = false ∧ legal 0x00000430 = false ∧
    commandPending (about full 0x00000330) 0x00000330 [.reset] ∧ legal 0x00000330 = true := ⟨rfl, rfl, rfl, rfl, by decide, rfl, by decide⟩

theorem witness_StepRunsDecodedCommand :
    commandPending (about full 0x00010A17) 0x00010A17 [.reset] ∧ (about full 0x00010A17).fault = false ∧
    decode 0x00010A17 = .ok (.round 10 true) ∧ decodeTableWord 32 0x00010A17 = some (.round 10 true) ∧
    full.fault = false ∧ full.pending = [] := ⟨rfl, rfl, rfl, rfl, rfl, rfl⟩

theorem witness_FaultIsStickyUntilReset :
    (about faulted 0x20).fault = true ∧ (∃ t, step (about faulted 0x20) = .next t) ∧
    (about faulted 0x20).pending.head? ≠ some .reset ∧ commandPending (about faulted 0x20) 0x20 [.reset] := by
  refine ⟨rfl, ?_, by decide, rfl⟩
  exact next_of (by decide +kernel)

theorem witness_AccessesWorkWhileFaulted :
    faulted.fault = true ∧ (HostEvent.write32 0x1C 16 ≠ .reset) ∧ (∀ w, HostEvent.write32 0x1C 16 ≠ .write32 faulted.config.engineBase w) ∧
    (HostEvent.write32 0x1C 16 ≠ .read32 (faulted.config.engineBase + 4)) ∧ hostEvent .reset faulted = .next faulted.platformReset ∧
    hostEvent (.write32 0x10 7) faulted = .next { faulted with src := 7 } :=
  ⟨rfl, by decide, fun w h => by simp [show faulted.config.engineBase = 0 from rfl] at h, by decide, rfl, rfl⟩

theorem witness_FaultExactlyOnUnimplementedPaths :
    keyed .kexp = true ∧ ({ full with keyLen := 24 } : State).keyLen = 24 ∧ ({ full with keyLen := 32 } : State).keyLen = 32 ∧
    full.keyLen = 16 ∧ full.keyReady = true ∧
    ∃ t, exec (.enc .gcm) full = .next t ∧ full.fault = false ∧ t.fault = true := by
  refine ⟨rfl, rfl, rfl, rfl, by decide +kernel, ?_⟩
  obtain ⟨t, h, hp⟩ := exists_next (r := exec (.enc .gcm) full) (p := fun t => t.fault) (by decide +kernel)
  exact ⟨t, h, rfl, hp⟩

/-- One witness for each clause. The bounds are met at the last byte and missed by one. -/
theorem witness_FirstApplicableConditionIsReported :
    (commandPending (about faulted 0) 0 [.reset] ∧ (about faulted 0).fault = true) ∧
    (commandPending (about full 0) 0 [.reset] ∧ (about full 0).fault = false ∧ legal 0 = false) ∧
    ({ full with keyLen := 17 } : State).keyLen ∉ [16, 24, 32] ∧ ({ full with keyLen := 24 } : State).keyLen ∈ [24, 32] ∧
    (full.keyLen = 16 ∧ full.keyReady = true) ∧
    ({ full with src := 60 } : State).inRange 60 5 = false ∧ full.inRange full.src.toNat full.len.toNat = true ∧
    ({ full with dst := 49 } : State).inRange 49 (codecLength .ecb full.len.toNat) = false ∧
    full.inRange 48 (codecLength .ecb full.len.toNat) = true ∧
    ({ full with dst := 57 } : State).inRange 57 (padLength full.len.toNat 4) = false ∧
    (inputIs full (hexBytes 5 0x4141030303) ∧ endsInPadding (hexBytes 5 0x4141030303) 16 ∧
      ({ full with dst := 63 } : State).inRange 63 2 = false) ∧
    (inputIs { full with len := 2 } ([0x41] ++ [0x41]) ∧ ¬ endsInPadding ([0x41] ++ [0x41]) 16) ∧
    (guarded (.iround 10 true) = true ∧ unkeyed.rkValid = false) ∧
    .ishr ∈ unguarded ∧ ∃ t, exec .ishr full = .next t := by
  refine ⟨⟨rfl, rfl⟩, ⟨rfl, rfl, by decide⟩, by decide +kernel, by decide +kernel, ⟨rfl, by decide +kernel⟩, by decide +kernel,
    by decide +kernel, by decide +kernel, by decide +kernel, by decide +kernel, ⟨inputIs_full, endsInPadding_input, by decide +kernel⟩,
    ⟨inputIs_full2, not_endsInPadding _ _ _ (by decide)⟩, ⟨rfl, rfl⟩, by decide, ?_⟩
  exact next_of (by decide +kernel)

theorem witness_EveryCommandCompletesOnWrittenInput :
    full.keyReady = true ∧ full.ivReady = true ∧ full.stateReady = true ∧ ∀ a, a < full.config.dmemSize → full.dmem.read a ≠ none :=
  ⟨by decide +kernel, by decide +kernel, by decide +kernel, by
    rw [show full.config.dmemSize = 64 from rfl]; decide +kernel⟩

/-- For the statements whose hypothesis is a written STATE: SubstitutionActsOnLanes, ShiftRowsPermutesBytes, MixColumnsByDoubling,
InverseTransformsRestoreState. -/
theorem witness_writtenState : full.stateReady = true := by decide +kernel

theorem witness_DecryptionUndoesEncryption : full.stateReady = true ∧ full.rkValid = true ∧ (10#8).toNat ≤ 10 := by decide +kernel

theorem witness_RoundKeyCommandsComplete : full.stateReady = true ∧ full.rkValid = true := by decide +kernel

theorem witness_BlockCommandsEqualTheirSequences :
    full.stateReady = true ∧ full.rkValid = true ∧ (10#8).toNat ≤ 10 ∧ unkeyed.stateReady = true ∧ unkeyed.rkValid = false := by
  decide +kernel

theorem witness_KeyGuard : guarded (.ark 10) = true ∧ guarded .decb = true ∧ unkeyed.rkValid = false ∧ .imixc true ∈ unguarded := by
  decide +kernel

/-- The lane, the permutation and the column clause, with another block that agrees on one lane, or on column 3, only. -/
theorem witness_TransformsActOnLanes :
    ((.ark 10 : Instr) ∈ [.subb, .isubb, .ark 10] ∧ textT[15] = full.state[15] ∧ (∃ t, exec (.ark 10) full = .next t) ∧
      ∃ u, exec (.ark 10) { full with state := (textT.set 0 0), rk := full.rk } = .next u) ∧
    (∃ t, exec .ishr full = .next t) ∧
    (∀ r : Fin 4, (textT.set 0 0)[4 * (3 : Fin 4).val + r.val] = full.state[4 * (3 : Fin 4).val + r.val]) ∧
    (∃ t, exec (.imixc false) full = .next t) ∧ ∃ u, exec (.imixc false) { full with state := textT.set 0 0 } = .next u := by
  refine ⟨⟨by decide, by decide +kernel, next_of (by decide +kernel), next_of (by decide +kernel)⟩,
    next_of (by decide +kernel), by decide +kernel, next_of (by decide +kernel), next_of (by decide +kernel)⟩

theorem witness_BlockCommandFrame :
    (blockCommand .encb = true ∧ ∃ t, exec .encb full = .next t) ∧ ∃ t, exec .encb unkeyed = .next t ∧ t.err ≠ errOk :=
  ⟨⟨rfl, next_of (by decide +kernel)⟩, _, rfl, by decide⟩

theorem witness_UnwrittenStateStopsBlockCommands :
    ((.shr : Instr) ∈ [.subb, .isubb, .shr, .ishr, .mixc false, .imixc false]) ∧ stateless.stateReady = false ∧ guarded (.round 10 false) = true ∧
    stateless.rkValid = true ∧ blockCommand .shr = true ∧ exec .shr stateless = .fault .unwrittenState :=
  ⟨by decide, by decide +kernel, rfl, rfl, rfl, rfl⟩

theorem witness_KexpExpandsTheKey : full.keyLen = 16 ∧ full.keyReady = true := ⟨rfl, by decide +kernel⟩

theorem witness_KeyTailIsIgnored :
    keyed (.dec .cbc) = true ∧ ∀ k : Fin 16, (full.key.set 31 0xFF)[k.val] = full.key[k.val] ∧
      (full.keyWritten.set 31 true)[k.val] = full.keyWritten[k.val] := by decide +kernel

/-- KEY's first and last byte, its last word, and KEY_LEN; a key step from RK_VALID = 0. -/
theorem witness_RkValidChangesOnlyAsListed :
    keyWrite full (.write8 0x40 0) ∧ keyWrite full (.write8 0x5F 0) ∧ keyWrite full (.write32 0x5C 0) ∧ keyWrite full (.write32 0x1C 16) ∧
    (∃ t, exec .kexp unkeyed = .next t ∧ t.rkValid ≠ unkeyed.rkValid) ∧
    ∃ t, step (about unkeyed 0x20) = .next t ∧ t.rkValid ≠ (about unkeyed 0x20).rkValid := by
  refine ⟨.inr (.inl ⟨0, 0, by decide, rfl⟩), .inr (.inl ⟨31, 0, by decide, rfl⟩), .inr (.inr ⟨7, 0, by decide, rfl⟩), .inl ⟨16, rfl⟩,
    ?_, ?_⟩
  · obtain ⟨t, h, hp⟩ := exists_next (r := exec .kexp unkeyed) (p := fun t => t.rkValid) (by decide +kernel)
    exact ⟨t, h, by rw [hp]; decide⟩
  · obtain ⟨t, h, hp⟩ := exists_next (r := step (about unkeyed 0x20)) (p := fun t => t.rkValid) (by decide +kernel)
    exact ⟨t, h, by rw [hp]; decide⟩

theorem witness_RegisterCommandFrame :
    (∃ t, exec (.isbox 0xED) full = .next t) ∧ (∃ t, exec .kexp full = .next t) ∧
    ∃ t, exec .kexp { full with keyLen := 32 } = .next t ∧ t.err ≠ errOk := by
  refine ⟨⟨_, rfl⟩, ?_, ?_⟩
  · exact next_of (by decide +kernel)
  · obtain ⟨t, h, hp⟩ := exists_next (r := exec .kexp { full with keyLen := 32 }) (p := fun t => t.err == 15) (by decide +kernel)
    exact ⟨t, h, by rw [eq_of_beq hp]; decide⟩

/-- The output ends with the last byte of DMEM, or the input is aligned. -/
theorem witness_PadWritesPaddedInput :
    full.config.ok = true ∧ (4 : Byte) ≠ 0 ∧ inputIs full (hexBytes 5 0x4141030303) ∧
    ({ full with dst := 56 } : State).inRange 56 (padLength (hexBytes 5 0x4141030303).length 4) = true ∧
    (hexBytes 5 0x4141030303).length % 4 ≠ 0 ∧ (hexBytes 5 0x4141030303).length % 5 = 0 :=
  ⟨by decide, by decide, inputIs_full, by decide +kernel, by decide, by decide⟩

theorem witness_UnpadRemovesPadding :
    full.config.ok = true ∧ 1 ≤ 3 ∧ 3 ≤ (3 : Byte).toNat ∧ inputIs full ([0x41, 0x41] ++ List.replicate 3 (BitVec.ofNat 8 3)) ∧
    full.inRange full.dst.toNat [0x41, 0x41].length = true :=
  ⟨by decide, by decide, by decide, inputIs_full, by decide +kernel⟩

theorem witness_ValidDecidesPadding :
    (inputIs full (hexBytes 5 0x4141030303) ∧ endsInPadding (hexBytes 5 0x4141030303) 16) ∧
    inputIs { full with len := 2 } ([0x41] ++ [0x41]) ∧ ¬ endsInPadding ([0x41] ++ [0x41]) 16 :=
  ⟨⟨inputIs_full, endsInPadding_input⟩, inputIs_full2, not_endsInPadding _ _ _ (by decide)⟩

theorem witness_PaddingFailureLeaksNothing :
    inputIs { full with len := 2 } ([0x41] ++ [0x41]) ∧
    inputIs { full with len := 2, dmem := full.dmem.write 1 0x42 } ([0x41] ++ [0x42]) ∧
    ¬ endsInPadding ([0x41] ++ [0x41]) 16 ∧ ¬ endsInPadding ([0x41] ++ [0x42]) 16 :=
  ⟨inputIs_full2, ⟨by decide +kernel, by decide +kernel⟩, not_endsInPadding _ _ _ (by decide), not_endsInPadding _ _ _ (by decide)⟩

/-- One witness for each clause, at n = 255, and each way Validate fails. -/
theorem witness_PadThenUnpadIsIdentity :
    (1 ≤ 255 ∧ (hexBytes 5 0x4141030303).length % 255 ≠ 0 ∧ (hexBytes 5 0x4141030303).length % 1 = 0) ∧
    ((0 : Byte) = 0) ∧ 16 < (17 : Byte).toNat ∧ ([] ++ [(3 : Byte)]).length < (3 : Byte).toNat ∧
    (2 < (3 : Byte).toNat ∧ (3 : Byte).toNat ≤ ([(1 : Byte), 3] ++ [3]).length ∧
      ([(1 : Byte), 3] ++ [3])[([(1 : Byte), 3] ++ [3]).length - 1 - 2]? ≠ some 3) := by decide

theorem witness_UnpadCommandUndoesPadCommand :
    full.config.ok = true ∧ (4 : Byte) ≠ 0 ∧ inputIs full (hexBytes 5 0x4141030303) ∧ (hexBytes 5 0x4141030303).length % (4 : Byte).toNat ≠ 0 ∧
    full.inRange full.dst.toNat (padLength (hexBytes 5 0x4141030303).length (4 : Byte).toNat) = true ∧
    full.inRange (59 : Word).toNat (hexBytes 5 0x4141030303).length = true :=
  ⟨by decide, by decide, inputIs_full, by decide, by decide +kernel, by decide +kernel⟩

/-- PAD and UNPAD that write, an error of each, and VALID. -/
theorem witness_PaddingCommandFrame :
    (∃ t, exec (.pad 4) full = .next t ∧ t.err = errOk) ∧ (∃ t, exec (.pad 0) full = .next t ∧ t.err ≠ errOk) ∧
    (∃ t, exec (.unpad 16) full = .next t ∧ t.err = errOk) ∧ (∃ t, exec (.unpad 2) full = .next t ∧ t.err ≠ errOk) ∧
    ∃ t, exec (.valid 16) full = .next t := by
  refine ⟨?_, ⟨_, rfl, by decide⟩, ?_, ?_, ?_⟩
  · obtain ⟨t, h, hp⟩ := exists_next (r := exec (.pad 4) full) (p := fun t => t.err == 0) (by decide +kernel)
    exact ⟨t, h, eq_of_beq hp⟩
  · obtain ⟨t, h, hp⟩ := exists_next (r := exec (.unpad 16) full) (p := fun t => t.err == 0) (by decide +kernel)
    exact ⟨t, h, eq_of_beq hp⟩
  · obtain ⟨t, h, hp⟩ := exists_next (r := exec (.unpad 2) full) (p := fun t => t.err == 3) (by decide +kernel)
    exact ⟨t, h, by rw [eq_of_beq hp]; decide⟩
  · exact next_of (by decide +kernel)

/-- For EcbCommandsWorkBlockwise, CbcCommandsChainCiphertext and CtrCommandsXorKeystream, with a block in the output. -/
theorem witness_codecCommands :
    codecReady .ecb full ∧ codecReady .cbc full ∧ codecReady .ctr full ∧ inputIs full (hexBytes 5 0x4141030303) ∧
    0 < padLength (hexBytes 5 0x4141030303).length 16 / 16 :=
  ⟨codecReady_full _, codecReady_full _, codecReady_full _, inputIs_full, by decide⟩

theorem witness_DecodeUndoesEncode :
    Mode.cbc ≠ .gcm ∧ codecReady .cbc full ∧ inputIs full (hexBytes 5 0x4141030303) ∧
    full.inRange (48 : Word).toNat (codecLength .cbc (hexBytes 5 0x4141030303).length) = true ∧
    full.inRange (59 : Word).toNat (hexBytes 5 0x4141030303).length = true ∧ (hexBytes 5 0x4141030303).length % 16 ≠ 0 ∧
    Mode.ctr ≠ .gcm ∧ codecReady .ctr full ∧
    (inputIs { full with len := 16 } (hexBytes 5 0x4141030303 ++ List.replicate 11 0x41) ∧ codecReady .ecb { full with len := 16 } ∧
      (hexBytes 5 0x4141030303 ++ List.replicate 11 (0x41 : Byte)).length % 16 = 0) :=
  ⟨by decide, codecReady_full _, inputIs_full, by decide +kernel, by decide +kernel, by decide, by decide, codecReady_full _,
    ⟨by decide +kernel, by decide +kernel⟩, ⟨by decide, by decide, by decide +kernel, nofun, by decide +kernel⟩, by decide⟩

/-- Two blocks, the flip in bit 7 of the last byte of block 0. -/
theorem witness_CbcBitFlip :
    codecReady .cbc { full with len := 32 } ∧ inputIs { full with len := 32 } (hexBytes 5 0x4141030303 ++ List.replicate 27 0x41) ∧
    (hexBytes 5 0x4141030303 ++ List.replicate 27 (0x41 : Byte)).length % 16 = 0 ∧
    16 * 1 < (hexBytes 5 0x4141030303 ++ List.replicate 27 (0x41 : Byte)).length ∧ 15 < 16 ∧ 7 < 8 ∧
    (hexBytes 5 0x4141030303 ++ List.replicate 27 (0x41 : Byte))[16 * 0 + 15]? = some 0x41 :=
  ⟨⟨by decide, by decide, by decide +kernel, fun _ => by decide +kernel, by decide +kernel⟩, ⟨by decide +kernel, by decide +kernel⟩,
    by decide, by decide, by decide, by decide, by decide⟩

/-- PAD over its own input and to another destination, with another byte outside the input. -/
theorem witness_OutputDependsOnInputSnapshotOnly :
    bufferWriter (.pad 4) = true ∧
    (full.dmem.write 63 0).cells full.src.toNat full.len.toNat = full.dmem.cells full.src.toNat full.len.toNat ∧
    (∃ t, exec (.pad 4) full = .next t ∧ t.err = errOk) ∧
    ∃ u, exec (.pad 4) { full with dst := 0, dmem := full.dmem.write 63 0 } = .next u ∧ u.err = errOk := by
  refine ⟨rfl, by decide +kernel, ?_, ?_⟩
  · obtain ⟨t, h, hp⟩ := exists_next (r := exec (.pad 4) full) (p := fun t => t.err == 0) (by decide +kernel)
    exact ⟨t, h, eq_of_beq hp⟩
  · obtain ⟨t, h, hp⟩ := exists_next (r := exec (.pad 4) { full with dst := 0, dmem := full.dmem.write 63 0 })
      (p := fun t => t.err == 0) (by decide +kernel)
    exact ⟨t, h, eq_of_beq hp⟩

/-- A codec command that writes, one with a short key length, and one that fails. -/
theorem witness_CodecFrame :
    (∃ t, exec (.enc .ctr) { full with len := 0 } = .next t) ∧
    (∃ t, exec (.dec .ecb) { full with keyLen := 15 } = .next t ∧ ({ full with keyLen := 15 } : State).keyLen ≠ 16) ∧
    ∃ t, exec (.enc .cbc) { full with dst := 49 } = .next t ∧ t.err ≠ errOk := by
  refine ⟨?_, ⟨_, rfl, by decide⟩, ?_⟩
  · exact next_of (by decide +kernel)
  · obtain ⟨t, h, hp⟩ := exists_next (r := exec (.enc .cbc) { full with dst := 49 }) (p := fun t => t.err == 7) (by decide +kernel)
    exact ⟨t, h, by rw [eq_of_beq hp]; decide⟩

/-- The state `full` with an input of one byte of unwritten DMEM. -/
def blank : State := { full with dmem := [], len := 1 }

theorem inputIs_one : inputIs { full with len := 1, ivWritten := Vector.replicate 16 false } [0x41] :=
  ⟨by decide +kernel, by decide +kernel⟩

/-- The state `full` with the first byte of its input 41 41 03 03 03 unwritten. -/
def headless : State := { full with dmem := full.dmem.tail, dst := 62 }

/-- One witness for each clause: a stop on each kind of byte, and each side of each iff met, DST at the last place that fits. -/
theorem witness_BufferCommandsStopOnlyOnUnwrittenBytes :
    (exec .kexp { full with keyWritten := Vector.replicate 32 false } = .fault .unwrittenKey ∧ blockCommand .kexp = false) ∧
    (exec (.pad 4) blank = .fault .unwrittenDmem ∧ blockCommand (.pad 4) = false) ∧
    (exec (.dec .cbc) { full with len := 1, ivWritten := Vector.replicate 16 false } = .fault .unwrittenIv ∧
      blockCommand (.dec .cbc) = false) ∧
    (keyed (.enc .ctr) = true ∧ full.keyLen = 16 ∧ ({ full with keyWritten := full.keyWritten.set 15 false } : State).keyReady = false) ∧
    (full.keyReady = true ∧ inputIs { full with len := 1, ivWritten := Vector.replicate 16 false } [0x41] ∧ [(0x41 : Byte)] ≠ [] ∧
      full.inRange 48 (codecLength .cbc [(0x41 : Byte)].length) = true ∧
      ({ full with ivWritten := full.ivWritten.set 15 false } : State).ivReady = false) ∧
    (Mode.ctr ≠ .gcm ∧ blank.keyReady = true ∧ inputUnwritten { blank with dst := 63 } (codecLength .ctr 1)) ∧
    ((4 : Byte) ≠ 0 ∧ inputUnwritten { blank with dst := 60 } (padLength 1 (4 : Byte).toNat)) ∧
    (blank.inRange blank.src.toNat blank.len.toNat = true ∧ paddingUndecided blank (1 : Byte).toNat) ∧
    (1 ≤ 3 ∧ 3 ≤ (3 : Byte).toNat ∧ (∀ k, k < 3 → headless.dmem.read (0 + 5 - 1 - k) = some (BitVec.ofNat 8 3)) ∧
      headless.inRange headless.dst.toNat (5 - 3) = true ∧ ∃ k, k < 5 - 3 ∧ headless.dmem.read (0 + k) = none) := by
  refine ⟨⟨rfl, rfl⟩, ⟨rfl, rfl⟩, ⟨?_, rfl⟩, by decide +kernel, ⟨by decide +kernel, inputIs_one, by decide, by decide +kernel,
    by decide +kernel⟩, ⟨by decide, by decide +kernel, by decide +kernel, by decide +kernel, by decide +kernel⟩,
    ⟨by decide, by decide +kernel, by decide +kernel, by decide +kernel⟩,
    ⟨by decide +kernel, [1], [0x41], ⟨rfl, fun k v _ hv => by cases hv⟩, ⟨rfl, fun k v _ hv => by cases hv⟩,
      ⟨[], 1, by decide, by decide, by decide, rfl⟩, not_endsInPadding [] _ _ (by decide)⟩,
    by decide, by decide, by decide +kernel, by decide +kernel, 0, by decide, by decide +kernel⟩
  exact stops_of (by decide +kernel)

/-- UNPAD stops on an unwritten byte of its output only: not where the written bytes decide that the padding fails (03 > 2), nor where
the padding is good and its output does not fit (44_modes.md R211). -/
theorem test_unpad_runs_where_unwritten_bytes_do_not_matter :
    faultOf (exec (.unpad 3) headless) = some .unwrittenDmem ∧
    holds (exec (.unpad 2) headless) (fun t => t.err == errPadding) = true ∧
    holds (exec (.unpad 3) { headless with dst := 63 }) (fun t => t.err == errBounds) = true := by
  refine ⟨?_, ?_, ?_⟩ <;> decide +kernel

/-- A command, and host writes that do change the host's registers. -/
theorem witness_EngineNeverWritesHostRegisters :
    (∃ t, exec (.unpad 16) full = .next t) ∧
    ∃ t, step (withEvents full [.write32 0x10 7]) = .next t ∧ ¬ sameHostRegisters (withEvents full [.write32 0x10 7]) t := by
  refine ⟨?_, ⟨_, rfl, fun h => absurd h.1 (by decide +kernel)⟩⟩
  exact next_of (by decide +kernel)

theorem witness_ResultRegisterRule :
    ResultIsByte full ∧ (∃ t, step (about full 0x00835701) = .next t) ∧ (∃ t, exec (.gfmul 0x57 0x83) full = .next t) ∧
    (∃ t, exec (.sbox 0xFF) full = .next t) ∧ (∃ t, exec (.isbox 0) full = .next t) ∧
    (∀ a b, Instr.shr ≠ .gfmul a b) ∧ (∀ a, Instr.shr ≠ .sbox a) ∧ (∀ a, Instr.shr ≠ .isbox a) ∧ ∃ t, exec .shr full = .next t := by
  refine ⟨by decide +kernel, ?_, ⟨_, rfl⟩, ⟨_, rfl⟩, ⟨_, rfl⟩, nofun, nofun, nofun, next_of (by decide +kernel)⟩
  exact next_of (by decide +kernel)

/-- A buffer command that succeeds, one with an error, one that faults; another command; an ignored and an illegal word. -/
theorem witness_OutLenRule :
    full.config.ok = true ∧ full.fault = false ∧ bufferWriter (.pad 4) = true ∧ (∃ t, exec (.pad 4) full = .next t ∧ t.err = errOk) ∧
    (∃ t, exec (.pad 0) full = .next t ∧ 1 ≤ t.err.toNat ∧ t.err.toNat ≤ 8) ∧
    (bufferWriter (.enc .gcm) = true ∧ ∃ t, exec (.enc .gcm) full = .next t ∧ t.err = errUnimplemented) ∧
    (bufferWriter (.sbox 0) = false ∧ ∃ t, exec (.sbox 0) full = .next t) ∧
    (faulted.fault = true ∧ issue 0x20 faulted = .next faulted) ∧ legal 0 = false ∧ ∃ t, issue 0 full = .next t := by
  refine ⟨by decide, rfl, rfl, ?_, ⟨_, rfl, by decide, by decide⟩, ⟨rfl, ?_⟩, ⟨rfl, _, rfl⟩, ⟨rfl, rfl⟩, by decide, ⟨_, rfl⟩⟩
  · obtain ⟨t, h, hp⟩ := exists_next (r := exec (.pad 4) full) (p := fun t => t.err == 0) (by decide +kernel)
    exact ⟨t, h, eq_of_beq hp⟩
  · obtain ⟨t, h, hp⟩ := exists_next (r := exec (.enc .gcm) full) (p := fun t => t.err == 15) (by decide +kernel)
    exact ⟨t, h, eq_of_beq hp⟩

theorem witness_ResetLeavesResetValues : hostEvent .reset full = .next full.platformReset ∧ 0x24 < 0x28 ∧ 0x24 % 4 = 0 := ⟨rfl, by decide, by decide⟩

/-- The first and the last word of a byte range the host can write, of RK, and of DMEM; four written bytes. -/
theorem witness_WordAccessesAreLittleEndian :
    readableBytes full 0x40 4 ∧ readableBytes full 0x12C 4 ∧ readableBytes full 0x103C 4 ∧ writableBytes full 0x40 4 ∧
    writableBytes full 0x7C 4 ∧ writableBytes full 0x1000 4 ∧ writableBytes full 0x103C 4 ∧ 0x103C % 4 = 0 ∧
    ∀ k : Fin 4, hostEvent (.read8 (full.config.engineBase + (0x103C + k.val))) full =
      .next { full with readData := some (.byte ((fun _ => 0x41) k)) } := by
  have e : full.config.dmemSize = 64 := rfl
  refine ⟨by simp [readableBytes], by simp [readableBytes], by simp [readableBytes, e], by simp [writableBytes], by simp [writableBytes],
    by simp [writableBytes, e], by simp [writableBytes, e], by decide, fun k => ?_⟩
  have hl : locate8 full.config (full.config.engineBase + (0x103C + k.val)) = .ok (.dmem, 0x3C + k.val) := by revert k; decide +kernel
  have hr : full.arrayByte .dmem (0x3C + k.val) = some 0x41 := by revert k; decide +kernel
  simp [hostEvent, hl, hr, State.drawByte]

/-- A read of a written byte, and the ends of each range of offsets. -/
theorem witness_HostAccessSideEffects :
    (∃ t, hostEvent (.read8 0x60) full = .next t ∧ t.draws = full.draws) ∧ (0x80 ≤ 0x12F ∧ 0x12F < 0x130 ∧ 0x12C % 4 = 0) ∧
    (0x40 ≤ 0x5F ∧ 0x5F < 0x60) ∧ (0x60 ≤ 0x6F ∧ 0x6F < 0x70) ∧ (0x70 ≤ 0x7F ∧ 0x7F < 0x80) ∧ 63 < full.config.dmemSize ∧
    0x7C % 4 = 0 ∧ writableBytes full 0x7C 4 ∧
    (readableBytes full 0x4F 1 ∧ hostByte full 0x4F = some 0x75) ∧ (readableBytes full 0x6F 1 ∧ hostByte full 0x6F = some 0x0F) ∧
    (readableBytes full 0x7F 1 ∧ hostByte full 0x7F = some 0x6F) ∧ (readableBytes full 0x80 1 ∧ hostByte full 0x80 = some 0x54) ∧
    (readableBytes full 0x12F 1 ∧ hostByte full 0x12F = some 0x26) ∧ readableBytes full 0x103F 1 ∧
    hostByte full 0x103F = some 0x41 := by
  have e : full.config.dmemSize = 64 := rfl
  refine ⟨?_, by decide, by decide, by decide, by decide, by decide, by decide, by simp [writableBytes],
    ⟨by simp [readableBytes], by decide +kernel⟩, ⟨by simp [readableBytes], by decide +kernel⟩,
    ⟨by simp [readableBytes], by decide +kernel⟩, ⟨by simp [readableBytes], by decide +kernel⟩,
    ⟨by simp [readableBytes], by decide +kernel⟩, by simp [readableBytes, e], by decide +kernel⟩
  obtain ⟨t, h, hp⟩ := exists_next (r := hostEvent (.read8 0x60) full) (p := fun t => t.draws == 0) (by decide +kernel)
  exact ⟨t, h, eq_of_beq hp⟩

/-- An unwritten byte at an end of each byte range; and the last word of KEY and of DMEM. -/
theorem witness_UnwrittenReadsAreDrawnFreely :
    (readableBytes State.reset 0x40 1 ∧ hostByte State.reset 0x40 = none) ∧
    (readableBytes State.reset 0x6F 1 ∧ hostByte State.reset 0x6F = none) ∧
    (readableBytes State.reset 0x70 1 ∧ hostByte State.reset 0x70 = none) ∧
    (readableBytes State.reset 0x12F 1 ∧ hostByte State.reset 0x12F = none) ∧
    (readableBytes State.reset 0x1FFF 1 ∧ hostByte State.reset 0x1FFF = none) ∧
    0x5C % 4 = 0 ∧ readableBytes full 0x5C 4 ∧ 0x1FFC % 4 = 0 ∧ readableBytes State.reset 0x1FFC 4 := by
  have e : State.reset.config.dmemSize = 4096 := rfl
  refine ⟨⟨by simp [readableBytes], by decide +kernel⟩, ⟨by simp [readableBytes], by decide +kernel⟩,
    ⟨by simp [readableBytes], by decide +kernel⟩, ⟨by simp [readableBytes], by decide +kernel⟩,
    ⟨by simp [readableBytes, e], by decide +kernel⟩, by decide, by simp [readableBytes], by decide, by simp [readableBytes, e]⟩

/-- For the statements about every step: a store to the last byte of DMEM, a key step and the fault, from a state that meets them. -/
theorem witness_stepInvariants :
    MemoryCanonical full ∧ RoundKeysCurrent full ∧ StatusLegal full ∧ OutLenFits full ∧ (∃ t, step (withEvents full [.write8 0x103F 7]) = .next t) ∧
    (∃ t, step (about full 0x20) = .next t) ∧ ∃ t, step (about full 0x330) = .next t := by
  refine ⟨by decide +kernel, ?_, by decide +kernel, by decide +kernel, ⟨_, rfl⟩, ?_, ?_⟩
  · exact fun _ => ⟨rfl, by decide +kernel, rfl, congrArg keyExpansion (by decide +kernel)⟩
  · exact next_of (by decide +kernel)
  · exact next_of (by decide +kernel)

/-! ## One step of the commands that run whole rounds or the key schedule, against 95_test_vectors.md: last, since their kernel
evaluation is the longest -/

/-- Section 2.3: RK[1] and RK[10] of the key K. -/
theorem test_kexp : roundKeyAfter 1 (runWord 0x20 (withKey keyK)) = some (hex16 0xe232fcf191129188b159e4e6d679a293, 0x200) ∧
    roundKeyAfter 10 (runWord 0x20 (withKey keyK)) = some (hex16 0x28fddef86da4244accc0a4fe3b316f26, 0x200) := by decide +kernel
/-- T20, and T24: IROUND 0. -/
theorem test_iround :
    blockAfter (runWord 0x00010A18 (withBlock (withSchedule keyK) (hex16 0x29c3505f571420f6402299b31a02d73a))) =
      some (hex16 0x09668b78a2d19a65f0fce6c47b3b3089, 0) ∧
    blockAfter (runWord 0x18 (withBlock (withSchedule keyK) (hex16 0x3e023d315f4d5e289092280f40bc6729))) =
      some (bytesI, 0) := by decide +kernel
/-- T18, and T25: ROUND.F 3, which the cipher never uses. -/
theorem test_round : blockAfter (runWord 0x117 (withBlock (withSchedule keyK) (hex16 0x001f0e543c4e08596e221b0b4774311a))) =
      some (hex16 0x5847088b15b61cba59d4e2e8cd39dfce, 0) ∧
    blockAfter (runWord 0x00010317 (withBlock (withSchedule keyK) bytesI)) =
      some (hex16 0xb10b6a91e77b171353ee9ec43d7f71d0, 0) := by decide +kernel
/-- Block 0 of V-CBC2, in place. -/
theorem test_dec_cbc : outputAfter (runWord 0x131 (withIV (withInput (withKey keyK)
      (hexBytes 16 0x71fe8019ffd9fbcd3ab5f5ea6f2ad1ca) 0) bytesI)) = some (some textT.toList, 16, 0) := by decide +kernel
/-- V-ECB4: 19 bytes, padded before they are decrypted. -/
theorem test_dec : outputAfter (runWord 0x31 (withInput (withKey keyY) (keyY.toList ++ hexBytes 3 0x212121) 32)) =
    some (some (hexBytes 32 0x29dbcf1b3f41ddeb76d30453511bfe7f07ea6d14fa7ed662b1effb7942c2f8b7), 32, 0) := by decide +kernel
/-- V-CTR3: a nonce of 0x0123456789abcdef; and V-ENC7: mode GCM. -/
theorem test_enc_ctr :
    outputAfter (runWord 0x230 { withInput (withKey keyY) (hexBytes 5 0x68656c6c6f) 8 with
      nonceLo := 0x89abcdef, nonceHi := 0x01234567 }) = some (some (hexBytes 5 0x90b9bb857e), 5, 0) ∧
    registersAfter (runWord 0x330 (withKey keyY)) = some (0x30F, 0) := by decide +kernel
/-- V-CBC1; block 0 with IV 0 is plain ECB. -/
theorem test_enc_cbc :
    outputAfter (runWord 0x130 (withIV (withInput (withKey keyK) (textT.toList ++ textT.toList) 32) (hex16 0))) =
      some (some (hexBytes 32 0x29c3505f571420f6402299b31a02d73a7dd2046aee8c4b039f51a10d61b25446), 32, 0) := by decide +kernel
/-- T22. -/
theorem test_decb : blockAfter (runWord 0x22 (withBlock (withSchedule keyK) (hex16 0x29c3505f571420f6402299b31a02d73a))) =
    some (textT, 0) := by decide +kernel
/-- T21. -/
theorem test_encb : blockAfter (runWord 0x21 (withBlock (withSchedule keyK) textT)) =
    some (hex16 0x29c3505f571420f6402299b31a02d73a, 0) := by decide +kernel

end Sys2Proof.Tests
end

/-! # Proofs of the family 10_state.md: rules for host accesses and commands, then the obligations -/

namespace Sys2Proof.Machine

open Sys2Proof.Claims

/-! ## Host writes, field by field -/

@[simp] theorem State.writeReg_config (s : State) (r : RegName) (v : Word) : (s.writeReg r v).config = s.config := by
  cases r <;> rfl
@[simp] theorem State.writeReg_dmem (s : State) (r : RegName) (v : Word) : (s.writeReg r v).dmem = s.dmem := by
  cases r <;> rfl
@[simp] theorem State.writeReg_fault (s : State) (r : RegName) (v : Word) : (s.writeReg r v).fault = s.fault := by
  cases r <;> rfl
@[simp] theorem State.writeReg_result (s : State) (r : RegName) (v : Word) : (s.writeReg r v).result = s.result := by
  cases r <;> rfl
@[simp] theorem State.writeReg_outLen (s : State) (r : RegName) (v : Word) : (s.writeReg r v).outLen = s.outLen := by
  cases r <;> rfl
theorem State.writeReg_rkValid (s : State) (r : RegName) (v : Word) :
    (s.writeReg r v).rkValid = if r = .keyLen then false else s.rkValid := by cases r <;> rfl

@[simp] theorem State.writeArrayByte_config (s : State) (a : ArrayName) (i : Nat) (v : Byte) :
    (s.writeArrayByte a i v).config = s.config := by cases a <;> rfl
@[simp] theorem State.writeArrayByte_fault (s : State) (a : ArrayName) (i : Nat) (v : Byte) :
    (s.writeArrayByte a i v).fault = s.fault := by cases a <;> rfl
@[simp] theorem State.writeArrayByte_result (s : State) (a : ArrayName) (i : Nat) (v : Byte) :
    (s.writeArrayByte a i v).result = s.result := by cases a <;> rfl
@[simp] theorem State.writeArrayByte_outLen (s : State) (a : ArrayName) (i : Nat) (v : Byte) :
    (s.writeArrayByte a i v).outLen = s.outLen := by cases a <;> rfl
theorem State.writeArrayByte_rkValid (s : State) (a : ArrayName) (i : Nat) (v : Byte) :
    (s.writeArrayByte a i v).rkValid = if a = .key then false else s.rkValid := by cases a <;> rfl
theorem State.writeArrayWord_rkValid (s : State) (a : ArrayName) (i : Nat) (v : Word) :
    (s.writeArrayWord a i v).rkValid = if a = .key then false else s.rkValid := by
  by_cases h : a = .key <;> simp [State.writeArrayWord, State.writeArrayByte_rkValid, h]

/-- A word write is four byte writes, so what register writes and byte writes keep, every host write keeps. -/
theorem HostWrite.keeps {P : State → Prop} (hReg : ∀ s r v, P s → P (s.writeReg r v))
    (hByte : ∀ (s : State) a i v, (a = .dmem → i < s.config.dmemSize) → P s → P (s.writeArrayByte a i v))
    {s t : State} (hs : P s) (h : HostWrite s t) : P t := by
  cases h with
  | reg r v => exact hReg s r v hs
  | byte a i v hi => exact hByte s a i v hi hs
  | word a i v hi =>
    have bound : ∀ k, k ≤ 3 → a = .dmem → i + k < s.config.dmemSize := fun k hk ha => by have := hi ha; omega
    exact hByte _ a _ _ (by simpa using bound 3 (by omega)) <| hByte _ a _ _ (by simpa using bound 2 (by omega)) <|
      hByte _ a _ _ (by simpa using bound 1 (by omega)) <| hByte _ a _ _ (bound 0 (by omega)) hs

/-! ## The frame of every command -/

/-- The last writes of a command leave the host's registers, KEY, IV, RK and RK_VALID alone. -/
theorem EndsAs.frame {base t : State} (h : EndsAs base t) :
    t = { base with err := t.err, fault := t.fault, result := t.result, outLen := t.outLen, state := t.state, dmem := t.dmem } := by
  rcases h with ⟨c, _, _, rfl⟩ | ⟨c, _, _, rfl⟩ | rfl | ⟨v, rfl⟩ | ⟨b, _, rfl⟩ | ⟨out, _, rfl⟩ <;> rfl

/-- A key step writes RK with its mark and RK_VALID, and nothing else (42_key_schedule.md R163). -/
theorem KeyedFrom.frame {s base : State} (h : KeyedFrom s base) :
    base = { s with rk := base.rk, rkWritten := base.rkWritten, rkValid := base.rkValid } := by
  rcases h with rfl | ⟨rfl, _, _⟩ <;> rfl

/-- Everything a command may change. -/
theorem exec_frame {i : Instr} {s t : State} (h : exec i s = .next t) :
    t = { s with err := t.err, fault := t.fault, rkValid := t.rkValid, result := t.result, outLen := t.outLen, state := t.state,
                 rk := t.rk, rkWritten := t.rkWritten, dmem := t.dmem } := by
  obtain ⟨base, hk, he⟩ := exec_effect h
  rw [he.frame, hk.frame]

/-! ## Invariants of every step -/

theorem memoryCanonical_endsAs {base t : State} (hb : MemoryCanonical base) (h : EndsAs base t) : MemoryCanonical t := by
  rcases h with ⟨c, _, _, rfl⟩ | ⟨c, _, _, rfl⟩ | rfl | ⟨v, rfl⟩ | ⟨b, _, rfl⟩ | ⟨out, hout, rfl⟩
  case inr.inr.inr.inr.inr => exact ⟨Memory.writeBytes_wf hb.1 _ out, Memory.writeBytes_below hb.2 out hout⟩
  all_goals exact hb

theorem memoryCanonical_hostWrite {s t : State} (hs : MemoryCanonical s) (h : HostWrite s t) : MemoryCanonical t := by
  refine HostWrite.keeps (fun s r v hs => by simpa [MemoryCanonical] using hs) (fun s a i v hi hs => ?_) hs h
  cases a with
  | dmem => exact ⟨Memory.write_wf hs.1 i v, Memory.write_below hs.2 (hi rfl) v⟩
  | key | iv | state | rk => exact hs

theorem memoryCanonical_reset (s : State) : MemoryCanonical s.platformReset :=
  ⟨List.Pairwise.nil, fun _ hc => absurd hc List.not_mem_nil⟩

/-- Settles O58: of all the ends of a command only an output writes DMEM, and it is checked to fit; a host write of a byte is
served inside DMEM only. -/
theorem stepKeepsMemoryCanonical : Obligations.StepKeepsMemoryCanonical := by
  intro s t hs h
  refine step_keeps (P := MemoryCanonical) (fun s l d n hs => hs) (fun s t => memoryCanonical_hostWrite)
    (fun s base hs hf hk => ?_) (fun s t hs _ => memoryCanonical_endsAs hs) (fun s _ => memoryCanonical_reset s) hs h
  rw [hk.frame]
  exact ⟨hs, hf⟩

theorem roundKeysCurrent_of_invalid {s : State} (h : s.rkValid = false) : RoundKeysCurrent s := fun hv => by simp [h] at hv

/-- A key step that succeeds leaves RK current, whatever it was. -/
theorem roundKeysCurrent_keyedFrom {s base : State} (hs : RoundKeysCurrent s) (h : KeyedFrom s base) : RoundKeysCurrent base := by
  rcases h with rfl | ⟨rfl, h16, hk⟩
  · exact hs
  · exact fun _ => ⟨h16, hk, rfl, rfl⟩

theorem roundKeysCurrent_endsAs {base t : State} (hb : RoundKeysCurrent base) (h : EndsAs base t) : RoundKeysCurrent t := by
  rw [h.frame]; exact hb

/-- A host write that touches KEY or KEY_LEN clears RK_VALID, and none touches RK. -/
theorem roundKeysCurrent_hostWrite {s t : State} (hs : RoundKeysCurrent s) (h : HostWrite s t) : RoundKeysCurrent t := by
  refine HostWrite.keeps (fun s r v hs => ?_) (fun s a i v _ hs => ?_) hs h
  · cases r with
    | keyLen => exact roundKeysCurrent_of_invalid rfl
    | status | result | outLen | src | dst | len | nonceLo | nonceHi => exact hs
  · cases a with
    | key => exact roundKeysCurrent_of_invalid rfl
    | iv | state | rk | dmem => exact hs

/-- Settles O59: a key step makes RK current, the ends of a command leave it alone, and a key write or a reset clears RK_VALID. -/
theorem stepKeepsRoundKeysCurrent : Obligations.StepKeepsRoundKeysCurrent := by
  intro s t hs h
  refine step_keeps (P := RoundKeysCurrent) (fun s l d n hs => hs) (fun s t => roundKeysCurrent_hostWrite)
    (fun s base hs hf hk => ⟨roundKeysCurrent_keyedFrom hs hk, ?_⟩) (fun s t hs _ => roundKeysCurrent_endsAs hs)
    (fun s _ => roundKeysCurrent_of_invalid rfl) hs h
  rw [hk.frame]
  exact hf

end Sys2Proof.Machine

namespace Sys2Proof.Machine

open Sys2Proof.Claims

/-! ## Host events, one rule each -/

/-- Everything a step can be: the engine idles, or the oldest event happens. -/
theorem step_next {s t : State} (h : step s = .next t) :
    (s.pending = [] ∧ t = s) ∨ ∃ e rest, s.pending = e :: rest ∧ hostEvent e { s with pending := rest } = .next t := by
  unfold step at h
  split at h
  · cases h; exact .inl ⟨‹_›, rfl⟩
  · exact .inr ⟨_, _, ‹_›, h⟩

theorem step_event {s : State} {e : HostEvent} {rest : List HostEvent} (h : s.pending = e :: rest) :
    step s = hostEvent e { s with pending := rest } := by simp only [step, h]

/-- A Write32 at ENGINE_BASE is a command word (30_encoding.md R80). -/
theorem hostEvent_command (w : Word) (s : State) : hostEvent (.write32 s.config.engineBase w) s = issue w s := by
  simp only [hostEvent, locate32_cmd]

theorem hostEvent_readReg (r : RegName) (s : State) :
    hostEvent (.read32 (s.config.engineBase + regOffset r)) s = .next { s with readData := some (.word (s.readReg r)) } := by
  simp only [hostEvent, locate32_reg]

theorem hostEvent_writeReg (r : RegName) (v : Word) (s : State) :
    hostEvent (.write32 (s.config.engineBase + regOffset r) v) s = .next (s.writeReg r v) := by
  simp only [hostEvent, locate32_reg]

/-- The byte accesses of a byte range, by its offset. -/
theorem hostEvent_readByte {s : State} {a : ArrayName} {o : Nat} (h1 : (arrayRange s.config a).1 ≤ o)
    (h2 : o < (arrayRange s.config a).1 + (arrayRange s.config a).2) :
    hostEvent (.read8 (s.config.engineBase + o)) s =
      .next { (s.drawByte (s.arrayByte a (o - (arrayRange s.config a).1))).2 with
        readData := some (.byte (s.drawByte (s.arrayByte a (o - (arrayRange s.config a).1))).1) } := by
  simp only [hostEvent, locate8_array h1 h2]

theorem hostEvent_writeByte {s : State} {a : ArrayName} {o : Nat} (h1 : (arrayRange s.config a).1 ≤ o)
    (h2 : o < (arrayRange s.config a).1 + (arrayRange s.config a).2) (v : Byte) :
    hostEvent (.write8 (s.config.engineBase + o) v) s = .next (s.writeArrayByte a (o - (arrayRange s.config a).1) v) := by
  simp only [hostEvent, locate8_array h1 h2]

/-- The word accesses of a byte range, by its offset. -/
theorem hostEvent_readWord {s : State} {a : ArrayName} {o : Nat} (h4 : o % 4 = 0) (h1 : (arrayRange s.config a).1 ≤ o)
    (h2 : o + 4 ≤ (arrayRange s.config a).1 + (arrayRange s.config a).2) :
    hostEvent (.read32 (s.config.engineBase + o)) s =
      .next { (s.readArrayWord a (o - (arrayRange s.config a).1)).2 with
        readData := some (.word (s.readArrayWord a (o - (arrayRange s.config a).1)).1) } := by
  simp only [hostEvent, locate32_array h4 h1 h2]

theorem hostEvent_writeWord {s : State} {a : ArrayName} {o : Nat} (h4 : o % 4 = 0) (h1 : (arrayRange s.config a).1 ≤ o)
    (h2 : o + 4 ≤ (arrayRange s.config a).1 + (arrayRange s.config a).2) (v : Word) :
    hostEvent (.write32 (s.config.engineBase + o) v) s = .next (s.writeArrayWord a (o - (arrayRange s.config a).1) v) := by
  simp only [hostEvent, locate32_array h4 h1 h2]

/-- A step whose event is a command word hands it to `issue`, without the event. -/
theorem step_command {s : State} {w : Word} {rest : List HostEvent} (h : commandPending s w rest) :
    step s = issue w { s with pending := rest } := (step_event h).trans (hostEvent_command w { s with pending := rest })

theorem issue_faulted {w : Word} {s : State} (h : s.fault = true) : issue w s = .next s := by simp [issue, h]

theorem issue_decoded {w : Word} {s : State} {i : Instr} (h : s.fault = false) (hd : decode w = .ok i) :
    issue w s = exec i s := by simp [issue, h, hd]

/-- The rows of the map by name: where a range begins and how long it is (10_state.md R23). -/
theorem addressMap_row {c : Config} {r : MapRow} (h : r ∈ addressMap c) :
    (r.name = .cmd ∧ r.base = 0 ∧ r.size = 4) ∨ (∃ n, r.name = .reg n ∧ r.base = regOffset n ∧ r.size = 4) ∨
      ∃ a, r.name = .array a ∧ r.base = (arrayRange c a).1 ∧ r.size = (arrayRange c a).2 := by
  simp only [addressMap, List.mem_cons, List.not_mem_nil, or_false] at h
  rcases h with rfl | rfl | rfl | rfl | rfl | rfl | rfl | rfl | rfl | rfl | rfl | rfl | rfl | rfl | rfl
  case inl => exact .inl ⟨rfl, rfl, rfl⟩
  iterate 9 exact .inr (.inl ⟨_, rfl, rfl, rfl⟩)
  all_goals exact .inr (.inr ⟨_, rfl, rfl, rfl⟩)

/-- An 8-bit access that is served lies in the byte range it goes to. -/
theorem locate8_inv {c : Config} {addr i : Nat} {a : ArrayName} (h : locate8 c addr = .ok (a, i)) :
    addr = c.engineBase + (arrayRange c a).1 + i ∧ i < (arrayRange c a).2 := by
  unfold locate8 at h
  split at h
  · cases h
  · rename_i r o hr
    obtain ⟨h0, ho, hm, h1, h2⟩ := rowAt_eq_some hr
    split at h
    · rename_i hn
      cases h
      rcases addressMap_row hm with ⟨hn', _⟩ | ⟨n, hn', _⟩ | ⟨a', hn', hb, hs⟩ <;> rw [hn] at hn' <;> cases hn'
      omega
    · cases h
    · cases h

/-- A 32-bit access that is served goes to CMD at ENGINE_BASE, to a register at its offset, or lies whole in a byte range. -/
theorem locate32_cases {c : Config} {addr i : Nat} {n : RangeName} (h : locate32 c addr = .ok (n, i)) :
    (n = .cmd ∧ addr = c.engineBase) ∨ (∃ r, n = .reg r ∧ addr = c.engineBase + regOffset r) ∨
      ∃ a, n = .array a ∧ addr = c.engineBase + (arrayRange c a).1 + i ∧ i + 3 < (arrayRange c a).2 ∧
        ((arrayRange c a).1 + i) % 4 = 0 := by
  obtain ⟨r, hm, rfl, ha, hi, h4⟩ := locate32_inv h
  rcases addressMap_row hm with ⟨hn, hb, hs⟩ | ⟨x, hn, hb, hs⟩ | ⟨x, hn, hb, hs⟩
  · exact .inl ⟨hn, by omega⟩
  · exact .inr (.inl ⟨x, hn, by omega⟩)
  · exact .inr (.inr ⟨x, hn, by rw [← hb]; exact ha, by rw [← hs]; exact hi, by rw [← hb]; exact h4⟩)

/-- A host read changes what the host last read and the count of draws, and nothing else (20_memory.md R55). -/
theorem hostEvent_read_next {e : HostEvent} {addr : Nat} {s t : State} (he : e = .read8 addr ∨ e = .read32 addr)
    (h : hostEvent e s = .next t) : ∃ d n, t = { s with readData := d, draws := n } := by
  rcases he with rfl | rfl
  · simp only [hostEvent] at h
    split at h
    · cases h
    · rename_i a i _
      cases h
      obtain ⟨n, hn⟩ := s.drawByte_snd (s.arrayByte a i)
      exact ⟨_, n, by rw [hn]⟩
  · simp only [hostEvent] at h
    split at h
    · cases h
    · cases h; exact ⟨_, s.draws, rfl⟩
    · cases h; exact ⟨_, s.draws, rfl⟩
    · rename_i a i _
      cases h
      obtain ⟨n, hn⟩ := s.readArrayWord_snd a i
      exact ⟨_, n, by rw [hn]⟩

/-! ## Steps and FAULT -/

theorem hostWrite_fault {s t : State} (h : HostWrite s t) : t.fault = s.fault :=
  h.keeps (P := fun u => u.fault = s.fault) (fun u r v hu => by simpa using hu) (fun u a i v _ hu => by simpa using hu) rfl

/-- Under FAULT every event but the reset leaves FAULT set: a command word is ignored, and nothing else writes FAULT. -/
theorem hostEvent_keeps_fault {e : HostEvent} {s t : State} (hs : s.fault = true) (he : e ≠ .reset)
    (h : hostEvent e s = .next t) : t.fault = true := by
  rcases hostEvent_next h with ⟨d, n, rfl⟩ | hw | ⟨w, hw⟩ | ⟨rfl, _⟩
  · exact hs
  · rw [hostWrite_fault hw, hs]
  · rw [issue_faulted hs] at hw
    cases hw
    exact hs
  · exact absurd rfl he

/-- Settles O7: under FAULT a command word is ignored, and no other event but the reset writes FAULT. -/
theorem faultIsStickyUntilReset : Obligations.FaultIsStickyUntilReset := by
  refine ⟨rfl, fun s => rfl, fun s => rfl, fun s t hs h he => ?_, fun s w rest hs h => ?_⟩
  · rcases step_next h with ⟨_, rfl⟩ | ⟨e, rest, hp, h⟩
    · exact hs
    · exact hostEvent_keeps_fault (s := { s with pending := rest }) hs (fun c => he (by simp [hp, c])) h
  · exact (step_command h).trans (issue_faulted hs)

/-- Settles O6: a Write32 at ENGINE_BASE reaches `issue`, which runs the decoded command while FAULT is 0. -/
theorem stepRunsDecodedCommand : Obligations.StepRunsDecodedCommand := by
  refine ⟨fun s w rest i h hf hd => ?_, fun s nbits w i hf hd => ?_, fun s h => ?_⟩
  · exact (step_command h).trans (issue_decoded hf hd)
  · have hd' : decode (tableWord nbits w) = .ok i := by
      unfold decodeTableWord at hd
      split at hd <;> simp_all
    have hp : commandPending (s.withFetchWord nbits w) (tableWord nbits w) s.pending := rfl
    exact (step_command hp).trans (issue_decoded hf hd')
  · simp only [step, h]

/-! ## The host's registers -/

/-- Settles O49: the frame of a command does not list these registers, nor does that of a read. -/
theorem engineNeverWritesHostRegisters : Obligations.EngineNeverWritesHostRegisters := by
  have command : ∀ (i : Instr) (s t : State), exec i s = .next t → sameHostRegisters s t := by
    intro i s t h
    rw [exec_frame h]
    exact ⟨rfl, rfl, rfl, rfl, rfl, rfl, rfl, rfl, rfl, rfl⟩
  have same : ∀ s : State, sameHostRegisters s s := fun s => ⟨rfl, rfl, rfl, rfl, rfl, rfl, rfl, rfl, rfl, rfl⟩
  refine ⟨command, fun s t h hn => ?_⟩
  rcases step_next h with ⟨_, rfl⟩ | ⟨e, rest, hp, h⟩
  · exact absurd (same t) hn
  refine ⟨e, rest, hp, ?_⟩
  cases e with
  | reset => exact .inl rfl
  | write8 a v => exact .inr (.inl ⟨a, v, rfl⟩)
  | write32 a v =>
    refine .inr (.inr ⟨a, v, fun ha => hn ?_, rfl⟩)
    subst ha
    rw [show s.config.engineBase = ({ s with pending := rest } : State).config.engineBase from rfl, hostEvent_command] at h
    rcases issue_next h with ⟨_, rfl⟩ | ⟨_, rfl⟩ | ⟨_, i, _, h⟩
    · exact same s
    · exact same s
    · exact command i { s with pending := rest } t h
  | read8 a =>
    obtain ⟨d, n, rfl⟩ := hostEvent_read_next (.inl rfl) h
    exact absurd (same s) hn
  | read32 a =>
    obtain ⟨d, n, rfl⟩ := hostEvent_read_next (.inr rfl) h
    exact absurd (same s) hn

/-! ## STATUS -/

/-- STATUS bit by bit (10_state.md R25). -/
theorem getLsbD_statusWord (s : State) (i : Nat) : (statusWord s).getLsbD i =
    if i < 4 then s.err.getLsbD i else if i = 8 then s.fault else if i = 9 then s.rkValid else false := by
  unfold statusWord
  erw [BitVec.getLsbD_append, BitVec.getLsbD_append, BitVec.getLsbD_append, BitVec.getLsbD_append]
  by_cases h4 : i < 4
  · simp [h4]
  · rw [if_neg h4, if_neg h4]
    by_cases h8 : i < 8
    · rw [if_pos (by omega), if_neg (by omega), if_neg (by omega)]; simp
    · rw [if_neg (by omega)]
      by_cases e8 : i = 8
      · subst e8; simp
      · rw [if_neg e8, if_neg (by omega)]
        by_cases e9 : i = 9
        · subst e9; simp
        · rw [if_neg e9, if_neg (by omega)]; simp

@[simp] theorem statusWord_platformReset (s : State) : statusWord s.platformReset = 0 :=
  show statusWord State.reset = 0 from rfl

/-- Settles O48: STATUS is read bit by bit, and a write to it is ignored. -/
theorem statusWordLayout : Obligations.StatusWordLayout := by
  refine ⟨fun s => ⟨statusWord s, hostEvent_readReg .status s, ?_, ?_, ?_, fun i hi => ?_⟩,
    fun s v => hostEvent_writeReg .status v s, fun s => ⟨rfl, statusWord_platformReset s⟩⟩
  · apply BitVec.eq_of_getLsbD_eq
    intro i hi
    simp [getLsbD_statusWord, hi]
  · exact getLsbD_statusWord s 8
  · exact getLsbD_statusWord s 9
  · rw [getLsbD_statusWord, if_neg (by omega), if_neg (by omega), if_neg (by omega)]

/-! ## Reset -/

/-- The state after reset and what a reset event leaves are both what `platformReset` makes of some state. -/
theorem eq_platformReset {t : State} (h : t = State.reset ∨ ∃ s, hostEvent .reset s = .next t) :
    ∃ s : State, t = s.platformReset := by
  rcases h with rfl | ⟨s, h⟩
  · exact ⟨State.reset, rfl⟩
  · cases h; exact ⟨s, rfl⟩

/-- An aligned offset below 0x28 is CMD or a 32-bit register (10_state.md R23). -/
theorem registerOffset_cases {o : Nat} (h : o < 0x28) (h4 : o % 4 = 0) : o = 0 ∨ ∃ r, o = regOffset r := by
  have : o = 0 ∨ o = 4 ∨ o = 8 ∨ o = 12 ∨ o = 16 ∨ o = 20 ∨ o = 24 ∨ o = 28 ∨ o = 32 ∨ o = 36 := by omega
  rcases this with h | h | h | h | h | h | h | h | h | h
  · exact .inl h
  · exact .inr ⟨.status, h⟩
  · exact .inr ⟨.result, h⟩
  · exact .inr ⟨.outLen, h⟩
  · exact .inr ⟨.src, h⟩
  · exact .inr ⟨.dst, h⟩
  · exact .inr ⟨.len, h⟩
  · exact .inr ⟨.keyLen, h⟩
  · exact .inr ⟨.nonceLo, h⟩
  · exact .inr ⟨.nonceHi, h⟩

theorem readReg_platformReset (s : State) (r : RegName) : s.platformReset.readReg r = 0 := by
  cases r with
  | status => exact statusWord_platformReset s
  | result | outLen | src | dst | len | keyLen | nonceLo | nonceHi => rfl

theorem getD_replicate_false (n i : Nat) : (Vector.replicate n false)[i]?.getD false = false := by
  rw [Vector.getElem?_replicate]; split <;> rfl

theorem arrayByte_platformReset (s : State) (a : ArrayName) (i : Nat) : s.platformReset.arrayByte a i = none := by
  cases a with
  | key | iv | state => simp [State.arrayByte, State.reset, getD_replicate_false]
  | rk | dmem => rfl

/-- Settles O52: both states are what `platformReset` makes of some state. -/
theorem resetLeavesResetValues : Obligations.ResetLeavesResetValues := by
  refine ⟨fun s => ⟨_, rfl⟩, fun t ht => ?_⟩
  obtain ⟨s, rfl⟩ := eq_platformReset ht
  refine ⟨rfl, rfl, rfl, fun o ho h4 => ?_, arrayByte_platformReset s⟩
  rcases registerOffset_cases ho h4 with rfl | ⟨r, rfl⟩
  · simp only [hostEvent, Nat.add_zero, locate32_cmd]
  · rw [hostEvent_readReg, readReg_platformReset]

/-- Settles O57: the state after a reset event differs from `State.reset` in the parameters and the host's side only. -/
theorem resetMeetsInvariants : Obligations.ResetMeetsInvariants := by
  have invariants : ∀ s : State, MemoryCanonical s.platformReset ∧ RoundKeysCurrent s.platformReset ∧
      StatusLegal s.platformReset ∧ ResultIsByte s.platformReset ∧ OutLenFits s.platformReset := fun s =>
    ⟨memoryCanonical_reset s, roundKeysCurrent_of_invalid rfl, show StatusLegal State.reset by decide,
      show ResultIsByte State.reset by decide, Nat.zero_le _⟩
  exact ⟨invariants State.reset, invariants, rfl, rfl⟩

end Sys2Proof.Machine

namespace Sys2Proof.Machine

open Sys2Proof.Claims

/-! ## What each class of commands can answer -/

/-- A block command only writes a code, or updates STATE (41_block_transforms.md R131, R143). -/
theorem exec_block_cases {i : Instr} (hi : blockCommand i = true) (s : State) :
    (∃ c, exec i s = .next (s.finish c)) ∨ ∃ f, exec i s = s.updateState f := by
  have guarded : ∀ f : RoundKeys → Block → Block, (∃ c, (s.guardRk fun rk => s.updateState (f rk)) = .next (s.finish c)) ∨
      ∃ g, (s.guardRk fun rk => s.updateState (f rk)) = s.updateState g := fun f => by
    cases hv : s.rkValid
    · exact .inl ⟨_, State.guardRk_invalid _ hv⟩
    · exact .inr ⟨_, State.guardRk_valid _ hv⟩
  cases i with
  | subb => exact .inr ⟨subBytes, rfl⟩
  | isubb => exact .inr ⟨invSubBytes, rfl⟩
  | shr => exact .inr ⟨shiftRows, rfl⟩
  | ishr => exact .inr ⟨invShiftRows, rfl⟩
  | mixc f =>
    cases f with
    | false => exact .inr ⟨fun b => mixColumns b false, rfl⟩
    | true => exact .inl ⟨errOk, rfl⟩
  | imixc f =>
    cases f with
    | false => exact .inr ⟨fun b => invMixColumns b false, rfl⟩
    | true => exact .inl ⟨errOk, rfl⟩
  | ark j =>
    simp only [exec, execArk]
    cases roundIndex j with
    | none => exact .inl ⟨_, rfl⟩
    | some k => exact guarded fun rk b => addRoundKey b rk k
  | round j f =>
    simp only [exec, execRound]
    cases roundIndex j with
    | none => exact .inl ⟨_, rfl⟩
    | some k => exact guarded fun rk b => applyRound b rk k f
  | iround j f =>
    simp only [exec, execIround]
    cases roundIndex j with
    | none => exact .inl ⟨_, rfl⟩
    | some k => exact guarded fun rk b => applyInverseRound b rk k f
  | encb => exact guarded fun rk b => cipher b rk
  | decb => exact guarded fun rk b => invCipher b rk
  | gfmul | sbox | isbox | kexp | enc | dec | pad | unpad | valid => cases hi

/-- Everything KEXP can answer (42_key_schedule.md R164). -/
theorem exec_kexp_cases (s : State) :
    (exec .kexp s = .next (s.finish errInvalidKeySize) ∧ s.keyLen ≠ 16 ∧ s.keyLen ≠ 24 ∧ s.keyLen ≠ 32) ∨
    (exec .kexp s = .next s.raiseFault ∧ (s.keyLen = 24 ∨ s.keyLen = 32)) ∨
    (exec .kexp s = .fault .unwrittenKey ∧ s.keyLen = 16 ∧ s.keyReady = false) ∨
    (exec .kexp s = .next ((s.setRoundKeys (keyExpansion s.key128)).finish errOk) ∧ s.keyLen = 16 ∧ s.keyReady = true) := by
  simp only [exec, execKexp]
  rcases keyStep_cases s with ⟨e, h⟩ | ⟨e, h⟩ | ⟨e, h⟩ | ⟨e, h⟩ <;> simp only [e]
  · exact .inl ⟨trivial, h⟩
  · exact .inr (.inl ⟨trivial, h⟩)
  · exact .inr (.inr (.inl ⟨trivial, h⟩))
  · exact .inr (.inr (.inr ⟨trivial, h⟩))

/-- ENC and DEC in a mode that works: the key step, then a buffer operation whose output has the length of the mode, which stops
on its input only in CBC, on an unwritten IV, and which reads RK, IV and the nonce alone (44_modes.md R210, R213, R214). -/
theorem exec_codec {i : Instr} {m : Mode} (hi : i = .enc m ∨ i = .dec m) (hm : m ≠ .gcm) :
    ∃ f : State → List Byte → Except Fault (List Byte),
      (∀ s, exec i s = s.afterKeyStep fun t => t.runBuffer (codecLength m t.len.toNat) (f t)) ∧
      (∀ t b out, f t b = .ok out → out.length = codecLength m b.length) ∧
      (∀ t b r, f t b = .error r ↔ r = .unwrittenIv ∧ m = .cbc ∧ b ≠ [] ∧ t.ivReady = false) ∧
      ∀ t u, u.rk = t.rk → u.iv = t.iv → u.ivReady = t.ivReady → u.nonce = t.nonce → f u = f t := by
  have cbc : ∀ (c : List Byte → RoundKeys → Block → List Byte),
      (∀ (t : State) b r, t.withIv (fun iv b => c b t.rk iv) b = .error r ↔
        r = .unwrittenIv ∧ Mode.cbc = .cbc ∧ b ≠ [] ∧ t.ivReady = false) ∧
      ∀ t u : State, u.rk = t.rk → u.iv = t.iv → u.ivReady = t.ivReady → u.nonce = t.nonce →
        u.withIv (fun iv b => c b u.rk iv) = t.withIv fun iv b => c b t.rk iv := fun c =>
    ⟨fun t b r => by simp [State.withIv_eq_error], fun t u hr hi hw _ => by
      funext b; simp only [State.withIv, hr, hi, hw]⟩
  rcases hi with rfl | rfl <;> cases m with
  | gcm => exact absurd rfl hm
  | ecb =>
    exact ⟨fun t b => .ok _, fun s => rfl, fun t b out h => by cases h; simp [codecLength], fun t b r => by simp,
      fun t u hr _ _ _ => by simp only [hr]⟩
  | ctr =>
    exact ⟨fun t b => .ok _, fun s => rfl, fun t b out h => by cases h; simp [codecLength], fun t b r => by simp,
      fun t u hr _ _ hn => by simp only [hr, hn]⟩
  | cbc =>
    exact ⟨fun t => t.withIv _, fun s => rfl, fun t b out h => by rw [(State.withIv_eq_ok h).1]; simp [codecLength], cbc _⟩

theorem exec_gcm {i : Instr} (hi : i = .enc .gcm ∨ i = .dec .gcm) (s : State) :
    exec i s = s.afterKeyStep fun t => .next t.raiseFault := by rcases hi with rfl | rfl <;> rfl

/-- The first bytes of a range are a range. -/
theorem Memory.take_cells (m : Memory) (a : Nat) {k n : Nat} (h : k ≤ n) : (m.cells a n).take k = m.cells a k := by
  rw [Memory.cells, ← List.map_take, List.take_range, Nat.min_eq_left h, Memory.cells]

/-- Everything UNPAD can answer, in the order of its checks (43_padding.md R186). -/
theorem exec_unpad_cases (n : Byte) (s : State) :
    (s.inRange s.src.toNat s.len.toNat = false ∧ exec (.unpad n) s = .next (s.raiseBufferError errBounds)) ∨
    (s.inRange s.src.toNat s.len.toNat = true ∧
      ((validateCells (s.dmem.cells s.src.toNat s.len.toNat) n.toNat = none ∧ exec (.unpad n) s = .fault .unwrittenDmem) ∨
      (validateCells (s.dmem.cells s.src.toNat s.len.toNat) n.toNat = some false ∧
        exec (.unpad n) s = .next (s.raiseBufferError errPadding)) ∨
      ∃ v : Byte, validateCells (s.dmem.cells s.src.toNat s.len.toNat) n.toNat = some true ∧
        (s.dmem.cells s.src.toNat s.len.toNat).getLast? = some (some v) ∧
        ((s.inRange s.dst.toNat (s.len.toNat - v.toNat) = false ∧ exec (.unpad n) s = .next (s.raiseBufferError errBounds)) ∨
        (s.inRange s.dst.toNat (s.len.toNat - v.toNat) = true ∧
          ((s.dmem.readBytes s.src.toNat (s.len.toNat - v.toNat) = none ∧ exec (.unpad n) s = .fault .unwrittenDmem) ∨
          ∃ out, s.dmem.readBytes s.src.toNat (s.len.toNat - v.toNat) = some out ∧
            exec (.unpad n) s = .next (s.writeOutput out)))))) := by
  simp only [exec, execUnpad]
  cases hs : s.inRange s.src.toNat s.len.toNat with
  | false => exact .inl ⟨rfl, rfl⟩
  | true =>
    refine .inr ⟨rfl, ?_⟩
    cases hv : validateCells (s.dmem.cells s.src.toNat s.len.toNat) n.toNat with
    | none => exact .inl ⟨rfl, rfl⟩
    | some r =>
      cases r with
      | false => exact .inr (.inl ⟨rfl, rfl⟩)
      | true =>
        obtain ⟨v, hl, _⟩ := validateCells_eq_true hv
        refine .inr (.inr ⟨v, rfl, hl, ?_⟩)
        simp only [hl, Option.bind_some, id, Option.getD_some, Memory.take_cells _ _ (Nat.sub_le s.len.toNat v.toNat)]
        cases hd : s.inRange s.dst.toNat (s.len.toNat - v.toNat) with
        | false => exact .inl ⟨rfl, rfl⟩
        | true =>
          refine .inr ⟨rfl, ?_⟩
          cases hb : s.dmem.readBytes s.src.toNat (s.len.toNat - v.toNat) with
          | none =>
            rw [Memory.readBytes] at hb
            exact .inl ⟨rfl, by simp [hb]⟩
          | some out =>
            rw [Memory.readBytes] at hb
            exact .inr ⟨out, rfl, by simp [hb]⟩

/-- Everything VALID can answer (43_padding.md R187). -/
theorem exec_valid_cases (n : Byte) (s : State) :
    (s.inRange s.src.toNat s.len.toNat = true ∧ validateCells (s.dmem.cells s.src.toNat s.len.toNat) n.toNat = none ∧
      exec (.valid n) s = .fault .unwrittenDmem) ∨
    (¬ (s.inRange s.src.toNat s.len.toNat = true ∧ validateCells (s.dmem.cells s.src.toNat s.len.toNat) n.toNat = none) ∧
      ∃ c, exec (.valid n) s = .next (s.finish c)) := by
  simp only [exec, execValid]
  cases s.inRange s.src.toNat s.len.toNat with
  | false => exact .inr ⟨by simp, _, rfl⟩
  | true =>
    cases validateCells (s.dmem.cells s.src.toNat s.len.toNat) n.toNat with
    | none => exact .inl ⟨rfl, rfl, rfl⟩
    | some r => cases r <;> exact .inr ⟨by simp, _, rfl⟩

/-! ## Every effect of a command, by its class -/

/-- The ends of ENC, DEC, PAD and UNPAD: an error that clears OUT_LEN, the fault, or an output that fits (60_exceptions.md R242). -/
inductive BufferEnd (base : State) : State → Prop
  | error (c : BitVec 4) (hc : c ∈ [errInvalidKeySize, errInvalidBlockSize, errPadding, errBounds]) :
      BufferEnd base (base.raiseBufferError c)
  | fault : BufferEnd base base.raiseFault
  | output (out : List Byte) (h : base.dst.toNat + out.length ≤ base.config.dmemSize) : BufferEnd base (base.writeOutput out)

/-- Where the last writes of KEXP, ENC and DEC start: with KEY_LEN 16 in the state after the key step, else in the state itself. -/
inductive KeyStepDone (s : State) : State → Prop
  | expanded (h16 : s.keyLen = 16) (hk : s.keyReady = true) : KeyStepDone s (s.setRoundKeys (keyExpansion s.key128))
  | other (h16 : s.keyLen ≠ 16) : KeyStepDone s s

theorem bufferEnd_runBuffer {s t : State} {n : Nat} {f : List Byte → Except Fault (List Byte)}
    (hf : ∀ b out, b.length = s.len.toNat → f b = .ok out → out.length = n) (h : s.runBuffer n f = .next t) : BufferEnd s t := by
  rcases State.runBuffer_next h with ⟨rfl, _⟩ | ⟨_, hd, b, out, hb, ho, rfl⟩
  · exact .error _ (by decide)
  · refine .output out ?_
    rw [hf b out (Memory.readBytes_length hb) ho]
    exact (State.inRange_iff ..).1 hd

/-- ENC and DEC: the key step, whose errors are ends too, and then an end. -/
theorem exec_codec_next {i : Instr} {m : Mode} {s t : State} (hi : i = .enc m ∨ i = .dec m) (h : exec i s = .next t) :
    ∃ base, KeyStepDone s base ∧ BufferEnd base t := by
  have after : ∀ body : State → Result, (∀ u, body u = .next t → BufferEnd u t) → s.afterKeyStep body = .next t →
      ∃ base, KeyStepDone s base ∧ BufferEnd base t := fun body hb h => by
    rcases State.afterKeyStep_next h with ⟨rfl, h16, _⟩ | ⟨rfl, hl⟩ | ⟨h, h16, hk⟩
    · exact ⟨s, .other h16, .error _ (by decide)⟩
    · exact ⟨s, .other fun h16 => by simp [h16] at hl, .fault⟩
    · exact ⟨_, .expanded h16 hk, hb _ h⟩
  by_cases hm : m = .gcm
  · subst hm
    rw [exec_gcm hi] at h
    exact after _ (fun u hu => by cases hu; exact .fault) h
  · obtain ⟨f, hx, hl, _, _⟩ := exec_codec hi hm
    rw [hx] at h
    exact after _ (fun u hu => bufferEnd_runBuffer (fun b out hb ho => by rw [hl u b out ho, hb]) hu) h

theorem exec_pad_next {n : Byte} {s t : State} (h : exec (.pad n) s = .next t) : BufferEnd s t := by
  simp only [exec, execPad] at h
  split at h
  · cases h; exact .error _ (by decide)
  · exact bufferEnd_runBuffer (fun b out hl ho => by cases ho; simp [hl]) h

theorem exec_unpad_next {n : Byte} {s t : State} (h : exec (.unpad n) s = .next t) : BufferEnd s t := by
  rcases exec_unpad_cases n s with
    ⟨_, e⟩ | ⟨_, ⟨_, e⟩ | ⟨_, e⟩ | ⟨v, _, _, ⟨_, e⟩ | ⟨hd, ⟨_, e⟩ | ⟨out, hb, e⟩⟩⟩⟩ <;> rw [e] at h <;> cases h
  · exact .error _ (by decide)
  · exact .error _ (by decide)
  · exact .error _ (by decide)
  · refine .output out ?_
    rw [Memory.readBytes_length hb]
    exact (State.inRange_iff ..).1 hd

/-- Every next state of every command, by the class of the command. -/
inductive CommandEffect (i : Instr) (s : State) : State → Prop
  | register (v : Byte) (hi : (∃ a b, i = .gfmul a b) ∨ (∃ a, i = .sbox a) ∨ ∃ a, i = .isbox a) : CommandEffect i s (s.setResult v)
  | code (c : BitVec 4) (hi : blockCommand i = true ∨ ∃ n, i = .valid n) : CommandEffect i s (s.finish c)
  | block (b : Block) (hi : blockCommand i = true) : CommandEffect i s { s with state := b, err := errOk }
  | key (base : State) (c : BitVec 4) (hi : i = .kexp) (hk : KeyStepDone s base) : CommandEffect i s (base.finish c)
  | keyFault (hi : i = .kexp) (h16 : s.keyLen ≠ 16) : CommandEffect i s s.raiseFault
  | buffer (base t : State) (hi : bufferWriter i = true)
      (hk : (keyed i = false ∧ base = s) ∨ (keyed i = true ∧ KeyStepDone s base)) (he : BufferEnd base t) : CommandEffect i s t

theorem commandEffect_block {i : Instr} {s t : State} (hi : blockCommand i = true) (h : exec i s = .next t) :
    CommandEffect i s t := by
  rcases exec_block_cases hi s with ⟨c, e⟩ | ⟨f, e⟩ <;> rw [e] at h
  · cases h; exact .code c (.inl hi)
  · obtain ⟨_, rfl⟩ := State.updateState_next h
    exact .block _ hi

theorem exec_commandEffect {i : Instr} {s t : State} (h : exec i s = .next t) : CommandEffect i s t := by
  cases i with
  | gfmul a b => cases h; exact .register _ (.inl ⟨a, b, rfl⟩)
  | sbox x => cases h; exact .register _ (.inr (.inl ⟨x, rfl⟩))
  | isbox y => cases h; exact .register _ (.inr (.inr ⟨y, rfl⟩))
  | subb | isubb | shr | ishr | mixc | imixc | ark | round | iround | encb | decb => exact commandEffect_block rfl h
  | kexp =>
    rcases exec_kexp_cases s with ⟨e, h16, _⟩ | ⟨e, hl⟩ | ⟨e, _⟩ | ⟨e, h16, hk⟩ <;> rw [e] at h <;> cases h
    · exact .key s _ rfl (.other h16)
    · exact .keyFault rfl fun h16 => by simp [h16] at hl
    · exact .key _ _ rfl (.expanded h16 hk)
  | enc m => obtain ⟨base, hk, he⟩ := exec_codec_next (.inl rfl) h; exact .buffer base t rfl (.inr ⟨rfl, hk⟩) he
  | dec m => obtain ⟨base, hk, he⟩ := exec_codec_next (.inr rfl) h; exact .buffer base t rfl (.inr ⟨rfl, hk⟩) he
  | pad n => exact .buffer s t rfl (.inl ⟨rfl, rfl⟩) (exec_pad_next h)
  | unpad n => exact .buffer s t rfl (.inl ⟨rfl, rfl⟩) (exec_unpad_next h)
  | valid n =>
    rcases exec_valid_cases n s with ⟨_, _, e⟩ | ⟨_, c, e⟩ <;> rw [e] at h <;> cases h
    exact .code c (.inr ⟨n, rfl⟩)

end Sys2Proof.Machine

namespace Sys2Proof.Machine

open Sys2Proof.Claims

/-! ## RK_VALID -/

theorem keyed_of_blockCommand {i : Instr} (h : blockCommand i = true) : keyed i = false := by
  revert h; cases i <;> simp [blockCommand, keyed]

theorem BufferEnd.frame {base t : State} (h : BufferEnd base t) :
    t = { base with err := t.err, fault := t.fault, outLen := t.outLen, dmem := t.dmem } := by
  cases h <;> rfl

/-- A key step can set RK_VALID, and only with KEY_LEN 16. -/
theorem KeyStepDone.rkValid {s base : State} (h : KeyStepDone s base) :
    base.rkValid = if s.keyLen = 16 then true else s.rkValid := by
  cases h with
  | expanded h16 hk => rw [if_pos h16]; rfl
  | other h16 => rw [if_neg h16]

/-- RK_VALID after a command (10_state.md R36). -/
theorem exec_rkValid {i : Instr} {s t : State} (h : exec i s = .next t) :
    t.rkValid = if keyed i = true ∧ s.keyLen = 16 then true else s.rkValid := by
  cases exec_commandEffect h with
  | register v hi => rcases hi with ⟨a, b, rfl⟩ | ⟨a, rfl⟩ | ⟨a, rfl⟩ <;> rfl
  | code c hi =>
    rcases hi with hi | ⟨n, rfl⟩
    · simp [keyed_of_blockCommand hi]
    · simp [keyed]
  | block b hi => simp [keyed_of_blockCommand hi]
  | key base c hi hk => subst hi; simp [hk.rkValid, keyed]
  | keyFault hi h16 => rw [if_neg fun c => h16 c.2]; rfl
  | buffer base t hi hk he =>
    rw [he.frame]
    rcases hk with ⟨hk, rfl⟩ | ⟨hk, hd⟩
    · simp [hk]
    · simp [hk, hd.rkValid]

/-- A key write is served, and clears RK_VALID. -/
theorem keyWrite_clears {s : State} {e : HostEvent} (h : keyWrite s e) :
    ∃ t, hostEvent e s = .next t ∧ t.rkValid = false := by
  rcases h with ⟨v, rfl⟩ | ⟨i, v, hi, rfl⟩ | ⟨i, v, hi, rfl⟩
  · exact ⟨_, hostEvent_writeReg .keyLen v s, rfl⟩
  · rw [Nat.add_assoc]
    exact ⟨_, hostEvent_writeByte (a := .key) (by simp [arrayRange]) (by simp only [arrayRange]; omega) v, rfl⟩
  · rw [Nat.add_assoc]
    exact ⟨_, hostEvent_writeWord (a := .key) (by omega) (by simp [arrayRange]) (by simp only [arrayRange]; omega) v, rfl⟩

/-- A command word that changes RK_VALID is one of KEXP, ENC and DEC, issued without FAULT. -/
theorem issue_changes_rkValid {w : Word} {s t : State} (h : issue w s = .next t) (hne : t.rkValid ≠ s.rkValid) :
    s.fault = false ∧ ∃ i, decode w = .ok i ∧ keyed i = true := by
  rcases issue_next h with ⟨_, rfl⟩ | ⟨_, rfl⟩ | ⟨hf, i, hi, h⟩
  · exact absurd rfl hne
  · exact absurd rfl hne
  · refine ⟨hf, i, hi, ?_⟩
    by_contra hk
    exact hne (by rw [exec_rkValid h, if_neg fun c => hk c.1])

/-- An event that changes RK_VALID is a key write, the reset, or a command word of KEXP, ENC or DEC. -/
theorem hostEvent_changes_rkValid {e : HostEvent} {s t : State} (h : hostEvent e s = .next t) (hne : t.rkValid ≠ s.rkValid) :
    keyWrite s e ∨ e = .reset ∨
      (s.fault = false ∧ ∃ w i, e = .write32 s.config.engineBase w ∧ decode w = .ok i ∧ keyed i = true) := by
  cases e with
  | reset => exact .inr (.inl rfl)
  | read8 addr => obtain ⟨d, n, rfl⟩ := hostEvent_read_next (.inl rfl) h; exact absurd rfl hne
  | read32 addr => obtain ⟨d, n, rfl⟩ := hostEvent_read_next (.inr rfl) h; exact absurd rfl hne
  | write8 addr v =>
    simp only [hostEvent] at h
    split at h
    · cases h
    · rename_i a i hl
      cases h
      have ha : a = .key := by
        by_contra ha
        exact hne (by rw [State.writeArrayByte_rkValid, if_neg ha])
      subst ha
      obtain ⟨rfl, hi⟩ := locate8_inv hl
      exact .inl (.inr (.inl ⟨i, v, hi, rfl⟩))
  | write32 addr v =>
    simp only [hostEvent] at h
    split at h
    · cases h
    · rename_i i hl
      rcases locate32_cases hl with ⟨_, rfl⟩ | ⟨r, hr, _⟩ | ⟨a, ha, _⟩
      · obtain ⟨hf, i, hi, hk⟩ := issue_changes_rkValid h hne
        exact .inr (.inr ⟨hf, v, i, rfl, hi, hk⟩)
      · cases hr
      · cases ha
    · rename_i r i hl
      cases h
      have hr : r = .keyLen := by
        by_contra hr
        exact hne (by rw [State.writeReg_rkValid, if_neg hr])
      subst hr
      rcases locate32_cases hl with ⟨hc, _⟩ | ⟨r, hr, rfl⟩ | ⟨a, ha, _⟩
      · cases hc
      · cases hr; exact .inl (.inl ⟨v, rfl⟩)
      · cases ha
    · rename_i a i hl
      cases h
      have ha : a = .key := by
        by_contra ha
        exact hne (by rw [State.writeArrayWord_rkValid, if_neg ha])
      subst ha
      rcases locate32_cases hl with ⟨hc, _⟩ | ⟨r, hr, _⟩ | ⟨a, ha, rfl, hi, h4⟩
      · cases hc
      · cases hr
      · cases ha
        simp only [arrayRange] at hi h4
        exact .inl (.inr (.inr ⟨i / 4, v, by omega, by simp only [arrayRange]; rw [Nat.mul_div_cancel' (by omega)]⟩))

/-- Settles O31: by RK_VALID after each command (`exec_rkValid`) and the ranges that each host write reaches. -/
theorem rkValidChangesOnlyAsListed : Obligations.RkValidChangesOnlyAsListed := by
  refine ⟨fun s e rest hp he => ?_, fun s => rfl, fun i s t hk h16 h => ?_, fun i s t h hne => ?_, fun s t h hne => ?_⟩
  · rw [step_event hp]
    exact keyWrite_clears (s := { s with pending := rest }) he
  · rw [exec_rkValid h, if_pos ⟨hk, h16⟩]
  · by_contra hn
    exact hne (by rw [exec_rkValid h, if_neg hn])
  · rcases step_next h with ⟨_, rfl⟩ | ⟨e, rest, hp, h⟩
    · exact absurd rfl hne
    · exact ⟨e, rest, hp, hostEvent_changes_rkValid (s := { s with pending := rest }) h hne⟩

end Sys2Proof.Machine

namespace Sys2Proof

open Sys2Proof.Machine

/-! ## Commands that a word decodes to (30_encoding.md R82, R84, R85) -/

theorem formN_eq_ok {a b : Byte} {i j : Instr} (h : formN a b i = .ok j) : a = 0 ∧ b = 0 ∧ j = i := by
  unfold formN at h
  split at h
  · cases h
  · split at h
    · cases h
    · cases h; exact ⟨not_not.1 ‹_›, not_not.1 ‹_›, rfl⟩

theorem formX_eq_ok {a b : Byte} {mk : Byte → Instr} {j : Instr} (h : formX a b mk = .ok j) : b = 0 ∧ j = mk a := by
  unfold formX at h
  split at h
  · cases h
  · cases h; exact ⟨not_not.1 ‹_›, rfl⟩

theorem flagOf_eq_some {b : Byte} {f : Bool} (h : flagOf b = some f) : b = flagByte f := by
  unfold flagOf at h
  split at h
  · cases h; assumption
  · split at h
    · cases h; assumption
    · cases h

theorem formBF_eq_ok {a b : Byte} {mk : Bool → Instr} {j : Instr} (h : formBF a b mk = .ok j) :
    a = 0 ∧ ∃ f, b = flagByte f ∧ j = mk f := by
  unfold formBF at h
  split at h
  · cases h
  · split at h
    · cases h
    · cases h; exact ⟨not_not.1 ‹_›, _, flagOf_eq_some ‹_›, rfl⟩

theorem formI_eq_ok {a b : Byte} {mk : Byte → Instr} {j : Instr} (h : formI a b mk = .ok j) :
    roundIndexOk a = true ∧ b = 0 ∧ j = mk a := by
  unfold formI at h
  split at h
  · split at h
    · cases h
    · cases h; exact ⟨‹_›, not_not.1 ‹_›, rfl⟩
  · cases h

theorem formIF_eq_ok {a b : Byte} {mk : Byte → Bool → Instr} {j : Instr} (h : formIF a b mk = .ok j) :
    roundIndexOk a = true ∧ ∃ f, b = flagByte f ∧ j = mk a f := by
  unfold formIF at h
  split at h
  · split at h
    · cases h
    · cases h; exact ⟨‹_›, _, flagOf_eq_some ‹_›, rfl⟩
  · cases h

theorem modeOf_eq_some {a : Byte} {m : Mode} (h : modeOf a = some m) : a = modeByte m := by
  unfold modeOf at h
  split at h
  · cases h; assumption
  · split at h
    · cases h; assumption
    · split at h
      · cases h; assumption
      · split at h
        · cases h; assumption
        · cases h

theorem formM_eq_ok {a b : Byte} {mk : Mode → Instr} {j : Instr} (h : formM a b mk = .ok j) :
    ∃ m, a = modeByte m ∧ b = 0 ∧ j = mk m := by
  unfold formM at h
  split at h
  · cases h
  · split at h
    · cases h
    · cases h; exact ⟨_, modeOf_eq_some ‹_›, not_not.1 ‹_›, rfl⟩

/-- The command of an OP and its operands is well formed, and its encoding has these fields. -/
theorem decodeFields_eq_ok {op a b : Byte} {i : Instr} (h : decodeFields op.toNat a b = .ok i) :
    i.wellFormed = true ∧ encode i = packWord op a b := by
  have lit : ∀ {v : Byte}, op.toNat = v.toNat → op = v := fun e => BitVec.eq_of_toNat_eq e
  unfold decodeFields at h
  split at h
  case h_1 e => cases h; cases lit (v := 0x01) e; exact ⟨rfl, rfl⟩
  case h_2 e => obtain ⟨rfl, rfl⟩ := formX_eq_ok h; cases lit (v := 0x02) e; exact ⟨rfl, rfl⟩
  case h_3 e => obtain ⟨rfl, rfl⟩ := formX_eq_ok h; cases lit (v := 0x03) e; exact ⟨rfl, rfl⟩
  case h_4 e => obtain ⟨rfl, rfl, rfl⟩ := formN_eq_ok h; cases lit (v := 0x10) e; exact ⟨rfl, rfl⟩
  case h_5 e => obtain ⟨rfl, rfl, rfl⟩ := formN_eq_ok h; cases lit (v := 0x11) e; exact ⟨rfl, rfl⟩
  case h_6 e => obtain ⟨rfl, rfl, rfl⟩ := formN_eq_ok h; cases lit (v := 0x12) e; exact ⟨rfl, rfl⟩
  case h_7 e => obtain ⟨rfl, rfl, rfl⟩ := formN_eq_ok h; cases lit (v := 0x13) e; exact ⟨rfl, rfl⟩
  case h_8 e => obtain ⟨rfl, f, rfl, rfl⟩ := formBF_eq_ok h; cases lit (v := 0x14) e; exact ⟨rfl, rfl⟩
  case h_9 e => obtain ⟨rfl, f, rfl, rfl⟩ := formBF_eq_ok h; cases lit (v := 0x15) e; exact ⟨rfl, rfl⟩
  case h_10 e => obtain ⟨hj, rfl, rfl⟩ := formI_eq_ok h; cases lit (v := 0x16) e; exact ⟨hj, rfl⟩
  case h_11 e => obtain ⟨hj, f, rfl, rfl⟩ := formIF_eq_ok h; cases lit (v := 0x17) e; exact ⟨hj, rfl⟩
  case h_12 e => obtain ⟨hj, f, rfl, rfl⟩ := formIF_eq_ok h; cases lit (v := 0x18) e; exact ⟨hj, rfl⟩
  case h_13 e => obtain ⟨rfl, rfl, rfl⟩ := formN_eq_ok h; cases lit (v := 0x20) e; exact ⟨rfl, rfl⟩
  case h_14 e => obtain ⟨rfl, rfl, rfl⟩ := formN_eq_ok h; cases lit (v := 0x21) e; exact ⟨rfl, rfl⟩
  case h_15 e => obtain ⟨rfl, rfl, rfl⟩ := formN_eq_ok h; cases lit (v := 0x22) e; exact ⟨rfl, rfl⟩
  case h_16 e => obtain ⟨m, rfl, rfl, rfl⟩ := formM_eq_ok h; cases lit (v := 0x30) e; exact ⟨rfl, rfl⟩
  case h_17 e => obtain ⟨m, rfl, rfl, rfl⟩ := formM_eq_ok h; cases lit (v := 0x31) e; exact ⟨rfl, rfl⟩
  case h_18 e => obtain ⟨rfl, rfl⟩ := formX_eq_ok h; cases lit (v := 0x40) e; exact ⟨rfl, rfl⟩
  case h_19 e => obtain ⟨rfl, rfl⟩ := formX_eq_ok h; cases lit (v := 0x41) e; exact ⟨rfl, rfl⟩
  case h_20 e => obtain ⟨rfl, rfl⟩ := formX_eq_ok h; cases lit (v := 0x42) e; exact ⟨rfl, rfl⟩
  case h_21 => cases h

/-- A word that decodes is the encoding of its command, which is well formed (R85). -/
theorem decode_eq_ok {w : Word} {i : Instr} (h : decode w = .ok i) : i.wellFormed = true ∧ encode i = w := by
  unfold decode at h
  split at h
  · cases h
  · rename_i hz
    obtain ⟨hw, he⟩ := decodeFields_eq_ok h
    exact ⟨hw, he.trans (packWord_fields (not_not.1 hz))⟩

open Laws.EncodeLegal in
/-- The encoding of a well-formed command is legal by R85. -/
theorem legal_encode : ∀ i : Instr, Statement i
  | .gfmul a b => gfmul a b
  | .sbox x => sbox x
  | .isbox y => isbox y
  | .subb => subb
  | .isubb => isubb
  | .shr => shr
  | .ishr => ishr
  | .mixc f => mixc f
  | .imixc f => imixc f
  | .ark j => ark j
  | .round j f => round j f
  | .iround j f => iround j f
  | .kexp => kexp
  | .encb => encb
  | .decb => decb
  | .enc m => enc m
  | .dec m => dec m
  | .pad n => pad n
  | .unpad n => unpad n
  | .valid n => valid n

/-- A word that decodes is legal by R85. -/
theorem legal_of_decode {w : Word} {i : Instr} (h : decode w = .ok i) : legal w = true := by
  obtain ⟨hw, rfl⟩ := decode_eq_ok h
  exact legal_encode i hw

end Sys2Proof

namespace Sys2Proof.Machine

open Sys2Proof.Claims

/-! ## Block commands and the written marks of STATE -/

/-- A guarded command with RK_VALID = 1 updates STATE. -/
theorem exec_guarded_valid {i : Instr} {s : State} (hi : guarded i = true) (hv : s.rkValid = true) :
    ∃ f, exec i s = s.updateState f := by
  have index : ∀ {j : Byte}, roundIndexOk j = true → j.toNat < 11 := fun h => by
    simp only [roundIndexOk, decide_eq_true_eq] at h; omega
  cases i with
  | ark j => exact ⟨_, exec_ark (index hi) hv⟩
  | round j f => exact ⟨_, exec_round f (index hi) hv⟩
  | iround j f => exact ⟨_, exec_iround f (index hi) hv⟩
  | encb => exact ⟨_, exec_encb hv⟩
  | decb => exact ⟨_, exec_decb hv⟩
  | _ => cases hi

/-- So does a command without a key guard that is not bypassed. -/
theorem exec_unguarded_updates {i : Instr} (hi : i ∈ [.subb, .isubb, .shr, .ishr, .mixc false, .imixc false]) (s : State) :
    ∃ f, exec i s = s.updateState f := by
  simp only [List.mem_cons, List.not_mem_nil, or_false] at hi
  rcases hi with rfl | rfl | rfl | rfl | rfl | rfl
  · exact ⟨subBytes, rfl⟩
  · exact ⟨invSubBytes, rfl⟩
  · exact ⟨shiftRows, rfl⟩
  · exact ⟨invShiftRows, rfl⟩
  · exact ⟨fun b => mixColumns b false, rfl⟩
  · exact ⟨fun b => invMixColumns b false, rfl⟩

theorem State.updateState_eq_fault {s : State} {f : Block → Block} {r : Fault} :
    s.updateState f = .fault r ↔ r = .unwrittenState ∧ s.stateReady = false := by
  cases h : s.stateReady
  · simp [State.updateState_unready f h, eq_comm]
  · simp [State.updateState_ok f h]

/-- A block command stops only where it updates STATE. -/
theorem exec_block_fault {i : Instr} {s : State} {r : Fault} (hi : blockCommand i = true) (h : exec i s = .fault r) :
    r = .unwrittenState ∧ s.stateReady = false := by
  rcases exec_block_cases hi s with ⟨c, e⟩ | ⟨f, e⟩ <;> rw [e] at h
  · cases h
  · exact State.updateState_eq_fault.1 h

/-- Settles O28: a block command writes a code or updates STATE, and only the update stops. -/
theorem unwrittenStateStopsBlockCommands : Obligations.UnwrittenStateStopsBlockCommands := by
  refine ⟨fun i s hi h => ?_, fun i s hi hv h => ?_, fun i s r => exec_block_fault⟩
  · obtain ⟨f, e⟩ := exec_unguarded_updates hi s
    rw [e, State.updateState_unready f h]
  · obtain ⟨f, e⟩ := exec_guarded_valid hi hv
    rw [e, State.updateState_unready f h]

/-! ## What the key step and the buffer operation do not read -/

/-- A change of state that a key step does not see, up to its effect `h` on what comes after. -/
theorem State.afterKeyStep_congr {s u : State} {body : State → Result} {h : State → State} (hl : u.keyLen = s.keyLen)
    (hr : u.keyReady = s.keyReady) (herr : u.raiseBufferError errInvalidKeySize = h (s.raiseBufferError errInvalidKeySize))
    (hfault : u.raiseFault = h s.raiseFault)
    (hbody : body (u.setRoundKeys (keyExpansion u.key128)) = onNext h (body (s.setRoundKeys (keyExpansion s.key128)))) :
    u.afterKeyStep body = onNext h (s.afterKeyStep body) := by
  unfold State.afterKeyStep
  rcases keyStep_cases s with ⟨e, h16, h24, h32⟩ | ⟨e, hk⟩ | ⟨e, h16, hk⟩ | ⟨e, h16, hk⟩
  · rw [e, keyStep_invalid (hl ▸ h16) (hl ▸ h24) (hl ▸ h32)]; exact congrArg _ herr
  · rw [e, keyStep_unimplemented (hl ▸ hk)]; exact congrArg _ hfault
  · rw [e, keyStep_unwritten (hl ▸ h16) (hr ▸ hk)]; rfl
  · rw [e, keyStep_ok (hl ▸ h16) (hr ▸ hk)]; exact hbody

theorem onNext_id (r : Result) : onNext id r = r := by cases r <;> rfl

/-- ENC and DEC do not read ERR: a key step and a buffer operation do not, and each of their ends writes it. -/
theorem exec_codec_ignores_err {i : Instr} {m : Mode} (hi : i = .enc m ∨ i = .dec m) (s : State) (e : BitVec 4) :
    exec i { s with err := e } = exec i s := by
  by_cases hm : m = .gcm
  · subst hm
    rw [exec_gcm hi, exec_gcm hi, ← onNext_id (s.afterKeyStep _)]
    exact State.afterKeyStep_congr rfl rfl rfl rfl rfl
  · obtain ⟨f, hx, _, _, hf⟩ := exec_codec hi hm
    rw [hx, hx, ← onNext_id (s.afterKeyStep _)]
    refine State.afterKeyStep_congr rfl rfl rfl rfl ?_
    have hf := hf (s.setRoundKeys (keyExpansion s.key128))
      (({ s with err := e } : State).setRoundKeys (keyExpansion ({ s with err := e } : State).key128)) rfl rfl rfl rfl
    rw [onNext_id, hf]
    rfl

/-- Settles O11: every end of a command writes ERR, and nothing before it reads ERR. -/
theorem noCommandReadsErr : Obligations.NoCommandReadsErr := by
  intro i s e
  cases i with
  | enc m => exact exec_codec_ignores_err (.inl rfl) s e
  | dec m => exact exec_codec_ignores_err (.inr rfl) s e
  | kexp =>
    simp only [exec, execKexp]
    rcases keyStep_cases s with ⟨k, h16, h24, h32⟩ | ⟨k, hk⟩ | ⟨k, h16, hk⟩ | ⟨k, h16, hk⟩
    · rw [k, keyStep_invalid (s := { s with err := e }) h16 h24 h32]; rfl
    · rw [k, keyStep_unimplemented (s := { s with err := e }) hk]; rfl
    · rw [k, keyStep_unwritten (s := { s with err := e }) h16 hk]
    · rw [k, keyStep_ok (s := { s with err := e }) h16 hk]; rfl
  | _ => rfl

/-! ## KEY[16..31] -/

section KeyTail

variable {s : State} {key : Vector Byte 32} {marks : Vector Bool 32}
  (h : ∀ k : Fin 16, key[k.val] = s.key[k.val] ∧ marks[k.val] = s.keyWritten[k.val])

include h

theorem key128_tail : ({ s with key := key, keyWritten := marks } : State).key128 = s.key128 := by
  apply Vector.ext
  intro i hi
  simpa [State.key128] using (h ⟨i, hi⟩).1

theorem keyReady_tail : ({ s with key := key, keyWritten := marks } : State).keyReady = s.keyReady := by
  have : marks.toList.take 16 = s.keyWritten.toList.take 16 := by
    apply List.ext_getElem (by simp)
    intro i hi _
    have hi' : i < 16 := by simp at hi; omega
    simpa using (h ⟨i, hi'⟩).2
  simp only [State.keyReady, this]

theorem afterKeyStep_tail {body : State → Result}
    (hbody : ∀ t : State, body { t with key := key, keyWritten := marks } =
      onNext (fun t => { t with key := key, keyWritten := marks }) (body t)) :
    ({ s with key := key, keyWritten := marks } : State).afterKeyStep body =
      onNext (fun t => { t with key := key, keyWritten := marks }) (s.afterKeyStep body) := by
  refine State.afterKeyStep_congr rfl (keyReady_tail h) rfl rfl ?_
  rw [key128_tail h]
  exact hbody (s.setRoundKeys (keyExpansion s.key128))

end KeyTail

theorem State.runBuffer_bounds {s : State} {n : Nat} (f : List Byte → Except Fault (List Byte))
    (h : ¬ (s.inRange s.src.toNat s.len.toNat = true ∧ s.inRange s.dst.toNat n = true)) :
    s.runBuffer n f = .next (s.raiseBufferError errBounds) := by
  unfold State.runBuffer
  split
  · rfl
  · rename_i hs
    rw [if_pos fun hd => h ⟨not_not.1 hs, hd⟩]

theorem runBuffer_tail (s : State) (key : Vector Byte 32) (marks : Vector Bool 32) (n : Nat)
    (f : List Byte → Except Fault (List Byte)) : ({ s with key := key, keyWritten := marks } : State).runBuffer n f =
      onNext (fun t => { t with key := key, keyWritten := marks }) (s.runBuffer n f) := by
  by_cases h : s.inRange s.src.toNat s.len.toNat = true ∧ s.inRange s.dst.toNat n = true
  · obtain ⟨hs, hd⟩ := h
    cases hb : s.dmem.readBytes s.src.toNat s.len.toNat with
    | none => rw [State.runBuffer_unwritten f hs hd hb]; exact State.runBuffer_unwritten f hs hd hb
    | some b =>
      cases hf : f b with
      | error r => rw [State.runBuffer_error hs hd hb hf]; exact State.runBuffer_error hs hd hb hf
      | ok out => rw [State.runBuffer_ok hs hd hb hf]; exact State.runBuffer_ok hs hd hb hf
  · rw [State.runBuffer_bounds f h]; exact State.runBuffer_bounds f h

/-- Settles O30: the key step reads KEY[0..15] and their marks, and what follows it reads RK. -/
theorem keyTailIsIgnored : Obligations.KeyTailIsIgnored := by
  intro i s key marks hi h
  have codec : ∀ m : Mode, i = .enc m ∨ i = .dec m → exec i { s with key := key, keyWritten := marks } =
      onNext (fun t => { t with key := key, keyWritten := marks }) (exec i s) := fun m hi => by
    by_cases hm : m = .gcm
    · subst hm
      rw [exec_gcm hi, exec_gcm hi]
      exact afterKeyStep_tail h fun t => rfl
    · obtain ⟨f, hx, _, _, hf⟩ := exec_codec hi hm
      rw [hx, hx]
      refine afterKeyStep_tail h fun t => ?_
      rw [hf t { t with key := key, keyWritten := marks } rfl rfl rfl rfl]
      exact runBuffer_tail t key marks _ _
  cases i with
  | enc m => exact codec m (.inl rfl)
  | dec m => exact codec m (.inr rfl)
  | kexp =>
    simp only [exec, execKexp]
    rcases keyStep_cases s with ⟨k, h16, h24, h32⟩ | ⟨k, hk⟩ | ⟨k, h16, hk⟩ | ⟨k, h16, hk⟩
    · rw [k, keyStep_invalid (s := { s with key := key, keyWritten := marks }) h16 h24 h32]; rfl
    · rw [k, keyStep_unimplemented (s := { s with key := key, keyWritten := marks }) hk]; rfl
    · rw [k, keyStep_unwritten (s := { s with key := key, keyWritten := marks }) h16 (keyReady_tail h ▸ hk)]; rfl
    · rw [k, keyStep_ok (s := { s with key := key, keyWritten := marks }) h16 ((keyReady_tail h).trans hk), key128_tail h]; rfl
  | _ => cases hi

/-! ## RESULT -/

theorem KeyStepDone.frame {s base : State} (h : KeyStepDone s base) :
    base = { s with rk := base.rk, rkWritten := base.rkWritten, rkValid := base.rkValid } := by cases h <;> rfl

/-- The state that the last writes of a buffer command start from has the outputs of the state before it. -/
theorem bufferBase_frame {i : Instr} {s base : State}
    (h : (keyed i = false ∧ base = s) ∨ (keyed i = true ∧ KeyStepDone s base)) :
    base = { s with rk := base.rk, rkWritten := base.rkWritten, rkValid := base.rkValid } := by
  rcases h with ⟨_, rfl⟩ | ⟨_, h⟩
  · rfl
  · exact h.frame

theorem resultIsByte_endsAs {base t : State} (hb : ResultIsByte base) (h : EndsAs base t) : ResultIsByte t := by
  rcases h with ⟨c, _, _, rfl⟩ | ⟨c, _, _, rfl⟩ | rfl | ⟨v, rfl⟩ | ⟨b, _, rfl⟩ | ⟨out, _, rfl⟩
  case inr.inr.inr.inl =>
    apply BitVec.eq_of_getLsbD_eq
    intro i hi
    simp
  all_goals exact hb

theorem hostWrite_result {s t : State} (h : HostWrite s t) : t.result = s.result :=
  h.keeps (P := fun u => u.result = s.result) (fun u r v hu => by simpa using hu) (fun u a i v _ hu => by simpa using hu) rfl

theorem step_keeps_resultIsByte {s t : State} (hs : ResultIsByte s) (h : step s = .next t) : ResultIsByte t := by
  refine step_keeps (P := ResultIsByte) (fun s l d n hs => hs) (fun s t hs hw => ?_) (fun s base hs hf hk => ?_)
    (fun s t hs _ => resultIsByte_endsAs hs) (fun s _ => show ResultIsByte State.reset by decide) hs h
  · rwa [ResultIsByte, hostWrite_result hw]
  · rw [hk.frame]
    exact ⟨hs, hf⟩

/-- Settles O50: by the class of the command, and RESULT after each end of a command. -/
theorem resultRegisterRule : Obligations.ResultRegisterRule := by
  refine ⟨fun s t => step_keeps_resultIsByte, fun a b s t => ⟨fun h => ?_, fun h => ?_, fun h => ?_⟩,
    fun i s t hg hs hb h => ?_, fun s v => hostEvent_writeReg .result v s, rfl, fun s => rfl⟩
  · cases h; rfl
  · cases h; rfl
  · cases h; rfl
  · cases exec_commandEffect h with
    | register v hi =>
      rcases hi with ⟨a, b, rfl⟩ | ⟨a, rfl⟩ | ⟨a, rfl⟩
      · exact absurd rfl (hg a b)
      · exact absurd rfl (hs a)
      · exact absurd rfl (hb a)
    | code c hi => rfl
    | block b hi => rfl
    | key base c hi hk => rw [hk.frame]; rfl
    | keyFault hi h16 => rfl
    | buffer base t hi hk he => rw [he.frame, bufferBase_frame hk]

/-! ## OUT_LEN -/

/-- The length of an output that fits is a number of 32 bits, with legal parameters (00_scope.md R6). -/
theorem outLen_writeOutput {s : State} {out : List Byte} (hc : s.config.ok = true)
    (h : s.dst.toNat + out.length ≤ s.config.dmemSize) : (s.writeOutput out).outLen.toNat = out.length := by
  simp only [Config.ok, Bool.and_eq_true, decide_eq_true_eq] at hc
  rw [State.writeOutput_outLen, BitVec.toNat_ofNat, Nat.mod_eq_of_lt (by omega)]

/-- OUT_LEN after a buffer command, by its code. -/
theorem BufferEnd.outLen {base t : State} (hc : base.config.ok = true) (h : BufferEnd base t) :
    (t.err = errOk → ∃ out : List Byte, t.dmem = base.dmem.writeBytes base.dst.toNat out ∧ t.outLen.toNat = out.length) ∧
    (1 ≤ t.err.toNat → t.err.toNat ≤ 8 → t.outLen = 0) ∧ (t.err = errUnimplemented → t.outLen = base.outLen) := by
  cases h with
  | error c hc =>
    simp only [List.mem_cons, List.not_mem_nil, or_false] at hc
    refine ⟨fun h => ?_, fun _ _ => rfl, fun h => ?_⟩ <;> rw [State.raiseBufferError_err] at h <;> subst h <;> simp at hc
  | fault => exact ⟨fun h => by simp at h, fun _ h => by simp at h, fun _ => rfl⟩
  | output out hout => exact ⟨fun _ => ⟨out, rfl, outLen_writeOutput hc hout⟩, fun h => by simp at h, fun h => by simp at h⟩

theorem outLenFits_endsAs {base t : State} (hb : OutLenFits base) (h : EndsAs base t) : OutLenFits t := by
  rcases h with ⟨c, _, _, rfl⟩ | ⟨c, _, _, rfl⟩ | rfl | ⟨v, rfl⟩ | ⟨b, _, rfl⟩ | ⟨out, hout, rfl⟩
  case inr.inl => exact Nat.zero_le _
  case inr.inr.inr.inr.inr =>
    have : out.length % 2 ^ 32 ≤ out.length := Nat.mod_le _ _
    simp only [OutLenFits, State.writeOutput_outLen, BitVec.toNat_ofNat, State.writeOutput_config]
    omega
  all_goals exact hb

theorem outLenFits_hostWrite {s t : State} (hs : OutLenFits s) (h : HostWrite s t) : OutLenFits t :=
  h.keeps (P := OutLenFits) (fun u r v hu => by simpa [OutLenFits] using hu) (fun u a i v _ hu => by simpa [OutLenFits] using hu) hs

theorem step_keeps_outLenFits {s t : State} (hs : OutLenFits s) (h : step s = .next t) : OutLenFits t := by
  refine step_keeps (P := OutLenFits) (fun s l d n hs => hs) (fun s t => outLenFits_hostWrite) (fun s base hs hf hk => ?_)
    (fun s t hs _ => outLenFits_endsAs hs) (fun s _ => Nat.zero_le _) hs h
  rw [hk.frame]
  exact ⟨hs, hf⟩

/-- A command that writes no output buffer leaves OUT_LEN. -/
theorem exec_outLen {i : Instr} {s t : State} (hi : bufferWriter i = false) (h : exec i s = .next t) : t.outLen = s.outLen := by
  cases exec_commandEffect h with
  | register v hi => rfl
  | code c hi => rfl
  | block b hi => rfl
  | key base c hi hk => rw [hk.frame]; rfl
  | keyFault hi h16 => rfl
  | buffer base t hb hk he => rw [hi] at hb; cases hb

theorem bufferWriter_of_blockCommand {i : Instr} (h : blockCommand i = true) : bufferWriter i = false := by
  revert h; cases i <;> simp [blockCommand, bufferWriter]

/-- A command that writes an output buffer ends so, and starts its last writes from the outputs it found. -/
theorem exec_bufferWriter {i : Instr} {s t : State} (hi : bufferWriter i = true) (h : exec i s = .next t) :
    ∃ base, base = { s with rk := base.rk, rkWritten := base.rkWritten, rkValid := base.rkValid } ∧ BufferEnd base t := by
  cases exec_commandEffect h with
  | register v hr => rcases hr with ⟨a, b, rfl⟩ | ⟨a, rfl⟩ | ⟨a, rfl⟩ <;> cases hi
  | code c hc =>
    rcases hc with hc | ⟨n, rfl⟩
    · rw [bufferWriter_of_blockCommand hc] at hi; cases hi
    · cases hi
  | block b hb => rw [bufferWriter_of_blockCommand hb] at hi; cases hi
  | key base c hk _ => subst hk; cases hi
  | keyFault hk _ => subst hk; cases hi
  | buffer base t hb hk he => exact ⟨base, bufferBase_frame hk, he⟩

/-- Settles O51: by the ends of the buffer commands, of which only an output that fits sets OUT_LEN to a length. -/
theorem outLenRule : Obligations.OutLenRule := by
  refine ⟨fun i s t hc _ hi h => ?_, fun i s t => exec_outLen, fun s t w hw h => ?_,
    fun s v => ⟨hostEvent_writeReg .outLen v s, hostEvent_readReg .outLen s⟩, rfl, fun s => rfl, fun s t => step_keeps_outLenFits⟩
  · obtain ⟨base, hb, he⟩ := exec_bufferWriter hi h
    have := he.outLen (by rw [hb]; exact hc)
    rw [hb] at this
    exact this
  · rcases issue_next h with ⟨_, rfl⟩ | ⟨_, rfl⟩ | ⟨hf, i, hi, _⟩
    · rfl
    · rfl
    · rcases hw with hw | hw
      · rw [hf] at hw; cases hw
      · rw [legal_of_decode hi] at hw; cases hw

end Sys2Proof.Machine

namespace Sys2Proof.Machine

open Sys2Proof.Claims

/-! ## Host reads of bytes that may be unwritten -/

/-- Bytes that the host can read at an offset lie in one byte range, if the access is one byte or an aligned word. -/
theorem readableBytes_range {s : State} {o n : Nat} (h : readableBytes s o n) (hn : n = 1 ∨ (n = 4 ∧ o % 4 = 0)) :
    ∃ a, (arrayRange s.config a).1 ≤ o ∧ o + n ≤ (arrayRange s.config a).1 + (arrayRange s.config a).2 := by
  rcases h with ⟨h1, h2⟩ | ⟨h1, h2⟩
  · by_cases hk : o < 0x60
    · exact ⟨.key, by simp only [arrayRange]; omega⟩
    · by_cases hi : o < 0x70
      · exact ⟨.iv, by simp only [arrayRange]; omega⟩
      · by_cases hs : o < 0x80
        · exact ⟨.state, by simp only [arrayRange]; omega⟩
        · exact ⟨.rk, by simp only [arrayRange]; omega⟩
  · exact ⟨.dmem, h1, h2⟩

/-- The byte the host sees at an offset is the byte of the range that holds it. -/
theorem hostByte_eq_arrayByte {s : State} {a : ArrayName} {o : Nat} (h1 : (arrayRange s.config a).1 ≤ o)
    (h2 : o < (arrayRange s.config a).1 + (arrayRange s.config a).2) :
    hostByte s o = s.arrayByte a (o - (arrayRange s.config a).1) := by
  unfold hostByte
  cases a <;> simp only [arrayRange] at h1 h2 ⊢
  case key => rw [if_pos h2]; simp [State.arrayByte]
  case iv => rw [if_neg (by omega), if_pos h2]; simp [State.arrayByte]
  case state => rw [if_neg (by omega), if_neg (by omega), if_pos h2]; simp [State.arrayByte]
  case rk =>
    rw [if_neg (by omega), if_neg (by omega), if_neg (by omega), if_pos h2]
    simp [State.arrayByte]
  case dmem => rw [if_neg (by omega), if_neg (by omega), if_neg (by omega), if_neg (by omega)]; rfl

theorem drawsAfter_succ (s : State) (o k : Nat) :
    drawsAfter s o (k + 1) = drawsAfter s o k + if (hostByte s (o + k)).isNone then 1 else 0 := by
  simp only [drawsAfter, List.range_succ, List.countP_append, List.countP_singleton, Nat.add_assoc]

/-- Reading byte k of a host access, after the k bytes below it. -/
theorem drawByte_hostByte (s : State) (o k : Nat) :
    ({ s with draws := drawsAfter s o k } : State).drawByte (hostByte s (o + k)) =
      (byteSeen s o k, { s with draws := drawsAfter s o (k + 1) }) := by
  rw [drawsAfter_succ, byteSeen]
  cases hostByte s (o + k) <;> rfl

/-- A word read from a byte range: the four bytes that the host sees, and the draws for the unwritten ones. -/
theorem readArrayWord_hostByte {s : State} {a : ArrayName} {o : Nat} (h1 : (arrayRange s.config a).1 ≤ o)
    (h2 : o + 4 ≤ (arrayRange s.config a).1 + (arrayRange s.config a).2) :
    s.readArrayWord a (o - (arrayRange s.config a).1) =
      (wordOfBytes (byteSeen s o 0) (byteSeen s o 1) (byteSeen s o 2) (byteSeen s o 3),
        { s with draws := drawsAfter s o 4 }) := by
  have byte : ∀ k, k < 4 → s.arrayByte a (o - (arrayRange s.config a).1 + k) = hostByte s (o + k) := fun k hk => by
    rw [hostByte_eq_arrayByte (a := a) (by omega) (by omega), Nat.sub_add_comm h1]
  have draw0 : s.drawByte (hostByte s (o + 0)) = (byteSeen s o 0, { s with draws := drawsAfter s o 1 }) :=
    drawByte_hostByte s o 0
  have byte0 := byte 0 (by omega)
  rw [Nat.add_zero] at byte0
  simp only [State.readArrayWord, byte0, byte 1 (by omega), byte 2 (by omega), byte 3 (by omega), draw0,
    drawByte_hostByte s o 1, drawByte_hostByte s o 2, drawByte_hostByte s o 3]

/-- The word of four bytes is their sum, the first byte lowest (20_memory.md R53). -/
theorem wordOfBytes_eq_or (b0 b1 b2 b3 : Byte) : wordOfBytes b0 b1 b2 b3 =
    b0.setWidth 32 ||| b1.setWidth 32 <<< 8 ||| b2.setWidth 32 <<< 16 ||| b3.setWidth 32 <<< 24 := by
  apply BitVec.eq_of_getLsbD_eq
  intro i hi
  rw [getLsbD_wordOfBytes]
  simp only [BitVec.getLsbD_or, BitVec.getLsbD_setWidth, BitVec.getLsbD_shiftLeft, hi, decide_true, Bool.true_and]
  have above : ∀ (b : Byte) (j : Nat), 8 ≤ j → b.getLsbD j = false := fun b j h => BitVec.getLsbD_of_ge b j h
  by_cases h8 : i < 8
  · simp [h8, show i < 16 by omega, show i < 24 by omega]
  · by_cases h16 : i < 16
    · simp [h8, h16, show i < 24 by omega, above b0 i (by omega)]; omega
    · by_cases h24 : i < 24
      · simp [h8, h16, h24, above b0 i (by omega), above b1 (i - 8) (by omega)]; omega
      · simp [h8, h16, h24, above b0 i (by omega), above b1 (i - 8) (by omega), above b2 (i - 16) (by omega)]; omega

/-- Settles O56: each byte of an access is drawn after the bytes below it, and the count advances with the unwritten ones. -/
theorem unwrittenReadsAreDrawnFreely : Obligations.UnwrittenReadsAreDrawnFreely := by
  refine ⟨fun s o h hb => ?_, fun s o h4 h => ?_⟩
  · obtain ⟨a, h1, h2⟩ := readableBytes_range h (.inl rfl)
    rw [hostEvent_readByte h1 h2, ← hostByte_eq_arrayByte h1 h2, hb]
    rfl
  · obtain ⟨a, h1, h2⟩ := readableBytes_range h (.inr ⟨rfl, h4⟩)
    rw [hostEvent_readWord h4 h1 h2, readArrayWord_hostByte h1 h2, wordOfBytes_eq_or]

end Sys2Proof.Machine

namespace Sys2Proof.Machine

open Sys2Proof.Claims

/-! ## Padding of an input that may be unwritten -/

theorem Memory.getElem?_cells (m : Memory) (a n k : Nat) : (m.cells a n)[k]? = if k < n then some (m.read (a + k)) else none := by
  split
  · rw [List.getElem?_eq_getElem (by simpa), Memory.getElem_cells]
  · rw [List.getElem?_eq_none (by simp; omega)]

/-- A range is not read whole exactly if a byte of it is unwritten. -/
theorem Memory.readBytes_eq_none {m : Memory} {a n : Nat} : m.readBytes a n = none ↔ ∃ k, k < n ∧ m.read (a + k) = none := by
  simp [Memory.readBytes, allWritten_eq_none, Memory.cells]

/-- What the input may hold is what its cells may stand for. -/
theorem mayHold_iff (s : State) (b : List Byte) : mayHold s b ↔ Fills (s.dmem.cells s.src.toNat s.len.toNat) b := by
  simp only [mayHold, Fills, Memory.cells_length, Memory.getElem?_cells, Option.ite_none_right_eq_some, Option.some.injEq, and_imp]

/-- `Validate` decides whether the buffer ends in padding (43_padding.md R181). -/
theorem validate_iff_endsInPadding (b : List Byte) (n : Nat) : validate b n = true ↔ endsInPadding b n := by
  rw [validate_iff]
  constructor
  · rintro ⟨v, _, h0, hn, hl, ht⟩
    have h0' : v.toNat ≠ 0 := fun h => h0 (BitVec.eq_of_toNat_eq h)
    refine ⟨b.take (b.length - v.toNat), v.toNat, by omega, hn, v.isLt, ?_⟩
    have hd : b.drop (b.length - v.toNat) = List.replicate v.toNat v := by
      refine List.eq_replicate_iff.2 ⟨by simp; omega, fun x hx => ?_⟩
      obtain ⟨k, hk⟩ := List.mem_iff_getElem?.1 hx
      rw [List.getElem?_drop] at hk
      exact ht _ x (Nat.le_add_right _ k) hk
    rw [BitVec.ofNat_toNat, BitVec.setWidth_eq, ← hd, List.take_append_drop]
  · rintro ⟨p, v, h1, hn, h256, rfl⟩
    have hv : (BitVec.ofNat 8 v).toNat = v := by rw [BitVec.toNat_ofNat]; omega
    refine ⟨BitVec.ofNat 8 v, ?_, fun h => ?_, by omega, by simp; omega, fun k x hk hx => ?_⟩
    · rw [List.getLast?_append, List.getLast?_replicate, if_neg (by omega)]; rfl
    · rw [h] at hv; simp at hv; omega
    · rw [hv, List.length_append, List.length_replicate, Nat.add_sub_cancel] at hk
      rw [List.getElem?_append_right hk, List.getElem?_replicate, Option.ite_none_right_eq_some] at hx
      exact (Option.some.inj hx.2).symm

/-- `Validate` gives no answer on the cells of the input exactly where its padding is undecided (10_state.md R41). -/
theorem validateCells_eq_none_iff (s : State) (n : Nat) :
    validateCells (s.dmem.cells s.src.toNat s.len.toNat) n = none ↔ paddingUndecided s n := by
  constructor
  · intro h
    obtain ⟨⟨b, hb, hv⟩, c, hc, hw⟩ := validateCells_eq_none h
    exact ⟨b, c, (mayHold_iff s b).2 hb, (mayHold_iff s c).2 hc, (validate_iff_endsInPadding b n).1 hv,
      fun h => by rw [(validate_iff_endsInPadding c n).2 h] at hw; cases hw⟩
  · rintro ⟨b, c, hb, hc, hv, hw⟩
    by_contra hn
    obtain ⟨r, hr⟩ := Option.ne_none_iff_exists'.1 hn
    have hbr := validateCells_eq_some hr ((mayHold_iff s b).1 hb)
    have hcr := validateCells_eq_some hr ((mayHold_iff s c).1 hc)
    exact hw ((validate_iff_endsInPadding c n).1 (hcr.trans (hbr.symm.trans ((validate_iff_endsInPadding b n).2 hv))))

/-- `Validate` answers yes on a range whose last byte is v exactly if v is a count and the last v bytes are written and are v. -/
theorem validateCells_true_iff (m : Memory) (a l n : Nat) (v : Byte) :
    (validateCells (m.cells a l) n = some true ∧ (m.cells a l).getLast? = some (some v)) ↔
      1 ≤ v.toNat ∧ v.toNat ≤ n ∧ v.toNat ≤ l ∧ ∀ k, k < v.toNat → m.read (a + l - 1 - k) = some v := by
  constructor
  · rintro ⟨h, hl⟩
    obtain ⟨w, hw, h0, hn, hlen, ht⟩ := validateCells_eq_true h
    obtain rfl : w = v := by rw [hl] at hw; cases hw; rfl
    rw [Memory.cells_length] at hlen ht
    have h0' : w.toNat ≠ 0 := fun h => h0 (BitVec.eq_of_toNat_eq h)
    refine ⟨by omega, hn, hlen, fun k hk => ?_⟩
    have := ht (l - 1 - k) (m.read (a + (l - 1 - k))) (by omega) (by rw [Memory.getElem?_cells, if_pos (by omega)])
    rwa [show a + l - 1 - k = a + (l - 1 - k) by omega]
  · rintro ⟨h1, hn, hlen, ht⟩
    have tail : ∀ k, l - v.toNat ≤ k → k < l → m.read (a + k) = some v := fun k hk hkl => by
      have := ht (l - 1 - k) (by omega)
      rwa [show a + l - 1 - (l - 1 - k) = a + k by omega] at this
    have hl : (m.cells a l).getLast? = some (some v) := by
      rw [List.getLast?_eq_getElem?, Memory.cells_length, Memory.getElem?_cells, if_pos (by omega), tail _ (by omega) (by omega)]
    have fills : ∀ b, Fills (m.cells a l) b → validate b n = true := fun b hb => by
      have hbl : b.length = l := by rw [hb.1, Memory.cells_length]
      refine (validate_iff b n).2 ⟨v, hb.getLast? hl, fun h => by simp [h] at h1, hn, by omega, fun k x hk hx => ?_⟩
      have hkl : k < l := hbl ▸ (List.getElem?_eq_some_iff.1 hx).1
      have := hb.2 k v (by rw [Memory.getElem?_cells, if_pos hkl, tail k (by omega) hkl])
      rw [hx] at this
      exact Option.some.inj this
    refine ⟨?_, hl⟩
    cases hv : validateCells (m.cells a l) n with
    | none =>
      obtain ⟨_, b, hb, hf⟩ := validateCells_eq_none hv
      rw [fills b hb] at hf
      cases hf
    | some r => rw [← validateCells_eq_some hv (fills_getD _ 0), fills _ (fills_getD _ 0)]

/-! ## Where each command stops -/

theorem exec_kexp_eq_fault {s : State} {r : Fault} :
    exec .kexp s = .fault r ↔ r = .unwrittenKey ∧ s.keyLen = 16 ∧ s.keyReady = false := by
  rcases exec_kexp_cases s with ⟨e, h16, _⟩ | ⟨e, hl⟩ | ⟨e, h⟩ | ⟨e, _, hk⟩ <;> rw [e]
  · exact iff_of_false (by simp) fun h => h16 h.2.1
  · exact iff_of_false (by simp) fun h => by simp [h.2.1] at hl
  · simp [h, eq_comm]
  · simp [hk]

/-- ENC and DEC stop on the key; and, in a mode that works, on the input, and in CBC on the IV (44_modes.md R210). -/
theorem exec_codec_eq_fault {i : Instr} {m : Mode} (hi : i = .enc m ∨ i = .dec m) {s : State} {r : Fault} :
    exec i s = .fault r ↔ s.keyLen = 16 ∧ ((s.keyReady = false ∧ r = .unwrittenKey) ∨
      (s.keyReady = true ∧ m ≠ .gcm ∧ s.inRange s.src.toNat s.len.toNat = true ∧
        s.inRange s.dst.toNat (codecLength m s.len.toNat) = true ∧
        ((s.dmem.readBytes s.src.toNat s.len.toNat = none ∧ r = .unwrittenDmem) ∨
          ∃ b, s.dmem.readBytes s.src.toNat s.len.toNat = some b ∧ r = .unwrittenIv ∧ m = .cbc ∧ b ≠ [] ∧ s.ivReady = false))) := by
  by_cases hm : m = .gcm
  · subst hm
    rw [exec_gcm hi, State.afterKeyStep_eq_fault]
    simp
  · obtain ⟨f, hx, _, hf, _⟩ := exec_codec hi hm
    rw [hx, State.afterKeyStep_eq_fault, State.runBuffer_eq_fault]
    simp [hf, hm]

theorem exec_pad_eq_fault {n : Byte} {s : State} {r : Fault} :
    exec (.pad n) s = .fault r ↔ r = .unwrittenDmem ∧ n ≠ 0 ∧ inputUnwritten s (padLength s.len.toNat n.toNat) := by
  simp only [exec, execPad, inputUnwritten]
  by_cases hn : n = 0
  · rw [if_pos hn]
    exact iff_of_false nofun fun h => h.2.1 hn
  · rw [if_neg hn, State.runBuffer_eq_fault]
    constructor
    · rintro ⟨hs, hd, ⟨hb, hr⟩ | ⟨_, _, hf⟩⟩
      · exact ⟨hr, hn, hs, hd, hb⟩
      · cases hf
    · rintro ⟨hr, _, hs, hd, hb⟩
      exact ⟨hs, hd, .inl ⟨hb, hr⟩⟩

theorem exec_valid_eq_fault {n : Byte} {s : State} {r : Fault} : exec (.valid n) s = .fault r ↔
    r = .unwrittenDmem ∧ s.inRange s.src.toNat s.len.toNat = true ∧ paddingUndecided s n.toNat := by
  rw [← validateCells_eq_none_iff]
  rcases exec_valid_cases n s with ⟨hs, hv, e⟩ | ⟨hn, c, e⟩ <;> rw [e]
  · simp [hs, hv, eq_comm]
  · exact iff_of_false (by simp) fun h => hn h.2

/-- UNPAD stops where the padding is undecided, and where it is written and a byte of an output that fits is not. -/
theorem exec_unpad_eq_fault {n : Byte} {s : State} {r : Fault} : exec (.unpad n) s = .fault r ↔
    r = .unwrittenDmem ∧ s.inRange s.src.toNat s.len.toNat = true ∧
      (paddingUndecided s n.toNat ∨ ∃ v : Byte, (1 ≤ v.toNat ∧ v.toNat ≤ n.toNat ∧ v.toNat ≤ s.len.toNat ∧
        ∀ k, k < v.toNat → s.dmem.read (s.src.toNat + s.len.toNat - 1 - k) = some v) ∧
        s.inRange s.dst.toNat (s.len.toNat - v.toNat) = true ∧
        s.dmem.readBytes s.src.toNat (s.len.toNat - v.toNat) = none) := by
  simp only [← validateCells_eq_none_iff, ← validateCells_true_iff]
  rcases exec_unpad_cases n s with
    ⟨hs, e⟩ | ⟨hs, ⟨hv, e⟩ | ⟨hv, e⟩ | ⟨v, hv, hl, ⟨hd, e⟩ | ⟨hd, ⟨hb, e⟩ | ⟨out, hb, e⟩⟩⟩⟩ <;> rw [e]
  · simp [hs]
  · simp [hs, hv, eq_comm (b := r)]
  · simp [hv]
  · simp [hv, hl, hd]
  · simp [hs, hv, hl, hd, hb, eq_comm (b := r)]
  · simp [hv, hl, hd, hb]

/-- A written input has decided padding. -/
theorem readBytes_of_paddingUndecided {s : State} {n : Nat} (h : paddingUndecided s n) :
    s.dmem.readBytes s.src.toNat s.len.toNat = none := by
  by_contra hn
  obtain ⟨b, hb⟩ := Option.ne_none_iff_exists'.1 hn
  rw [← validateCells_eq_none_iff, Memory.cells_of_readBytes hb, validateCells_map_some] at h
  cases h

theorem Memory.readBytes_none_mono {m : Memory} {a k n : Nat} (hk : k ≤ n) (h : m.readBytes a k = none) :
    m.readBytes a n = none := by
  obtain ⟨i, hi, hr⟩ := Memory.readBytes_eq_none.1 h
  exact Memory.readBytes_eq_none.2 ⟨i, by omega, hr⟩

/-- The grounds on which a command that is no block command stops: an unwritten byte of the key, of IV, or of its input. -/
def StopGround (i : Instr) (s : State) (r : Fault) : Prop :=
  (r = .unwrittenKey ∧ keyed i = true ∧ s.keyLen = 16 ∧ s.keyReady = false) ∨
  (r = .unwrittenIv ∧ (i = .enc .cbc ∨ i = .dec .cbc) ∧ s.ivReady = false ∧ s.len ≠ 0) ∨
  (r = .unwrittenDmem ∧ s.dmem.readBytes s.src.toNat s.len.toNat = none ∧ s.inRange s.src.toNat s.len.toNat = true)

theorem exec_codec_fault_cases {i : Instr} {m : Mode} (hi : i = .enc m ∨ i = .dec m) {s : State} {r : Fault}
    (h : exec i s = .fault r) : StopGround i s r := by
  obtain ⟨h16, ⟨hk, rfl⟩ | ⟨_, _, hs, _, ⟨hb, rfl⟩ | ⟨b, hb, rfl, rfl, hne, hiv⟩⟩⟩ := (exec_codec_eq_fault hi).1 h
  · exact .inl ⟨rfl, by rcases hi with rfl | rfl <;> rfl, h16, hk⟩
  · exact .inr (.inr ⟨rfl, hb, hs⟩)
  · refine .inr (.inl ⟨rfl, hi, hiv, fun h0 => hne ?_⟩)
    rw [← List.length_eq_zero_iff, Memory.readBytes_length hb, h0]
    rfl

/-- Every stop of a command that is no block command, with its ground. -/
theorem exec_fault_cases {i : Instr} {s : State} {r : Fault} (h : exec i s = .fault r) (hb : blockCommand i = false) :
    StopGround i s r := by
  cases i with
  | gfmul | sbox | isbox => cases h
  | kexp =>
    obtain ⟨rfl, hk⟩ := exec_kexp_eq_fault.1 h
    exact .inl ⟨rfl, rfl, hk⟩
  | enc m => exact exec_codec_fault_cases (.inl rfl) h
  | dec m => exact exec_codec_fault_cases (.inr rfl) h
  | pad n =>
    obtain ⟨rfl, _, hs, _, hu⟩ := exec_pad_eq_fault.1 h
    exact .inr (.inr ⟨rfl, hu, hs⟩)
  | valid n =>
    obtain ⟨rfl, hs, hu⟩ := exec_valid_eq_fault.1 h
    exact .inr (.inr ⟨rfl, readBytes_of_paddingUndecided hu, hs⟩)
  | unpad n =>
    obtain ⟨rfl, hs, hu | ⟨v, _, _, hu⟩⟩ := exec_unpad_eq_fault.1 h
    · exact .inr (.inr ⟨rfl, readBytes_of_paddingUndecided hu, hs⟩)
    · exact .inr (.inr ⟨rfl, Memory.readBytes_none_mono (Nat.sub_le ..) hu, hs⟩)
  | subb | isubb | shr | ishr | mixc | imixc | ark | round | iround | encb | decb => cases hb

/-- A fault other than that of the block commands has a ground among those of the others. -/
theorem not_blockCommand_of_fault {i : Instr} {s : State} {r : Fault} (h : exec i s = .fault r) (hr : r ≠ .unwrittenState) :
    blockCommand i = false := by
  by_contra hb
  exact hr (exec_block_fault (by simpa using hb) h).1

theorem exec_eq_unwrittenKey {i : Instr} {s : State} :
    exec i s = .fault .unwrittenKey ↔ keyed i = true ∧ s.keyLen = 16 ∧ s.keyReady = false := by
  constructor
  · intro h
    rcases exec_fault_cases h (not_blockCommand_of_fault h (by decide)) with ⟨_, hk⟩ | ⟨hr, _⟩ | ⟨hr, _⟩
    · exact hk
    · cases hr
    · cases hr
  · rintro ⟨hi, h16, hk⟩
    cases i with
    | kexp => exact exec_kexp_eq_fault.2 ⟨rfl, h16, hk⟩
    | enc m => exact (exec_codec_eq_fault (.inl rfl)).2 ⟨h16, .inl ⟨hk, rfl⟩⟩
    | dec m => exact (exec_codec_eq_fault (.inr rfl)).2 ⟨h16, .inl ⟨hk, rfl⟩⟩
    | _ => cases hi

theorem exec_eq_unwrittenIv {i : Instr} {s : State} : exec i s = .fault .unwrittenIv ↔
    (i = .enc .cbc ∨ i = .dec .cbc) ∧ s.keyLen = 16 ∧ s.keyReady = true ∧ s.ivReady = false ∧
      s.inRange s.dst.toNat (codecLength .cbc s.len.toNat) = true ∧ ∃ b, inputIs s b ∧ b ≠ [] := by
  constructor
  · intro h
    rcases exec_fault_cases h (not_blockCommand_of_fault h (by decide)) with ⟨hr, _⟩ | ⟨_, hi, _⟩ | ⟨hr, _⟩
    · cases hr
    · obtain ⟨h16, ⟨_, hr⟩ | ⟨hk, _, hs, hd, ⟨_, hr⟩ | ⟨b, hb, _, _, hne, hiv⟩⟩⟩ := (exec_codec_eq_fault hi).1 h
      · cases hr
      · cases hr
      · exact ⟨hi, h16, hk, hiv, hd, b, ⟨hs, hb⟩, hne⟩
    · cases hr
  · rintro ⟨hi, h16, hk, hiv, hd, b, ⟨hs, hb⟩, hne⟩
    exact (exec_codec_eq_fault hi).2 ⟨h16, .inr ⟨hk, by decide, hs, hd, .inr ⟨b, hb, rfl, rfl, hne, hiv⟩⟩⟩

theorem exec_codec_eq_unwrittenDmem {i : Instr} {m : Mode} {s : State} (hi : i = .enc m ∨ i = .dec m) :
    exec i s = .fault .unwrittenDmem ↔
      m ≠ .gcm ∧ s.keyLen = 16 ∧ s.keyReady = true ∧ inputUnwritten s (codecLength m s.len.toNat) := by
  rw [exec_codec_eq_fault hi]
  constructor
  · rintro ⟨h16, ⟨_, hr⟩ | ⟨hk, hm, hs, hd, ⟨hb, _⟩ | ⟨_, _, hr, _⟩⟩⟩
    · cases hr
    · exact ⟨hm, h16, hk, hs, hd, hb⟩
    · cases hr
  · rintro ⟨hm, h16, hk, hs, hd, hb⟩
    exact ⟨h16, .inr ⟨hk, hm, hs, hd, .inl ⟨hb, rfl⟩⟩⟩

theorem exec_unpad_eq_unwrittenDmem {n : Byte} {s : State} :
    exec (.unpad n) s = .fault .unwrittenDmem ↔ s.inRange s.src.toNat s.len.toNat = true ∧
      (paddingUndecided s n.toNat ∨
        ∃ v : Nat, 1 ≤ v ∧ v ≤ n.toNat ∧ v ≤ s.len.toNat ∧
          (∀ k, k < v → s.dmem.read (s.src.toNat + s.len.toNat - 1 - k) = some (BitVec.ofNat 8 v)) ∧
          s.inRange s.dst.toNat (s.len.toNat - v) = true ∧
          ∃ k, k < s.len.toNat - v ∧ s.dmem.read (s.src.toNat + k) = none) := by
  simp only [exec_unpad_eq_fault, Memory.readBytes_eq_none, true_and]
  refine and_congr_right fun _ => or_congr_right ⟨?_, ?_⟩
  · rintro ⟨v, ⟨h1, hn, hl, ht⟩, hd, hu⟩
    exact ⟨v.toNat, h1, hn, hl, by simpa using ht, hd, hu⟩
  · rintro ⟨v, h1, hn, hl, ht, hd, hu⟩
    have hv : (BitVec.ofNat 8 v).toNat = v := by
      have := n.isLt
      rw [BitVec.toNat_ofNat]; omega
    refine ⟨BitVec.ofNat 8 v, ?_⟩
    rw [hv]
    exact ⟨⟨h1, hn, hl, ht⟩, hd, hu⟩

/-- Settles O47: one iff for each command says where it stops, and the clauses read them off. -/
theorem bufferCommandsStopOnlyOnUnwrittenBytes : Obligations.BufferCommandsStopOnlyOnUnwrittenBytes :=
  ⟨fun _ _ _ => exec_fault_cases, fun _ _ => exec_eq_unwrittenKey, fun _ _ => exec_eq_unwrittenIv,
    fun _ _ _ => exec_codec_eq_unwrittenDmem, fun _ _ => exec_pad_eq_fault.trans (and_iff_right rfl),
    fun _ _ => exec_valid_eq_fault.trans (and_iff_right rfl), fun _ _ => exec_unpad_eq_unwrittenDmem⟩

end Sys2Proof.Machine

/-! # Proofs of the family 20_memory.md: the accesses that are served, byte and word accesses, and what they do -/

namespace Sys2Proof.Machine

open Sys2Proof.Claims

/-! ## No command is refused -/

theorem State.updateState_ne_refused (s : State) (f : Block → Block) (r : Refusal) : s.updateState f ≠ .refused r := by
  unfold State.updateState
  split <;> nofun

theorem State.runBuffer_ne_refused (s : State) (n : Nat) (f : List Byte → Except Fault (List Byte)) (r : Refusal) :
    s.runBuffer n f ≠ .refused r := by
  unfold State.runBuffer
  split
  · nofun
  · split
    · nofun
    · split
      · nofun
      · split <;> nofun

theorem State.afterKeyStep_ne_refused {s : State} {body : State → Result} {r : Refusal} (hb : ∀ t, body t ≠ .refused r) :
    s.afterKeyStep body ≠ .refused r := by
  unfold State.afterKeyStep
  split
  · nofun
  · nofun
  · nofun
  · exact hb _

theorem exec_codec_ne_refused {i : Instr} {m : Mode} (hi : i = .enc m ∨ i = .dec m) (s : State) (r : Refusal) :
    exec i s ≠ .refused r := by
  by_cases hm : m = .gcm
  · subst hm
    rw [exec_gcm hi]
    exact State.afterKeyStep_ne_refused fun t => nofun
  · obtain ⟨f, hx, _⟩ := exec_codec hi hm
    rw [hx]
    exact State.afterKeyStep_ne_refused fun t => t.runBuffer_ne_refused _ _ r

theorem exec_ne_refused (i : Instr) (s : State) (r : Refusal) : exec i s ≠ .refused r := by
  by_cases hi : blockCommand i = true
  · rcases exec_block_cases hi s with ⟨c, e⟩ | ⟨f, e⟩ <;> rw [e]
    · nofun
    · exact s.updateState_ne_refused f r
  · cases i with
    | gfmul | sbox | isbox => nofun
    | kexp => rcases exec_kexp_cases s with ⟨e, _⟩ | ⟨e, _⟩ | ⟨e, _⟩ | ⟨e, _⟩ <;> rw [e] <;> nofun
    | enc m => exact exec_codec_ne_refused (.inl rfl) s r
    | dec m => exact exec_codec_ne_refused (.inr rfl) s r
    | pad n =>
      simp only [exec, execPad]
      split
      · nofun
      · exact s.runBuffer_ne_refused _ _ r
    | unpad n =>
      rcases exec_unpad_cases n s with ⟨_, e⟩ | ⟨_, ⟨_, e⟩ | ⟨_, e⟩ | ⟨_, _, _, ⟨_, e⟩ | ⟨_, ⟨_, e⟩ | ⟨_, _, e⟩⟩⟩⟩ <;>
        rw [e] <;> nofun
    | valid n => rcases exec_valid_cases n s with ⟨_, _, e⟩ | ⟨_, _, e⟩ <;> rw [e] <;> nofun
    | subb | isubb | shr | ishr | mixc | imixc | ark | round | iround | encb | decb => exact absurd rfl hi

theorem issue_ne_refused (w : Word) (s : State) (r : Refusal) : issue w s ≠ .refused r := by
  unfold issue
  split
  · nofun
  · split
    · nofun
    · exact exec_ne_refused _ s r

/-! ## Which accesses are served -/

/-- A host access is refused exactly where it goes to no place (20_memory.md R51). -/
theorem isRefused_read8 {addr : Nat} {s : State} : isRefused (.read8 addr) s ↔ ¬ ∃ x, locate8 s.config addr = .ok x := by
  simp only [isRefused, hostEvent]
  cases locate8 s.config addr <;> simp

theorem isRefused_write8 {addr : Nat} {b : Byte} {s : State} :
    isRefused (.write8 addr b) s ↔ ¬ ∃ x, locate8 s.config addr = .ok x := by
  simp only [isRefused, hostEvent]
  cases locate8 s.config addr <;> simp

theorem isRefused_read32 {addr : Nat} {s : State} : isRefused (.read32 addr) s ↔ ¬ ∃ x, locate32 s.config addr = .ok x := by
  simp only [isRefused, hostEvent]
  rcases locate32 s.config addr with r | ⟨_ | _ | _, i⟩ <;> simp

theorem isRefused_write32 {addr : Nat} {w : Word} {s : State} :
    isRefused (.write32 addr w) s ↔ ¬ ∃ x, locate32 s.config addr = .ok x := by
  simp only [isRefused, hostEvent]
  rcases locate32 s.config addr with r | ⟨_ | _ | _, i⟩ <;> simp [issue_ne_refused]

/-- Bytes that lie in one byte range are bytes the host can read. -/
theorem readableBytes_of_range {s : State} {a : ArrayName} {o n : Nat} (h1 : (arrayRange s.config a).1 ≤ o)
    (h2 : o + n ≤ (arrayRange s.config a).1 + (arrayRange s.config a).2) : readableBytes s o n := by
  unfold readableBytes
  cases a <;> simp only [arrayRange] at h1 h2 <;> omega

/-- An 8-bit access is served exactly on a byte the host can read (R52). -/
theorem locate8_served_iff {s : State} {addr : Nat} :
    (∃ x, locate8 s.config addr = .ok x) ↔ ∃ o, addr = s.config.engineBase + o ∧ readableBytes s o 1 := by
  constructor
  · rintro ⟨⟨a, i⟩, h⟩
    obtain ⟨ha, hi⟩ := locate8_inv h
    exact ⟨(arrayRange s.config a).1 + i, by rw [ha, Nat.add_assoc], readableBytes_of_range (a := a) (by omega) (by omega)⟩
  · rintro ⟨o, rfl, h⟩
    obtain ⟨a, h1, h2⟩ := readableBytes_range h (.inl rfl)
    exact ⟨_, locate8_array h1 h2⟩

/-- A 32-bit access is served exactly at a multiple of 4 on CMD, on a register, or on four bytes the host can read (R52). -/
theorem locate32_served_iff {s : State} {addr : Nat} : (∃ x, locate32 s.config addr = .ok x) ↔
    ∃ o, addr = s.config.engineBase + o ∧ o % 4 = 0 ∧ (o < 0x28 ∨ readableBytes s o 4) := by
  constructor
  · rintro ⟨⟨n, i⟩, h⟩
    rcases locate32_cases h with ⟨_, ha⟩ | ⟨r, _, ha⟩ | ⟨a, _, ha, hi, h4⟩
    · exact ⟨0, ha, rfl, .inl (by decide)⟩
    · exact ⟨regOffset r, ha, by cases r <;> rfl, .inl (by cases r <;> decide)⟩
    · exact ⟨(arrayRange s.config a).1 + i, by rw [ha, Nat.add_assoc], h4,
        .inr (readableBytes_of_range (a := a) (by omega) (by omega))⟩
  · rintro ⟨o, rfl, h4, ho | h⟩
    · rcases registerOffset_cases ho h4 with rfl | ⟨r, rfl⟩
      · exact ⟨_, locate32_cmd s.config⟩
      · exact ⟨_, locate32_reg s.config r⟩
    · obtain ⟨a, h1, h2⟩ := readableBytes_range h (.inr ⟨rfl, h4⟩)
      exact ⟨_, locate32_array h4 h1 h2⟩

/-- Settles O54: an access is refused where it goes to no place, and the map says where it goes. -/
theorem exactlyAdmittedAccessesAreServed : Obligations.ExactlyAdmittedAccessesAreServed := by
  refine fun s addr b w => ⟨?_, isRefused_write8.trans isRefused_read8.symm, ?_, isRefused_write32.trans isRefused_read32.symm⟩
  · rw [isRefused_read8, locate8_served_iff]
    rfl
  · rw [isRefused_read32, locate32_served_iff]
    refine not_congr (exists_congr fun o => and_congr_right fun _ => and_congr_right fun h4 => ?_)
    unfold readableBytes
    omega

end Sys2Proof.Machine

namespace Sys2Proof.Machine

open Sys2Proof.Claims

/-! ## Writes and reads of byte ranges -/

/-- An aligned word that the host can write lies in one byte range other than RK. -/
theorem writableBytes_range {s : State} {o : Nat} (h : writableBytes s o 4) (h4 : o % 4 = 0) :
    ∃ a, a ≠ .rk ∧ (arrayRange s.config a).1 ≤ o ∧ o + 4 ≤ (arrayRange s.config a).1 + (arrayRange s.config a).2 := by
  have hr : readableBytes s o 4 := h.imp_left fun h => ⟨h.1, by omega⟩
  obtain ⟨a, h1, h2⟩ := readableBytes_range hr (.inr ⟨rfl, h4⟩)
  refine ⟨a, ?_, h1, h2⟩
  rintro rfl
  simp only [arrayRange] at h1 h2
  unfold writableBytes at h
  omega

@[simp] theorem State.writeArrayWord_config (s : State) (a : ArrayName) (i : Nat) (v : Word) :
    (s.writeArrayWord a i v).config = s.config := by simp [State.writeArrayWord]

/-- The bytes of a word written to a byte range are its lanes (20_memory.md R53). -/
theorem State.arrayByte_writeArrayWord (s : State) {a : ArrayName} {i k : Nat} (ha : a ≠ .rk)
    (hi : i + 4 ≤ (arrayRange s.config a).2) (hk : k < 4) (v : Word) :
    (s.writeArrayWord a i v).arrayByte a (i + k) = some (byteLane v k) := by
  unfold State.writeArrayWord
  rw [State.arrayByte_writeArrayByte _ ha (by simp only [State.writeArrayByte_config]; omega),
    State.arrayByte_writeArrayByte _ ha (by simp only [State.writeArrayByte_config]; omega),
    State.arrayByte_writeArrayByte _ ha (by simp only [State.writeArrayByte_config]; omega),
    State.arrayByte_writeArrayByte _ ha (by omega)]
  have : k = 0 ∨ k = 1 ∨ k = 2 ∨ k = 3 := by omega
  rcases this with rfl | rfl | rfl | rfl <;> simp

/-- A word read back where it was written. -/
theorem State.readArrayWord_writeArrayWord (s : State) {a : ArrayName} {i : Nat} (ha : a ≠ .rk)
    (hi : i + 4 ≤ (arrayRange s.config a).2) (v : Word) :
    (s.writeArrayWord a i v).readArrayWord a i = (v, s.writeArrayWord a i v) := by
  have lane : ∀ k, k < 4 → (s.writeArrayWord a i v).arrayByte a (i + k) = some (byteLane v k) :=
    fun k hk => s.arrayByte_writeArrayWord ha hi hk v
  rw [State.readArrayWord_written (i := i) (lane 0 (by omega)) (lane 1 (by omega)) (lane 2 (by omega)) (lane 3 (by omega)),
    wordOfBytes_byteLane]

/-- The lanes of the word of four bytes are the bytes. -/
theorem byteLane_wordOfBytes (b0 b1 b2 b3 : Byte) :
    byteLane (wordOfBytes b0 b1 b2 b3) 0 = b0 ∧ byteLane (wordOfBytes b0 b1 b2 b3) 1 = b1 ∧
      byteLane (wordOfBytes b0 b1 b2 b3) 2 = b2 ∧ byteLane (wordOfBytes b0 b1 b2 b3) 3 = b3 := by
  refine ⟨?_, ?_, ?_, ?_⟩ <;> apply BitVec.eq_of_getLsbD_eq <;> intro i hi <;>
    rw [byteLane, BitVec.getLsbD_extractLsb', getLsbD_wordOfBytes]
  · simp [hi]
  · simp [hi, show 8 * 1 + i < 16 by omega]
  · simp [hi, show 16 + i < 24 by omega, show ¬ 16 + i < 8 by omega]
  · simp [hi, show ¬ 24 + i < 8 by omega, show ¬ 24 + i < 16 by omega]

/-- Byte writes seen from the start `o` of a word: byte k of it, in a state whose parameters are `c`. -/
theorem hostEvent_writeByte_at {s : State} {c : Config} (hc : s.config = c) {a : ArrayName} {o k : Nat}
    (h1 : (arrayRange c a).1 ≤ o) (h2 : o + 4 ≤ (arrayRange c a).1 + (arrayRange c a).2) (hk : k < 4) (v : Byte) :
    hostEvent (.write8 (c.engineBase + (o + k)) v) s = .next (s.writeArrayByte a (o - (arrayRange c a).1 + k) v) := by
  subst hc
  rw [hostEvent_writeByte (a := a) (by omega) (by omega), Nat.sub_add_comm h1]

/-- A word write is a write of each of its bytes, in ascending order. -/
theorem State.writeArrayWord_wordOfBytes (s : State) (a : ArrayName) (i : Nat) (b0 b1 b2 b3 : Byte) :
    s.writeArrayWord a i (wordOfBytes b0 b1 b2 b3) =
      (((s.writeArrayByte a i b0).writeArrayByte a (i + 1) b1).writeArrayByte a (i + 2) b2).writeArrayByte a (i + 3) b3 := by
  obtain ⟨h0, h1, h2, h3⟩ := byteLane_wordOfBytes b0 b1 b2 b3
  rw [State.writeArrayWord, h0, h1, h2, h3]

/-- A read of a written byte returns it and draws nothing. -/
theorem hostEvent_readByte_written {s : State} {c : Config} (hc : s.config = c) {a : ArrayName} {o : Nat} {b : Byte}
    (h1 : (arrayRange c a).1 ≤ o) (h2 : o < (arrayRange c a).1 + (arrayRange c a).2)
    (hb : s.arrayByte a (o - (arrayRange c a).1) = some b) :
    hostEvent (.read8 (c.engineBase + o)) s = .next { s with readData := some (.byte b) } := by
  subst hc
  rw [hostEvent_readByte h1 h2, hb]
  rfl

/-- A read of an aligned word that draws nothing. -/
theorem hostEvent_readWord_written {s : State} {c : Config} (hc : s.config = c) {a : ArrayName} {o : Nat} {w : Word}
    (h4 : o % 4 = 0) (h1 : (arrayRange c a).1 ≤ o) (h2 : o + 4 ≤ (arrayRange c a).1 + (arrayRange c a).2)
    (hw : s.readArrayWord a (o - (arrayRange c a).1) = (w, s)) :
    hostEvent (.read32 (c.engineBase + o)) s = .next { s with readData := some (.word w) } := by
  subst hc
  rw [hostEvent_readWord h4 h1 h2, hw]

/-- A byte read that draws nothing returns the written byte: one of an unwritten byte advances the count of draws. -/
theorem arrayByte_of_hostEvent_read8 {s : State} {a : ArrayName} {o : Nat} {b : Byte} (h1 : (arrayRange s.config a).1 ≤ o)
    (h2 : o < (arrayRange s.config a).1 + (arrayRange s.config a).2)
    (h : hostEvent (.read8 (s.config.engineBase + o)) s = .next { s with readData := some (.byte b) }) :
    s.arrayByte a (o - (arrayRange s.config a).1) = some b := by
  rw [hostEvent_readByte h1 h2] at h
  have h := Host.Outcome.next.inj h
  cases hc : s.arrayByte a (o - (arrayRange s.config a).1) with
  | none =>
    rw [hc] at h
    exact absurd (congrArg State.draws h) (Nat.succ_ne_self s.draws)
  | some v =>
    rw [hc] at h
    have hd : some (ReadData.byte v) = some (.byte b) := congrArg State.readData h
    cases hd
    rfl

/-! ## Host events one after the other -/

theorem allEvents_cons {e : HostEvent} {s t : State} (h : hostEvent e s = .next t) (es : List HostEvent) :
    allEvents (e :: es) s = allEvents es t := by
  simp only [allEvents, h]

theorem run_withEvents_cons {e : HostEvent} {es : List HostEvent} {s t : State} (n : Nat)
    (h : hostEvent e (withEvents s es) = .next t) :
    Sys2Proof.core.run (n + 1) (withEvents s (e :: es)) = Sys2Proof.core.run n t := by
  have hs : Sys2Proof.core.step (withEvents s (e :: es)) = .next t := h
  simp only [Host.Core.run, hs]

@[simp] theorem withEvents_config (s : State) (es : List HostEvent) : (withEvents s es).config = s.config := rfl

theorem withEvents_writeArrayByte (s : State) (es : List HostEvent) (a : ArrayName) (i : Nat) (v : Byte) :
    (withEvents s es).writeArrayByte a i v = withEvents (s.writeArrayByte a i v) es := by cases a <;> rfl

theorem withEvents_writeArrayWord (s : State) (es : List HostEvent) (a : ArrayName) (i : Nat) (v : Word) :
    (withEvents s es).writeArrayWord a i v = withEvents (s.writeArrayWord a i v) es := by
  simp only [State.writeArrayWord, withEvents_writeArrayByte]

/-- The host's last event, a read: what it returns is there to see in the end. -/
theorem run_withEvents_read {e : HostEvent} {s : State} {d : ReadData}
    (h : hostEvent e (withEvents s []) = .next { withEvents s [] with readData := some d }) :
    ∃ t, Sys2Proof.core.run 1 (withEvents s [e]) = .next t ∧ t.readData = some d :=
  ⟨_, run_withEvents_cons 0 h, rfl⟩

theorem run_writeByte_at {s : State} {c : Config} (hc : s.config = c) {a : ArrayName} {o k : Nat}
    (h1 : (arrayRange c a).1 ≤ o) (h2 : o + 4 ≤ (arrayRange c a).1 + (arrayRange c a).2) (hk : k < 4) (v : Byte)
    (es : List HostEvent) (n : Nat) :
    Sys2Proof.core.run (n + 1) (withEvents s (.write8 (c.engineBase + (o + k)) v :: es)) =
      Sys2Proof.core.run n (withEvents (s.writeArrayByte a (o - (arrayRange c a).1 + k) v) es) :=
  run_withEvents_cons n <|
    (hostEvent_writeByte_at (s := withEvents s es) hc h1 h2 hk v).trans (by rw [withEvents_writeArrayByte])

section Word

/-! An aligned word at offset `o` that lies in a byte range which takes writes. -/

variable {s : State} {a : ArrayName} {o : Nat} (ha : a ≠ .rk) (h4 : o % 4 = 0) (h1 : (arrayRange s.config a).1 ≤ o)
  (h2 : o + 4 ≤ (arrayRange s.config a).1 + (arrayRange s.config a).2)

include h4 h1 h2

theorem run_writeWord (v : Word) (es : List HostEvent) (n : Nat) :
    Sys2Proof.core.run (n + 1) (withEvents s (.write32 (s.config.engineBase + o) v :: es)) =
      Sys2Proof.core.run n (withEvents (s.writeArrayWord a (o - (arrayRange s.config a).1) v) es) :=
  run_withEvents_cons n <|
    (hostEvent_writeWord (s := withEvents s es) h4 h1 h2 v).trans (by rw [withEvents_writeArrayWord]; rfl)

include ha

/-- A word written is what a Read32 there returns. -/
theorem run_readWord_of_write (v : Word) :
    ∃ t, Sys2Proof.core.run 1 (withEvents (s.writeArrayWord a (o - (arrayRange s.config a).1) v)
      [.read32 (s.config.engineBase + o)]) = .next t ∧ t.readData = some (.word v) := by
  have hw := (withEvents s []).readArrayWord_writeArrayWord (a := a) (i := o - (arrayRange s.config a).1) ha
    (show _ ≤ (arrayRange s.config a).2 by omega) v
  rw [withEvents_writeArrayWord] at hw
  exact run_withEvents_read (hostEvent_readWord_written (s := withEvents _ []) (by simp) h4 h1 h2 hw)

/-- The lane of a word written is what a Read8 of it returns. -/
theorem run_readByte_of_write {k : Nat} (hk : k < 4) (v : Word) :
    ∃ t, Sys2Proof.core.run 1 (withEvents (s.writeArrayWord a (o - (arrayRange s.config a).1) v)
      [.read8 (s.config.engineBase + (o + k))]) = .next t ∧ t.readData = some (.byte (byteLane v k)) := by
  have hb := (withEvents s []).arrayByte_writeArrayWord (a := a) (i := o - (arrayRange s.config a).1) ha
    (show _ ≤ (arrayRange s.config a).2 by omega) hk v
  rw [withEvents_writeArrayWord, ← Nat.sub_add_comm h1] at hb
  exact run_withEvents_read (hostEvent_readByte_written (s := withEvents _ []) (by simp) (by omega) (by omega) hb)

/-- Four bytes written one by one are what a Read32 of them returns. -/
theorem run_readWord_of_byteWrites (b0 b1 b2 b3 : Byte) :
    ∃ t, Sys2Proof.core.run 5 (withEvents s [.write8 (s.config.engineBase + o) b0, .write8 (s.config.engineBase + (o + 1)) b1,
      .write8 (s.config.engineBase + (o + 2)) b2, .write8 (s.config.engineBase + (o + 3)) b3,
      .read32 (s.config.engineBase + o)]) = .next t ∧ t.readData = some (.word (wordOfBytes b0 b1 b2 b3)) := by
  have h := run_readWord_of_write ha h4 h1 h2 (wordOfBytes b0 b1 b2 b3)
  rw [State.writeArrayWord_wordOfBytes] at h
  have write0 := run_writeByte_at (s := s) rfl h1 h2 (show 0 < 4 by decide) b0
  rw [Nat.add_zero, Nat.add_zero] at write0
  rw [write0, run_writeByte_at (by simp) h1 h2 (by decide), run_writeByte_at (by simp) h1 h2 (by decide),
    run_writeByte_at (by simp) h1 h2 (by decide)]
  exact h

end Word

/-- Writing 0x74616854 at 0x040 puts "That" into KEY (20_memory.md R53). -/
theorem key_writeArrayWord_that (s : State) : (s.writeArrayWord .key 0 0x74616854).key[0] = 0x54 ∧
    (s.writeArrayWord .key 0 0x74616854).key[1] = 0x68 ∧ (s.writeArrayWord .key 0 0x74616854).key[2] = 0x61 ∧
    (s.writeArrayWord .key 0 0x74616854).key[3] = 0x74 := by
  simp [State.writeArrayWord, State.writeArrayByte, byteLane]

/-- Settles O53: a word is written byte by byte, and a word is read from what its bytes then hold. -/
theorem wordAccessesAreLittleEndian : Obligations.WordAccessesAreLittleEndian := by
  refine ⟨fun s o b h4 h hb => ?_, fun s o k v h4 h hk => ?_, fun s o b0 b1 b2 b3 h4 h => ?_, fun s => ?_⟩
  · obtain ⟨a, h1, h2⟩ := readableBytes_range h (.inr ⟨rfl, h4⟩)
    have byte : ∀ k : Fin 4, s.arrayByte a (o - (arrayRange s.config a).1 + k.val) = some (b k) := fun k => by
      rw [← Nat.sub_add_comm h1]
      exact arrayByte_of_hostEvent_read8 (by omega) (by omega) (hb k)
    rw [hostEvent_readWord_written rfl h4 h1 h2 (State.readArrayWord_written (byte 0) (byte 1) (byte 2) (byte 3)),
      wordOfBytes_eq_or]
  · obtain ⟨a, ha, h1, h2⟩ := writableBytes_range h h4
    rw [run_writeWord h4 h1 h2, run_writeWord h4 h1 h2]
    exact ⟨run_readWord_of_write ha h4 h1 h2 v, run_readByte_of_write ha h4 h1 h2 hk v⟩
  · obtain ⟨a, ha, h1, h2⟩ := writableBytes_range h h4
    rw [← wordOfBytes_eq_or]
    exact run_readWord_of_byteWrites ha h4 h1 h2 b0 b1 b2 b3
  · exact ⟨_, hostEvent_writeWord (a := .key) (o := 0x40) (by decide) (by simp [arrayRange]) (by simp [arrayRange]) _,
      key_writeArrayWord_that s⟩

end Sys2Proof.Machine

namespace Sys2Proof.Machine

open Sys2Proof.Claims

/-! ## What a host access leaves unchanged -/

theorem State.arrayByte_readData (s : State) (d : Option ReadData) (a : ArrayName) (i : Nat) :
    ({ s with readData := d } : State).arrayByte a i = s.arrayByte a i := by cases a <;> rfl

theorem State.drawByte_readData (s : State) (d : Option ReadData) (c : Option Byte) :
    ({ s with readData := d } : State).drawByte c = ((s.drawByte c).1, { (s.drawByte c).2 with readData := d }) := by
  cases c <;> rfl

theorem State.readArrayWord_readData (s : State) (d : Option ReadData) (a : ArrayName) (i : Nat) :
    ({ s with readData := d } : State).readArrayWord a i =
      ((s.readArrayWord a i).1, { (s.readArrayWord a i).2 with readData := d }) := by
  simp only [State.readArrayWord, State.arrayByte_readData, State.drawByte_readData]

/-- What the host read last has no part in what it reads next. -/
theorem hostEvent_read_readData {e : HostEvent} {addr : Nat} (he : e = .read8 addr ∨ e = .read32 addr) (s : State)
    (d : Option ReadData) : hostEvent e { s with readData := d } = hostEvent e s := by
  rcases he with rfl | rfl
  · simp only [hostEvent, State.arrayByte_readData, State.drawByte_readData]
  · simp only [hostEvent]
    cases locate32 s.config addr with
    | error r => rfl
    | ok x =>
      obtain ⟨_ | r | a, i⟩ := x
      · rfl
      · cases r <;> rfl
      · simp only [State.readArrayWord_readData]

/-- A host read changes what was read last and the count of draws; a repeated one that draws nothing finds the same state, but for
what was read last (20_memory.md R55). -/
theorem hostEvent_read_idempotent {e : HostEvent} {addr : Nat} {s t : State} (he : e = .read8 addr ∨ e = .read32 addr)
    (h : hostEvent e s = .next t) :
    t = { s with readData := t.readData, draws := t.draws } ∧ (t.draws = s.draws → hostEvent e t = .next t) := by
  obtain ⟨d, n, rfl⟩ := hostEvent_read_next he h
  refine ⟨rfl, fun hn => ?_⟩
  obtain rfl : n = s.draws := hn
  exact (hostEvent_read_readData he s d).trans h

/-- A Write8 to a byte range other than RK is served, and of that range it changes the one byte. -/
theorem hostEvent_write8_byte {s : State} {a : ArrayName} {o : Nat} (ha : a ≠ .rk) (h1 : (arrayRange s.config a).1 ≤ o)
    (h2 : o < (arrayRange s.config a).1 + (arrayRange s.config a).2) (b : Byte) :
    hostEvent (.write8 (s.config.engineBase + o) b) s = .next (s.writeArrayByte a (o - (arrayRange s.config a).1) b) ∧
      (s.writeArrayByte a (o - (arrayRange s.config a).1) b).arrayByte a (o - (arrayRange s.config a).1) = some b ∧
      ∀ i, i ≠ o - (arrayRange s.config a).1 →
        (s.writeArrayByte a (o - (arrayRange s.config a).1) b).arrayByte a i = s.arrayByte a i := by
  have byte := s.arrayByte_writeArrayByte ha (show o - (arrayRange s.config a).1 < _ by omega) (v := b)
  exact ⟨hostEvent_writeByte h1 h2 b, by rw [byte, if_pos rfl], fun i hi => by rw [byte, if_neg hi]⟩

/-- A Write32 to a byte range is a Write8 of each of its lanes, from the lowest up. -/
theorem hostEvent_writeWord_eq_allEvents {s : State} {a : ArrayName} {o : Nat} (h4 : o % 4 = 0)
    (h1 : (arrayRange s.config a).1 ≤ o) (h2 : o + 4 ≤ (arrayRange s.config a).1 + (arrayRange s.config a).2) (w : Word) :
    hostEvent (.write32 (s.config.engineBase + o) w) s =
      allEvents [.write8 (s.config.engineBase + o) (byteLane w 0), .write8 (s.config.engineBase + (o + 1)) (byteLane w 1),
        .write8 (s.config.engineBase + (o + 2)) (byteLane w 2), .write8 (s.config.engineBase + (o + 3)) (byteLane w 3)] s := by
  rw [hostEvent_writeWord h4 h1 h2, allEvents_cons (hostEvent_writeByte h1 (by omega) _),
    allEvents_cons (hostEvent_writeByte_at (by simp) h1 h2 (by decide) _),
    allEvents_cons (hostEvent_writeByte_at (by simp) h1 h2 (by decide) _),
    allEvents_cons (hostEvent_writeByte_at (by simp) h1 h2 (by decide) _)]
  rfl

/-- Settles O55: one rule for each kind of access and range. -/
theorem hostAccessSideEffects : Obligations.HostAccessSideEffects := by
  refine ⟨fun s t addr e he h => hostEvent_read_idempotent he h, fun s => ?_, fun s o b h hb => ?_, fun s w => ?_,
    fun s o b w h1 h2 => ?_, fun s o b h1 h2 => ?_, fun s o b h1 h2 => ?_, fun s o b h1 h2 => ?_, fun s a b ha => ?_,
    fun s o w h4 h => ?_⟩
  · exact ⟨hostEvent_readReg .status s, hostEvent_readReg .result s, hostEvent_readReg .outLen s, hostEvent_readReg .src s,
      hostEvent_readReg .dst s, hostEvent_readReg .len s, hostEvent_readReg .keyLen s, hostEvent_readReg .nonceLo s,
      hostEvent_readReg .nonceHi s⟩
  · obtain ⟨a, h1, h2⟩ := readableBytes_range h (.inl rfl)
    exact hostEvent_readByte_written rfl h1 h2 ((hostByte_eq_arrayByte h1 h2).symm.trans hb)
  · exact ⟨hostEvent_command w s, by simp only [hostEvent, locate32_cmd], hostEvent_writeReg .status w s,
      hostEvent_writeReg .result w s, hostEvent_writeReg .outLen w s, hostEvent_writeReg .src w s,
      hostEvent_writeReg .dst w s, hostEvent_writeReg .len w s, hostEvent_writeReg .keyLen w s,
      hostEvent_writeReg .nonceLo w s, hostEvent_writeReg .nonceHi w s⟩
  · exact ⟨hostEvent_writeByte (a := .rk) h1 h2 b,
      fun h4 => hostEvent_writeWord (a := .rk) h4 h1 (by simp only [arrayRange]; omega) w⟩
  · obtain ⟨ht, hb, hrest⟩ := hostEvent_write8_byte (s := s) (a := .key) (by decide) h1 h2 b
    exact ⟨_, ht, rfl, hb, hrest⟩
  · obtain ⟨ht, hb, hrest⟩ := hostEvent_write8_byte (s := s) (a := .iv) (by decide) h1 h2 b
    exact ⟨_, ht, rfl, hb, hrest⟩
  · obtain ⟨ht, hb, hrest⟩ := hostEvent_write8_byte (s := s) (a := .state) (by decide) h1 h2 b
    exact ⟨_, ht, rfl, hb, hrest⟩
  · obtain ⟨ht, hb, hrest⟩ := hostEvent_write8_byte (s := s) (a := .dmem) (o := 0x1000 + a) (by decide)
      (Nat.le_add_right _ a) (Nat.add_lt_add_left ha _) b
    rw [show 0x1000 + a - (arrayRange s.config .dmem).1 = a from Nat.add_sub_cancel_left 0x1000 a] at ht hb hrest
    exact ⟨_, ht, rfl, hb, hrest⟩
  · obtain ⟨a, _, h1, h2⟩ := writableBytes_range h h4
    exact hostEvent_writeWord_eq_allEvents h4 h1 h2 w

end Sys2Proof.Machine

/-! # Proofs of the family 30_encoding.md: the decoder against the encoder and the predicate of R85, and what a command word does -/

namespace Sys2Proof

open Sys2Proof.Machine Sys2Proof.Claims

/-! ## The decoder reads what the encoder wrote -/

@[simp] theorem flagOf_flagByte (f : Bool) : flagOf (flagByte f) = some f := by cases f <;> rfl

@[simp] theorem modeOf_modeByte (m : Mode) : modeOf (modeByte m) = some m := by cases m <;> rfl

@[simp] theorem formX_zero (a : Byte) (mk : Byte → Instr) : formX a 0 mk = .ok (mk a) := rfl

@[simp] theorem formBF_flagByte (f : Bool) (mk : Bool → Instr) : formBF 0 (flagByte f) mk = .ok (mk f) := by simp [formBF]

@[simp] theorem formI_index {j : Byte} (hj : roundIndexOk j = true) (mk : Byte → Instr) : formI j 0 mk = .ok (mk j) := by
  simp [formI, hj]

@[simp] theorem formIF_index {j : Byte} (hj : roundIndexOk j = true) (f : Bool) (mk : Byte → Bool → Instr) :
    formIF j (flagByte f) mk = .ok (mk j f) := by simp [formIF, hj]

@[simp] theorem formM_modeByte (m : Mode) (mk : Mode → Instr) : formM (modeByte m) 0 mk = .ok (mk m) := by simp [formM]

/-- Settles O1: the word carries the fields of the command (`decode_packWord`), and each form reads its operands back. -/
theorem decodeEncodeRoundTrip : Obligations.DecodeEncodeRoundTrip := by
  intro i hi
  cases i with
  | gfmul a b => exact decode_packWord _ a b
  | sbox a | isbox a | pad a | unpad a | valid a => exact (decode_packWord _ a 0).trans (formX_zero a _)
  | subb | isubb | shr | ishr | kexp | encb | decb => rfl
  | mixc f | imixc f => exact (decode_packWord _ 0 _).trans (formBF_flagByte f _)
  | ark j => exact (decode_packWord _ j 0).trans (formI_index hi _)
  | round j f | iround j f => exact (decode_packWord _ j _).trans (formIF_index hi f _)
  | enc m | dec m => exact (decode_packWord _ _ 0).trans (formM_modeByte m _)

/-- Settles O3: each word is the encoding of its command. -/
theorem specWordsDecode : Obligations.SpecWordsDecode := by
  have decodes : ∀ {w : Word} (i : Instr), i.wellFormed = true → encode i = w → decode w = .ok i :=
    fun i hi h => h ▸ decodeEncodeRoundTrip i hi
  exact ⟨decodes (.gfmul 0x57 0x83) rfl rfl, decodes (.sbox 0x53) rfl rfl, decodes (.mixc true) rfl rfl, decodes (.ark 2) rfl rfl,
    decodes (.round 10 true) rfl rfl, decodes .kexp rfl rfl, decodes (.enc .cbc) rfl rfl, decodes (.dec .ctr) rfl rfl,
    decodes (.pad 20) rfl rfl, decodes (.valid 16) rfl rfl⟩

/-! ## The predicate of R85 -/

/-- The rows of R85, one for each form of operands. -/
theorem legalFields_iff {op a b z : Nat} : legalFields op a b z = true ↔ z = 0 ∧
    (op = 0x01 ∨ (op ∈ [0x02, 0x03] ∧ b = 0) ∨ (op ∈ [0x10, 0x11, 0x12, 0x13, 0x20, 0x21, 0x22] ∧ a = 0 ∧ b = 0) ∨
      (op ∈ [0x14, 0x15] ∧ a = 0 ∧ b ≤ 1) ∨ (op = 0x16 ∧ a ≤ 10 ∧ b = 0) ∨ (op ∈ [0x17, 0x18] ∧ a ≤ 10 ∧ b ≤ 1) ∨
      (op ∈ [0x30, 0x31] ∧ a ≤ 3 ∧ b = 0) ∨ (op ∈ [0x40, 0x41, 0x42] ∧ b = 0)) := by
  simp only [legalFields, Bool.and_eq_true, Bool.or_eq_true, decide_eq_true_eq, List.contains_iff_mem, and_assoc, or_assoc]

/-- A byte that is at most 1 is a flag (R83). -/
theorem exists_flagByte {b : Byte} (h : b.toNat ≤ 1) : ∃ f, flagByte f = b := by
  rcases Nat.le_one_iff_eq_zero_or_eq_one.1 h with h | h
  · exact ⟨false, BitVec.eq_of_toNat_eq h.symm⟩
  · exact ⟨true, BitVec.eq_of_toNat_eq h.symm⟩

/-- A byte that is at most 3 is a mode (R86). -/
theorem exists_modeByte {a : Byte} (h : a.toNat ≤ 3) : ∃ m, modeByte m = a := by
  have h : a.toNat = 0 ∨ a.toNat = 1 ∨ a.toNat = 2 ∨ a.toNat = 3 := by omega
  rcases h with h | h | h | h
  · exact ⟨.ecb, BitVec.eq_of_toNat_eq h.symm⟩
  · exact ⟨.cbc, BitVec.eq_of_toNat_eq h.symm⟩
  · exact ⟨.ctr, BitVec.eq_of_toNat_eq h.symm⟩
  · exact ⟨.gcm, BitVec.eq_of_toNat_eq h.symm⟩

/-- Each row of R85 is a form of the decoder, so legal fields decode. -/
theorem decodeFields_of_legalFields {op : Nat} {a b : Byte} {z : Nat} (h : legalFields op a.toNat b.toNat z = true) :
    ∃ i, decodeFields op a b = .ok i := by
  have zero : ∀ {x : Byte}, x.toNat = 0 → x = 0 := fun e => BitVec.eq_of_toNat_eq e
  have index : ∀ {j : Byte}, j.toNat ≤ 10 → roundIndexOk j = true := fun h => decide_eq_true h
  obtain ⟨-, h⟩ := legalFields_iff.1 h
  simp only [List.mem_cons, List.not_mem_nil, or_false] at h
  rcases h with rfl | ⟨ho, hb⟩ | ⟨ho, ha, hb⟩ | ⟨ho, ha, hb⟩ | ⟨rfl, ha, hb⟩ | ⟨ho, ha, hb⟩ | ⟨ho, ha, hb⟩ | ⟨ho, hb⟩
  · exact ⟨_, rfl⟩
  · cases zero hb
    rcases ho with rfl | rfl <;> exact ⟨_, formX_zero a _⟩
  · cases zero ha
    cases zero hb
    rcases ho with rfl | rfl | rfl | rfl | rfl | rfl | rfl <;> exact ⟨_, rfl⟩
  · cases zero ha
    obtain ⟨f, rfl⟩ := exists_flagByte hb
    rcases ho with rfl | rfl <;> exact ⟨_, formBF_flagByte f _⟩
  · cases zero hb
    exact ⟨_, formI_index (index ha) _⟩
  · obtain ⟨f, rfl⟩ := exists_flagByte hb
    rcases ho with rfl | rfl <;> exact ⟨_, formIF_index (index ha) f _⟩
  · cases zero hb
    obtain ⟨m, rfl⟩ := exists_modeByte ha
    rcases ho with rfl | rfl <;> exact ⟨_, formM_modeByte m _⟩
  · cases zero hb
    rcases ho with rfl | rfl | rfl <;> exact ⟨_, formX_zero a _⟩

/-- R85: a word is legal exactly if it decodes. -/
theorem legal_iff_decode {w : Word} : legal w = true ↔ ∃ i, decode w = .ok i := by
  refine ⟨fun h => ?_, fun ⟨i, hi⟩ => legal_of_decode hi⟩
  have hz : zOf w = 0 := BitVec.eq_of_toNat_eq (legalFields_iff.1 h).1
  rw [decode, if_neg (not_not.2 hz)]
  exact decodeFields_of_legalFields h

/-- Settles O2: `legal_iff_decode` on the fields as numbers, and `decode_eq_ok`. -/
theorem decoderAcceptsExactlyLegalWords : Obligations.DecoderAcceptsExactlyLegalWords := by
  intro w
  obtain ⟨hop, ha, hb, hz⟩ := toNat_fields w
  refine ⟨?_, fun i => decode_eq_ok⟩
  rw [← hop, ← ha, ← hb, ← hz]
  exact legal_iff_decode

/-- The OPs of R84. -/
def assignedOpcodes : List Nat :=
  [0x01, 0x02, 0x03, 0x10, 0x11, 0x12, 0x13, 0x14, 0x15, 0x16, 0x17, 0x18, 0x20, 0x21, 0x22, 0x30, 0x31, 0x40, 0x41, 0x42]

theorem assigned_of_legalFields {op a b z : Nat} (h : legalFields op a b z = true) : op ∈ assignedOpcodes := by
  obtain ⟨-, h⟩ := legalFields_iff.1 h
  simp only [assignedOpcodes, List.mem_cons, List.not_mem_nil, or_false] at h ⊢
  omega

/-- The illegal fields of R87: an assigned OP leaves the conditions of its own form, any other is illegal as it stands. -/
theorem legalFields_eq_false_iff {op a b z : Nat} : legalFields op a b z = false ↔
    op ∉ assignedOpcodes ∨
    z ≠ 0 ∨
    (op ∈ [0x10, 0x11, 0x12, 0x13, 0x20, 0x21, 0x22, 0x14, 0x15] ∧ a ≠ 0) ∨
    (op ∈ [0x10, 0x11, 0x12, 0x13, 0x20, 0x21, 0x22, 0x02, 0x03, 0x16, 0x30, 0x31, 0x40, 0x41, 0x42] ∧ b ≠ 0) ∨
    (op ∈ [0x14, 0x15, 0x17, 0x18] ∧ 2 ≤ b) ∨
    (op ∈ [0x16, 0x17, 0x18] ∧ 11 ≤ a) ∨
    (op ∈ [0x30, 0x31] ∧ 4 ≤ a) := by
  rw [← Bool.not_eq_true]
  by_cases ho : op ∈ assignedOpcodes
  · rw [legalFields_iff]
    simp only [assignedOpcodes, List.mem_cons, List.not_mem_nil, or_false] at ho
    rcases ho with rfl | rfl | rfl | rfl | rfl | rfl | rfl | rfl | rfl | rfl | rfl | rfl | rfl | rfl | rfl | rfl | rfl | rfl |
      rfl | rfl <;> simp [assignedOpcodes] <;> omega
  · exact iff_of_true (fun h => ho (assigned_of_legalFields h)) (.inl ho)

/-! ## What a command word does (R80, R87) -/

theorem issue_illegal {w : Word} {s : State} (h : s.fault = false) (hw : legal w = false) :
    issue w s = .next (s.finish errIllegalCommand) := by
  cases hd : decode w with
  | error r => simp [issue, h, hd]
  | ok i => rw [legal_of_decode hd] at hw; cases hw

/-- Settles O5: a step hands the word to `issue`, whose three cases are these. -/
theorem commandWriteIsHandled : Obligations.CommandWriteIsHandled := by
  intro s w rest hp
  rw [step_command hp]
  refine ⟨fun hf => issue_faulted hf, fun hf hw => issue_illegal hf hw, fun hf hw => ?_⟩
  obtain ⟨i, hi⟩ := legal_iff_decode.1 hw
  exact ⟨i, hi, issue_decoded hf hi⟩

/-- Settles O4: `issue` of an illegal word, and the predicate of R85 denied on the fields as bytes. -/
theorem illegalWordOnlyWritesErrSix : Obligations.IllegalWordOnlyWritesErrSix := by
  refine ⟨fun s w rest hp hf hw => (step_command hp).trans (issue_illegal hf hw), by decide, fun w => ?_⟩
  simp only [BitVec.toNat_ne, ne_eq]
  exact legalFields_eq_false_iff

end Sys2Proof

/-! # Proofs of the family 40_gf_sbox.md: GF(2^8), the two tables, and the commands over them -/

namespace Sys2Proof.Machine

open Sys2Proof.Claims

/-! ## The commands: each writes its byte to RESULT (R105 to R107) -/

theorem exec_gfmul (a b : Byte) (s : State) : exec (.gfmul a b) s = .next (s.setResult (gmul a b)) := rfl

theorem exec_sbox (x : Byte) (s : State) : exec (.sbox x) s = .next (s.setResult (sbox x)) := rfl

theorem exec_isbox (y : Byte) (s : State) : exec (.isbox y) s = .next (s.setResult (invSbox y)) := rfl

/-! ## gmul by powers of x (R100): a factor x^i shifts the other factor i times -/

theorem gmulLoop_zero_right (n : Nat) (a p : Byte) : gmulLoop n a 0 p = p := by
  induction n generalizing a with
  | zero => rfl
  | succ n ih => exact ih (xtime a)

theorem basis_shift : ∀ i < 7, (1#8 <<< (i + 1)) >>> 1 = 1#8 <<< i ∧ (1#8 <<< (i + 1)).getLsbD 0 = false := by decide

/-- The loop meets the one set bit of x^i after i shifts of `a`, and adds nothing before or after. -/
theorem gmulLoop_basis {n i : Nat} (hi : i < 8) (hn : i < n) (a p : Byte) :
    gmulLoop n a (1#8 <<< i) p = p ^^^ xtime^[i] a := by
  induction i generalizing n a with
  | zero =>
    obtain ⟨m, rfl⟩ := Nat.exists_eq_succ_of_ne_zero (Nat.ne_zero_of_lt hn)
    exact gmulLoop_zero_right _ _ _
  | succ i ih =>
    obtain ⟨m, rfl⟩ := Nat.exists_eq_succ_of_ne_zero (Nat.ne_zero_of_lt hn)
    obtain ⟨hs, hb⟩ := basis_shift i (by omega)
    rw [gmulLoop, hs, hb, if_neg Bool.false_ne_true, ih (by omega) (by omega), Function.iterate_succ_apply]

theorem gmul_basis_right {i : Nat} (hi : i < 8) (a : Byte) : gmul a (1#8 <<< i) = xtime^[i] a :=
  (gmulLoop_basis hi hi a 0).trans BitVec.zero_xor

theorem gmulLoop_xtime (n : Nat) (a b p : Byte) : gmulLoop n (xtime a) b (xtime p) = xtime (gmulLoop n a b p) := by
  induction n generalizing a b p with
  | zero => rfl
  | succ n ih =>
    rw [gmulLoop, gmulLoop, ← ih, ← xtime_xor]
    split <;> rfl

theorem gmul_xtime_left (a b : Byte) : gmul (xtime a) b = xtime (gmul a b) := gmulLoop_xtime 8 a b 0

theorem gmul_iterate_xtime_left (i : Nat) (a b : Byte) : gmul (xtime^[i] a) b = xtime^[i] (gmul a b) :=
  (Function.Semiconj.iterate_right (f := fun a => gmul a b) (fun a => gmul_xtime_left a b) i).eq a

theorem iterate_xtime_one : ∀ i < 8, xtime^[i] 1#8 = 1#8 <<< i := by decide

/-! ## The field laws (R101) -/

/-- Both products are additive in b, and for b = x^i both are `a` shifted i times. -/
theorem gmul_comm (a b : Byte) : gmul a b = gmul b a := by
  refine additive_ext (f := gmul a) (g := fun b => gmul b a) (gmul_xor_right a) (fun x y => gmul_xor_left x y a) ?_ b
  intro i hi
  rw [gmul_basis_right hi, ← iterate_xtime_one i hi, gmul_iterate_xtime_left, gmul_one_left]

theorem gmul_iterate_xtime_right (i : Nat) (a b : Byte) : gmul a (xtime^[i] b) = xtime^[i] (gmul a b) := by
  rw [gmul_comm, gmul_iterate_xtime_left, gmul_comm]

/-- Both products are additive in c, and for c = x^i both are gmul(a, b) shifted i times. -/
theorem gmul_assoc (a b c : Byte) : gmul (gmul a b) c = gmul a (gmul b c) := by
  refine additive_ext (f := gmul (gmul a b)) (g := fun c => gmul a (gmul b c)) (gmul_xor_right _)
    (fun x y => by rw [gmul_xor_right, gmul_xor_right]) ?_ c
  intro i hi
  rw [gmul_basis_right hi, gmul_basis_right hi, gmul_iterate_xtime_right]

theorem gmul_zero_right (a : Byte) : gmul a 0 = 0 := gmulLoop_zero_right 8 a 0

theorem gmul_one_right (a : Byte) : gmul a 1 = a := gmul_basis_right (i := 0) (by decide) a

theorem xtime_eq_twice (a : Byte) : xtime a = twice a := by
  unfold xtime twice
  cases a.getLsbD 7 <;> simp

theorem gmul_two_right (a : Byte) : gmul a 2 = twice a :=
  (gmul_basis_right (i := 1) (by decide) a).trans (xtime_eq_twice a)

/-- Aff of R102 undone: bit i is the XOR of bits i + 2, i + 5 and i + 7 (mod 8) and of bit i of 0x05. -/
def undoAffine (t : Byte) : Byte := t.rotateLeft 1 ^^^ t.rotateLeft 3 ^^^ t.rotateLeft 6 ^^^ 0x05

theorem affineBit_undoAffine : ∀ t : Byte, ∀ i < 8, t.getLsbD i = affineBit (undoAffine t) i := by decide +kernel

/-- The inverse of a byte in the field, 0 for 0, read off the table: SBOX is Aff of the inverse (R102). -/
def gfInverse (x : Byte) : Byte := undoAffine (sbox x)

theorem gfInverse_zero : gfInverse 0 = 0 := by decide

theorem gmul_gfInverse : ∀ x : Byte, x ≠ 0 → gmul x (gfInverse x) = 1 := by decide +kernel

/-- Inverses are unique, as in every commutative monoid. -/
theorem gmul_eq_one_unique {a b c : Byte} (hb : gmul a b = 1) (hc : gmul a c = 1) : b = c :=
  calc b = gmul b (gmul a c) := by rw [hc, gmul_one_right]
    _ = gmul (gmul a b) c := by rw [← gmul_assoc, gmul_comm b a]
    _ = c := by rw [hb]; exact gmul_one_left c

/-- Settles O14: gmul is additive in each factor, so the laws follow from the powers of x; the inverse is read off the SBOX table. -/
theorem gmulFieldLaws : Obligations.GfmulFieldLaws :=
  ⟨gmul_comm, gmul_assoc, gmul_xor_right, fun a => ⟨gmul_zero_right a, gmul_one_right a⟩, gmul_two_right,
    fun a ha => ⟨gfInverse a, gmul_gfInverse a ha, fun _ hb => gmul_eq_one_unique hb (gmul_gfInverse a ha)⟩⟩

/-! ## gmul is the polynomial product modulo 0x11B -/

/-- A fold over steps that turn a XOR into a XOR is such a step itself. -/
theorem foldl_xor {w : Nat} {f g h : BitVec w → Nat → BitVec w} (hs : ∀ p q i, f (p ^^^ q) i = g p i ^^^ h q i)
    (l : List Nat) (p q : BitVec w) : l.foldl f (p ^^^ q) = l.foldl g p ^^^ l.foldl h q := by
  induction l generalizing p q with
  | nil => rfl
  | cons i l ih => rw [List.foldl_cons, List.foldl_cons, List.foldl_cons, hs, ih]

/-- A conditional XOR is additive in its condition and its accumulator. -/
theorem condXor_xor {w : Nat} (c d : Bool) (m p q : BitVec w) :
    (if (c ^^ d) = true then p ^^^ q ^^^ m else p ^^^ q) =
      (if c = true then p ^^^ m else p) ^^^ (if d = true then q ^^^ m else q) := by
  cases c <;> cases d
  · rfl
  · exact BitVec.xor_assoc p q m
  · show p ^^^ q ^^^ m = p ^^^ m ^^^ q
    ac_rfl
  · calc p ^^^ q = p ^^^ q ^^^ (m ^^^ m) := by simp
      _ = p ^^^ m ^^^ (q ^^^ m) := by ac_rfl

theorem carrylessProduct_xor_left (a a' b : Byte) :
    carrylessProduct (a ^^^ a') b = carrylessProduct a b ^^^ carrylessProduct a' b := by
  refine foldl_xor (fun p q i => ?_) (List.range 8) 0 0
  rw [BitVec.setWidth_xor, BitVec.shiftLeft_xor_distrib]
  split
  · ac_rfl
  · rfl

theorem carrylessProduct_xor_right (a b b' : Byte) :
    carrylessProduct a (b ^^^ b') = carrylessProduct a b ^^^ carrylessProduct a b' := by
  refine foldl_xor (fun p q i => ?_) (List.range 8) 0 0
  rw [BitVec.getLsbD_xor]
  exact condXor_xor ..

theorem reduceBy11B_xor (p q : BitVec 16) : reduceBy11B (p ^^^ q) = reduceBy11B p ^^^ reduceBy11B q := by
  refine foldl_xor (fun p q i => ?_) _ p q
  rw [BitVec.getLsbD_xor]
  exact condXor_xor ..

theorem polyProduct_xor_left (a a' b : Byte) : polyProduct (a ^^^ a') b = polyProduct a b ^^^ polyProduct a' b := by
  rw [polyProduct, carrylessProduct_xor_left, reduceBy11B_xor, BitVec.setWidth_xor]; rfl

theorem polyProduct_xor_right (a b b' : Byte) : polyProduct a (b ^^^ b') = polyProduct a b ^^^ polyProduct a b' := by
  rw [polyProduct, carrylessProduct_xor_right, reduceBy11B_xor, BitVec.setWidth_xor]; rfl

theorem gmul_basis_eq_polyProduct :
    ∀ j < 8, ∀ i < 8, gmul (1#8 <<< j) (1#8 <<< i) = polyProduct (1#8 <<< j) (1#8 <<< i) := by decide +kernel

/-- Both products are additive in each factor, so they agree as they agree on the powers of x. -/
theorem gmul_eq_polyProduct (a b : Byte) : gmul a b = polyProduct a b := by
  refine additive_ext (gmul_xor_right a) (polyProduct_xor_right a) (fun i hi => ?_) b
  refine additive_ext (f := fun a => gmul a (1#8 <<< i)) (g := fun a => polyProduct a (1#8 <<< i))
    (fun x y => gmul_xor_left x y _) (fun x y => polyProduct_xor_left x y _) (fun j hj => ?_) a
  exact gmul_basis_eq_polyProduct j hj i hi

/-- Settles O13: GFMUL writes gmul(a, b), which is the polynomial product. -/
theorem gfmulIsPolynomialProduct : Obligations.GfmulIsPolynomialProduct := by
  intro a b s
  rw [exec_gfmul, gmul_eq_polyProduct]
  rfl

/-! ## The tables (R102, R103) -/

theorem sbox_ne_self : ∀ x : Byte, sbox x ≠ x := by decide +kernel

/-- Settles O15: y is Aff undone on the table's byte, and an inverse of x (`gmul_gfInverse`). -/
theorem sboxIsAffineOfFieldInverse : Obligations.SboxIsAffineOfFieldInverse := by
  intro x s
  refine ⟨gfInverse x, sbox x, ?_, affineBit_undoAffine (sbox x), sbox_ne_self x, exec_sbox x s⟩
  split
  case isTrue h => rw [h, gfInverse_zero]
  case isFalse h => exact gmul_gfInverse x h

/-- Settles O16: the two tables are inverse permutations. -/
theorem isboxInvertsSbox : Obligations.IsboxInvertsSbox := by
  refine ⟨fun x s => ⟨sbox x, exec_sbox x s, ?_⟩, fun y s => ⟨invSbox y, exec_isbox y s, ?_⟩⟩
  · rw [exec_isbox, invSbox_sbox]; rfl
  · rw [exec_sbox, sbox_invSbox]; rfl

/-! ## Frames -/

/-- Settles O32: GFMUL, SBOX and ISBOX end in `setResult`; KEXP does one of the things of `exec_kexp_cases`. -/
theorem registerCommandFrame : Obligations.RegisterCommandFrame := by
  refine ⟨fun a b i s t hi h => ?_, fun s t h => ?_⟩
  · obtain ⟨v, hv⟩ : ∃ v, exec i s = .next (s.setResult v) := by
      simp only [List.mem_cons, List.not_mem_nil, or_false] at hi
      rcases hi with rfl | rfl | rfl
      · exact ⟨_, exec_gfmul a b s⟩
      · exact ⟨_, exec_sbox a s⟩
      · exact ⟨_, exec_isbox a s⟩
    rw [hv] at h
    cases h
    exact ⟨rfl, fun _ => rfl⟩
  · rcases exec_kexp_cases s with ⟨e, _⟩ | ⟨e, _⟩ | ⟨e, _⟩ | ⟨e, _⟩ <;> rw [e] at h <;> cases h
    · exact ⟨rfl, fun _ => ⟨rfl, rfl⟩, fun _ => rfl⟩
    · exact ⟨rfl, fun _ => ⟨rfl, rfl⟩, fun _ => rfl⟩
    · exact ⟨rfl, fun hne => absurd rfl hne, fun _ => rfl⟩

end Sys2Proof.Machine

/-! # Proofs of the family 41_block_transforms.md: the block commands as transforms of STATE, alone and in sequence -/

namespace Sys2Proof.Machine

open Sys2Proof.Claims

/-! ## The commands behind the key guard (R131) -/

theorem exec_ark_guard {j : Byte} {k : Fin 11} (hk : roundIndex j = some k) (s : State) :
    exec (.ark j) s = s.guardRk fun rk => s.updateState fun b => addRoundKey b rk k := by
  simp only [exec, execArk, hk]

theorem exec_round_guard {j : Byte} {k : Fin 11} (hk : roundIndex j = some k) (f : Bool) (s : State) :
    exec (.round j f) s = s.guardRk fun rk => s.updateState fun b => applyRound b rk k f := by
  simp only [exec, execRound, hk]

theorem exec_iround_guard {j : Byte} {k : Fin 11} (hk : roundIndex j = some k) (f : Bool) (s : State) :
    exec (.iround j f) s = s.guardRk fun rk => s.updateState fun b => applyInverseRound b rk k f := by
  simp only [exec, execIround, hk]

theorem roundIndex_of_ok {j : Byte} (h : roundIndexOk j = true) : ∃ k, roundIndex j = some k :=
  ⟨_, roundIndex_of_lt (Nat.lt_succ_of_le (of_decide_eq_true h))⟩

theorem roundIndex_ofNat : ∀ k : Fin 11, roundIndex (BitVec.ofNat 8 k.val) = some k := by decide

/-- A guarded command updates STATE behind the guard. -/
theorem exec_guarded {i : Instr} (hi : guarded i = true) :
    ∃ f : RoundKeys → Block → Block, ∀ s : State, exec i s = s.guardRk fun rk => s.updateState (f rk) := by
  cases i with
  | ark j => obtain ⟨k, hk⟩ := roundIndex_of_ok hi; exact ⟨_, exec_ark_guard hk⟩
  | round j f => obtain ⟨k, hk⟩ := roundIndex_of_ok hi; exact ⟨_, exec_round_guard hk f⟩
  | iround j f => obtain ⟨k, hk⟩ := roundIndex_of_ok hi; exact ⟨_, exec_iround_guard hk f⟩
  | encb => exact ⟨fun rk b => cipher b rk, fun _ => rfl⟩
  | decb => exact ⟨fun rk b => invCipher b rk, fun _ => rfl⟩
  | _ => cases hi

theorem exec_guarded_invalid {i : Instr} {s : State} (hi : guarded i = true) (hv : s.rkValid = false) :
    exec i s = .next (s.finish errKeyNotExpanded) := by
  obtain ⟨f, hf⟩ := exec_guarded hi
  rw [hf, State.guardRk_invalid _ hv]

/-- An update of STATE reads neither RK nor RK_VALID. -/
theorem State.updateState_setRk (s : State) (v : Bool) (rk : RoundKeys) (f : Block → Block) :
    ({ s with rkValid := v, rk := rk } : State).updateState f =
      onNext (fun t => { t with rkValid := v, rk := rk }) (s.updateState f) := by
  cases hr : s.stateReady
  · rw [State.updateState_unready f hr]
    exact State.updateState_unready (s := { s with rkValid := v, rk := rk }) f hr
  · rw [State.updateState_ok f hr]
    exact State.updateState_ok (s := { s with rkValid := v, rk := rk }) f hr

/-- Settles O25: with RK_VALID = 0 the guard ends the command; one without a guard updates STATE or, bypassed, writes a code. -/
theorem keyGuard : Obligations.KeyGuard := by
  refine ⟨fun i s hi hv => exec_guarded_invalid hi hv, fun i s v rk hi => ?_⟩
  simp only [unguarded, List.mem_cons, List.not_mem_nil, or_false] at hi
  rcases hi with rfl | rfl | rfl | rfl | rfl | rfl | rfl | rfl
  · exact s.updateState_setRk v rk subBytes
  · exact s.updateState_setRk v rk invSubBytes
  · exact s.updateState_setRk v rk shiftRows
  · exact s.updateState_setRk v rk invShiftRows
  · exact s.updateState_setRk v rk (mixColumns · false)
  · rfl
  · exact s.updateState_setRk v rk (invMixColumns · false)
  · rfl

/-- Settles O27: a block command writes a code or updates STATE. -/
theorem blockCommandFrame : Obligations.BlockCommandFrame := by
  intro i s t hi h
  rcases exec_block_cases hi s with ⟨c, e⟩ | ⟨f, e⟩ <;> rw [e] at h
  · cases h
    exact ⟨rfl, fun _ => rfl, fun _ => rfl⟩
  · obtain ⟨_, rfl⟩ := State.updateState_next h
    exact ⟨rfl, fun hne => absurd rfl hne, fun _ => rfl⟩

/-- Settles O20: the bypass flag is tested before STATE is read. -/
theorem bypassedMixColumnsChangesNothing : Obligations.BypassedMixColumnsChangesNothing := fun _ => ⟨rfl, rfl⟩

/-! ## A command as a transform of STATE -/

/-- From `s`, with any STATE and ERR in it, command `i` completes with `f` applied to STATE. -/
def AppliesIn (s : State) (i : Instr) (f : Block → Block) : Prop :=
  ∀ b e, exec i { s with state := b, err := e } = .next { s with state := f b, err := errOk }

theorem AppliesIn.exec_eq {s : State} {i : Instr} {f : Block → Block} (h : AppliesIn s i f) :
    exec i s = .next { s with state := f s.state, err := errOk } := h s.state s.err

/-- A command that takes `b` back to the STATE of `s`. -/
theorem AppliesIn.exec_restores {s : State} {i : Instr} {f : Block → Block} (h : AppliesIn s i f) {b : Block}
    (hb : f b = s.state) : exec i { s with state := b } = .next { s with err := errOk } := by
  have hx := h b s.err
  rwa [hb] at hx

section Written

variable {s : State} (hs : s.stateReady = true)
include hs

theorem appliesIn_of_updateState {i : Instr} {f : Block → Block}
    (h : ∀ u : State, u.stateReady = true → exec i u = u.updateState f) : AppliesIn s i f := fun b e =>
  (h { s with state := b, err := e } hs).trans (State.updateState_ok f hs)

theorem appliesIn_subb : AppliesIn s .subb subBytes := appliesIn_of_updateState hs fun _ _ => rfl
theorem appliesIn_isubb : AppliesIn s .isubb invSubBytes := appliesIn_of_updateState hs fun _ _ => rfl
theorem appliesIn_shr : AppliesIn s .shr shiftRows := appliesIn_of_updateState hs fun _ _ => rfl
theorem appliesIn_ishr : AppliesIn s .ishr invShiftRows := appliesIn_of_updateState hs fun _ _ => rfl
theorem appliesIn_mixc (f : Bool) : AppliesIn s (.mixc f) (mixColumns · f) :=
  appliesIn_of_updateState hs fun _ => exec_mixc f
theorem appliesIn_imixc (f : Bool) : AppliesIn s (.imixc f) (invMixColumns · f) :=
  appliesIn_of_updateState hs fun _ => exec_imixc f

variable (hv : s.rkValid = true)
include hv

theorem appliesIn_of_guard {i : Instr} {f : RoundKeys → Block → Block}
    (h : ∀ u : State, exec i u = u.guardRk fun rk => u.updateState (f rk)) : AppliesIn s i (f s.rk) := by
  intro b e
  rw [h, State.guardRk_valid _ (by exact hv)]
  exact State.updateState_ok (f s.rk) hs

theorem appliesIn_ark {j : Byte} {k : Fin 11} (hk : roundIndex j = some k) : AppliesIn s (.ark j) (addRoundKey · s.rk k) :=
  appliesIn_of_guard hs hv (f := fun rk b => addRoundKey b rk k) (exec_ark_guard hk)

theorem appliesIn_round {j : Byte} {k : Fin 11} (hk : roundIndex j = some k) (f : Bool) :
    AppliesIn s (.round j f) (applyRound · s.rk k f) :=
  appliesIn_of_guard hs hv (f := fun rk b => applyRound b rk k f) (exec_round_guard hk f)

theorem appliesIn_iround {j : Byte} {k : Fin 11} (hk : roundIndex j = some k) (f : Bool) :
    AppliesIn s (.iround j f) (applyInverseRound · s.rk k f) :=
  appliesIn_of_guard hs hv (f := fun rk b => applyInverseRound b rk k f) (exec_iround_guard hk f)

theorem appliesIn_encb : AppliesIn s .encb (cipher · s.rk) :=
  appliesIn_of_guard hs hv (f := fun rk b => cipher b rk) fun _ => rfl

theorem appliesIn_decb : AppliesIn s .decb (invCipher · s.rk) :=
  appliesIn_of_guard hs hv (f := fun rk b => invCipher b rk) fun _ => rfl

end Written

/-- Settles O23: behind the guard each command applies its transform, and that of ARK is the XOR with round key j. -/
theorem roundKeyCommandsComplete : Obligations.RoundKeyCommandsComplete := by
  intro s j f hs hv
  have hj := roundIndex_ofNat j
  exact ⟨⟨_, (appliesIn_ark hs hv hj).exec_eq, fun k => getElem_xorBlock _ _ k.val k.isLt⟩,
    ⟨_, (appliesIn_round hs hv hj f).exec_eq⟩, ⟨_, (appliesIn_iround hs hv hj f).exec_eq⟩,
    ⟨_, (appliesIn_encb hs hv).exec_eq⟩, ⟨_, (appliesIn_decb hs hv).exec_eq⟩⟩

/-- Settles O17: each lane of both transforms is a table entry, which SBOX and ISBOX give. -/
theorem substitutionActsOnLanes : Obligations.SubstitutionActsOnLanes := by
  refine fun s hs => ⟨⟨_, (appliesIn_subb hs).exec_eq, fun k => ?_⟩, ⟨_, (appliesIn_isubb hs).exec_eq, fun k => ?_⟩⟩
  · rw [exec_sbox, getElem_subBytes]; rfl
  · rw [exec_isbox, getElem_invSubBytes]; rfl

/-! ## The shifts as permutations of lanes (R123, R124, R143) -/

/-- The lane that ShiftRows moves to lane k: of row k mod 4, and k mod 4 columns to the right. -/
def shiftLane : Equiv.Perm (Fin 16) where
  toFun k := ⟨k.val % 4 + 4 * ((k.val / 4 + k.val % 4) % 4), by omega⟩
  invFun k := ⟨k.val % 4 + 4 * ((k.val / 4 + 4 - k.val % 4) % 4), by omega⟩
  left_inv := by decide
  right_inv := by decide

theorem val_sub_fin4 (c r : Fin 4) : (c - r).val = (c.val + 4 - r.val) % 4 := by revert c r; decide

theorem getElem_shiftRows (s : Block) (k : Fin 16) : (shiftRows s)[k.val] = s[(shiftLane k).val] :=
  getElem_ofElems _ k.val k.isLt

theorem getElem_invShiftRows (s : Block) (k : Fin 16) : (invShiftRows s)[k.val] = s[(shiftLane.symm k).val] := by
  refine (getElem_ofElems _ k.val k.isLt).trans ?_
  simp only [elem, val_sub_fin4]
  rfl

/-- Four rotations by r places are one by 4r, which is none. -/
theorem shiftRows_four (s : Block) : shiftRows (shiftRows (shiftRows (shiftRows s))) = s := by
  apply block_ext_elem
  intro r c
  have rotation : c + r + r + r + r = c := by revert r c; decide
  simp only [elem_shiftRows, rotation]

/-- Settles O18: both transforms by their elements; each flat permutation lists the lanes that `shiftLane` or its inverse gives. -/
theorem shiftRowsPermutesBytes : Obligations.ShiftRowsPermutesBytes := by
  intro s hs
  have rows : ∀ r c : Fin 4, (shiftRows s.state)[r.val + 4 * c.val] = s.state[r.val + 4 * ((c.val + r.val) % 4)] :=
    elem_shiftRows s.state
  refine ⟨_, _, (appliesIn_shr hs).exec_eq, (appliesIn_ishr hs).exec_eq, fun r c => ⟨rows r c, ?_⟩, fun c => ?_, ?_, ?_, ?_⟩
  · simpa only [elem, val_sub_fin4] using elem_invShiftRows s.state r c
  · simpa [Nat.mod_eq_of_lt c.isLt] using rows 0 c
  · apply Vector.ext
    intro i hi
    rw [getElem_shiftRows s.state ⟨i, hi⟩]
    interval_cases i <;> simp [shiftLane]
  · apply Vector.ext
    intro i hi
    rw [getElem_invShiftRows s.state ⟨i, hi⟩]
    interval_cases i <;> simp [shiftLane]
  · exact (appliesIn_ishr hs).exec_restores (invShiftRows_shiftRows s.state)

/-! ## The columns of MixColumns (R125, R126, R143) -/

theorem getElem_column (s : Block) (r c : Fin 4) : s[4 * c.val + r.val] = elem s r c := by
  simp only [elem, Nat.add_comm]

/-- The matrix product of a column, by the bytes of STATE. -/
theorem getElem_mulColumns (m : Matrix4) (s : Block) (r c : Fin 4) :
    (mulColumns m s)[4 * c.val + r.val] =
      gmul (m r 0) s[4 * c.val] ^^^ gmul (m r 1) s[4 * c.val + 1] ^^^ gmul (m r 2) s[4 * c.val + 2] ^^^
        gmul (m r 3) s[4 * c.val + 3] := by
  rw [getElem_column, elem_mulColumns]
  simp only [← getElem_column]
  rfl

/-- The rows of R125 as the rule prints them. -/
theorem mixMatrix_eq (r k : Fin 4) :
    mixMatrix r k = #v[#v[2, 3, 1, 1], #v[1, 2, 3, 1], #v[1, 1, 2, 3], #v[3, 1, 1, 2]][r][k] := by revert r k; decide

/-- Settles O19: the factors of each row are 1, 2 and 3, and 2 is the doubling step; MIXC undoes IMIXC. -/
theorem mixColumnsByDoubling : Obligations.MixColumnsByDoubling := by
  refine fun s hs => ⟨⟨_, (appliesIn_mixc hs false).exec_eq, fun c => ?_⟩, ⟨_, (appliesIn_imixc hs false).exec_eq, ?_⟩⟩
  · have product := fun r => getElem_mulColumns mixMatrix s.state r c
    refine ⟨(product 0).trans ?_, (product 1).trans ?_, (product 2).trans ?_, (product 3).trans ?_⟩ <;>
      simp [mixMatrix_eq, gmul_two_left, gmul_three_left, xtime_eq_twice]
  · exact (appliesIn_mixc hs false).exec_restores (mixColumns_invMixColumns s.state false)

/-- A column of the product depends on that column alone (R143). -/
theorem elem_mulColumns_congr (m : Matrix4) {s b : Block} {c : Fin 4} (h : ∀ r, elem b r c = elem s r c) (r : Fin 4) :
    elem (mulColumns m b) r c = elem (mulColumns m s) r c := by simp only [elem_mulColumns, h]

theorem elem_mixColumns_congr {s b : Block} {c : Fin 4} (h : ∀ r, elem b r c = elem s r c) (f : Bool) (r : Fin 4) :
    elem (mixColumns b f) r c = elem (mixColumns s f) r c := by
  cases f
  · exact elem_mulColumns_congr mixMatrix h r
  · exact h r

theorem elem_invMixColumns_congr {s b : Block} {c : Fin 4} (h : ∀ r, elem b r c = elem s r c) (f : Bool) (r : Fin 4) :
    elem (invMixColumns b f) r c = elem (invMixColumns s f) r c := by
  cases f
  · exact elem_mulColumns_congr invMixMatrix h r
  · exact h r

/-! ## What each command leaves in STATE (R143) -/

/-- MIXC that completes leaves MixColumns of STATE in STATE, bypassed or not. -/
theorem state_of_exec_mixc {s t : State} {f : Bool} (h : exec (.mixc f) s = .next t) : t.state = mixColumns s.state f := by
  cases f with
  | false => exact congrArg State.state (State.updateState_next (f := (mixColumns · false)) h).2
  | true => cases h; rfl

theorem state_of_exec_imixc {s t : State} {f : Bool} (h : exec (.imixc f) s = .next t) :
    t.state = invMixColumns s.state f := by
  cases f with
  | false => exact congrArg State.state (State.updateState_next (f := (invMixColumns · false)) h).2
  | true => cases h; rfl

/-- SUBB, ISUBB and ARK that complete leave in each lane a function of RK_VALID, of that lane of the round keys and of that lane. -/
theorem exec_acts_on_lanes {i : Instr} {j : Byte} (hi : i ∈ [.subb, .isubb, .ark j]) :
    ∃ g : Bool → (Fin 11 → Byte) → Byte → Byte, ∀ (s t : State), exec i s = .next t →
      ∀ k : Fin 16, t.state[k.val] = g s.rkValid (fun n => s.rk[n.val][k.val]) s.state[k.val] := by
  simp only [List.mem_cons, List.not_mem_nil, or_false] at hi
  rcases hi with rfl | rfl | rfl
  · refine ⟨fun _ _ x => sbox x, fun s t h k => ?_⟩
    rw [(State.updateState_next h).2]
    exact getElem_subBytes s.state k.val k.isLt
  · refine ⟨fun _ _ x => invSbox x, fun s t h k => ?_⟩
    rw [(State.updateState_next h).2]
    exact getElem_invSubBytes s.state k.val k.isLt
  · cases hj : roundIndex j with
    | none =>
      refine ⟨fun _ _ x => x, fun s t h k => ?_⟩
      simp only [exec, execArk, hj] at h
      cases h; rfl
    | some n =>
      refine ⟨fun v key x => if v then x ^^^ key n else x, fun s t h k => ?_⟩
      rw [exec_ark_guard hj] at h
      cases hv : s.rkValid
      · rw [State.guardRk_invalid _ hv] at h
        cases h; rfl
      · rw [State.guardRk_valid _ hv] at h
        rw [(State.updateState_next h).2]
        exact getElem_xorBlock s.state s.rk[n.val] k.val k.isLt

/-- Settles O26: by the function of a lane, the permutation of the lanes, and the function of a column that each command leaves. -/
theorem transformsActOnLanes : Obligations.TransformsActOnLanes := by
  refine ⟨fun s b rk j k i t u hi hb hrk ht hu => ?_, fun i hi => ?_, fun s b c f i t u hi hb ht hu r => ?_⟩
  · obtain ⟨g, hg⟩ := exec_acts_on_lanes hi
    rw [hg _ _ ht, hg _ _ hu]
    simp only [hb, hrk]
  · rcases hi with rfl | rfl
    · exact ⟨shiftLane, fun s t h k => by rw [(State.updateState_next h).2]; exact getElem_shiftRows s.state k⟩
    · exact ⟨shiftLane.symm, fun s t h k => by rw [(State.updateState_next h).2]; exact getElem_invShiftRows s.state k⟩
  · simp only [getElem_column] at hb ⊢
    rcases hi with rfl | rfl
    · rw [state_of_exec_mixc ht, state_of_exec_mixc hu]
      exact elem_mixColumns_congr hb f r
    · rw [state_of_exec_imixc ht, state_of_exec_imixc hu]
      exact elem_invMixColumns_congr hb f r

/-! ## Sequences of commands -/

/-- Transforms of a block, one after the other. -/
def transformAll (fs : List (Block → Block)) (b : Block) : Block := fs.foldl (fun x f => f x) b

theorem execAll_cons {i : Instr} {s t : State} (h : exec i s = .next t) (is : List Instr) :
    execAll (i :: is) s = execAll is t := by
  simp only [execAll, h]

theorem execAll_append {is : List Instr} {s t : State} (h : execAll is s = .next t) (js : List Instr) :
    execAll (is ++ js) s = execAll js t := by
  induction is generalizing s with
  | nil => cases h; rfl
  | cons i is ih =>
    simp only [execAll, List.cons_append] at h ⊢
    cases hi : exec i s with
    | next u => rw [hi] at h; exact ih h
    | fault r => rw [hi] at h; cases h
    | refused r => rw [hi] at h; cases h

theorem execAll_transforms {s : State} {is : List Instr} {fs : List (Block → Block)} (h : List.Forall₂ (AppliesIn s) is fs)
    (b : Block) : execAll is { s with state := b, err := errOk } = .next { s with state := transformAll fs b, err := errOk } := by
  induction h generalizing b with
  | nil => rfl
  | cons hi _ ih => exact (execAll_cons (hi b errOk) _).trans (ih _)

/-- Commands over a list of indices apply the transforms over that list. -/
theorem forall₂_appliesIn_map {α : Type} {s : State} {c : α → Instr} {f : α → Block → Block} (h : ∀ a, AppliesIn s (c a) (f a))
    (l : List α) : List.Forall₂ (AppliesIn s) (l.map c) (l.map f) :=
  List.forall₂_map_left_iff.2 (List.forall₂_map_right_iff.2 (List.forall₂_same.2 fun a _ => h a))

section Sequence

variable {s : State} {i : Instr} {is : List Instr} {fs : List (Block → Block)}

/-- A nonempty sequence of commands that complete applies their transforms in turn, whatever ERR was. -/
theorem execAll_appliesIn (h : List.Forall₂ (AppliesIn s) (i :: is) fs) :
    execAll (i :: is) s = .next { s with state := transformAll fs s.state, err := errOk } := by
  cases h with
  | cons hi his => exact (execAll_cons hi.exec_eq is).trans (execAll_transforms his _)

theorem execAll_restores (h : List.Forall₂ (AppliesIn s) (i :: is) fs) (hb : transformAll fs s.state = s.state) :
    execAll (i :: is) s = .next { s with err := errOk } := by
  rw [execAll_appliesIn h, hb]

/-- A transform and its inverse. -/
theorem execAll_pair_restores {j : Instr} {f g : Block → Block} (hi : AppliesIn s i f) (hj : AppliesIn s j g)
    (hb : g (f s.state) = s.state) : execAll [i, j] s = .next { s with err := errOk } :=
  execAll_restores (.cons hi (.cons hj .nil)) hb

/-- A command whose transform is that of a sequence. -/
theorem exec_eq_execAll {j : Instr} {f : Block → Block} (hj : AppliesIn s j f) (h : List.Forall₂ (AppliesIn s) (i :: is) fs)
    (hf : f s.state = transformAll fs s.state) : exec j s = execAll (i :: is) s := by
  rw [execAll_appliesIn h, hj.exec_eq, hf]

/-- With RK_VALID = 0 a sequence of guarded commands writes error 8, as each of them does. -/
theorem execAll_guarded_invalid (hi : ∀ j ∈ i :: is, guarded j = true) (hv : s.rkValid = false) :
    execAll (i :: is) s = .next (s.finish errKeyNotExpanded) := by
  induction is generalizing i s with
  | nil => exact execAll_cons (exec_guarded_invalid (hi i (by simp)) hv) []
  | cons j js ih =>
    rw [execAll_cons (exec_guarded_invalid (hi i (by simp)) hv)]
    exact ih (fun k hk => hi k (List.mem_cons_of_mem i hk)) hv

/-- With RK_VALID = 0 a guarded command after a sequence that completes adds error 8 to what the sequence leaves. -/
theorem execAll_append_guarded {j : Instr} (h : List.Forall₂ (AppliesIn s) (i :: is) fs) (hj : guarded j = true)
    (hv : s.rkValid = false) :
    execAll (i :: is ++ [j]) s = onNext (fun t => { t with err := errKeyNotExpanded }) (execAll (i :: is) s) := by
  rw [execAll_append (execAll_appliesIn h), execAll_appliesIn h]
  exact execAll_cons (exec_guarded_invalid hj (by exact hv)) []

end Sequence

/-- Settles O21: each pair is a transform and its inverse, and four rotations of a row are none. -/
theorem inverseTransformsRestoreState : Obligations.InverseTransformsRestoreState := by
  intro s f hs
  have hshr := appliesIn_shr hs
  exact ⟨execAll_pair_restores (appliesIn_subb hs) (appliesIn_isubb hs) (invSubBytes_subBytes _),
    execAll_pair_restores (appliesIn_isubb hs) (appliesIn_subb hs) (subBytes_invSubBytes _),
    execAll_pair_restores hshr (appliesIn_ishr hs) (invShiftRows_shiftRows _),
    execAll_pair_restores (appliesIn_ishr hs) hshr (shiftRows_invShiftRows _),
    execAll_pair_restores (appliesIn_mixc hs f) (appliesIn_imixc hs f) (invMixColumns_mixColumns _ f),
    execAll_pair_restores (appliesIn_imixc hs f) (appliesIn_mixc hs f) (mixColumns_invMixColumns _ f),
    execAll_restores (.cons hshr (.cons hshr (.cons hshr (.cons hshr .nil)))) (shiftRows_four _)⟩

/-! ## The pipelines (R130, R144) -/

/-- Steps undone one by one, the last first. -/
theorem foldl_reverse_foldl {α β : Type} {f g : β → α → β} (h : ∀ b a, g (f b a) a = b) (l : List α) (b : β) :
    l.reverse.foldl g (l.foldl f b) = b := by
  induction l generalizing b with
  | nil => rfl
  | cons a l ih => simp only [List.reverse_cons, List.foldl_append, List.foldl_cons, List.foldl_nil, ih, h]

theorem invCipher_cipher (b : Block) (rk : RoundKeys) : invCipher (cipher b rk) rk = b :=
  (congrArg (addRoundKey · rk 0) (foldl_reverse_foldl (fun b j => applyInverseRound_applyRound b rk j (j == 10)) _ _)).trans
    (addRoundKey_addRoundKey b rk 0)

theorem cipher_invCipher (b : Block) (rk : RoundKeys) : cipher (invCipher b rk) rk = b := by
  unfold cipher invCipher
  rw [addRoundKey_addRoundKey]
  exact foldl_reverse_foldl (fun b j => applyRound_applyInverseRound b rk j (j == 10)) _ b

/-- Settles O22: each pair is a transform and its inverse under one round key file, and ARK is a XOR. -/
theorem decryptionUndoesEncryption : Obligations.DecryptionUndoesEncryption := by
  intro s j f hs hv hj
  have hk := roundIndex_of_lt (Nat.lt_succ_of_le hj)
  have henc := appliesIn_encb hs hv
  have hdec := appliesIn_decb hs hv
  have hround := appliesIn_round hs hv hk f
  have hiround := appliesIn_iround hs hv hk f
  have hark := appliesIn_ark hs hv hk
  exact ⟨execAll_pair_restores henc hdec (invCipher_cipher _ _),
    execAll_pair_restores hdec henc (cipher_invCipher _ _),
    execAll_pair_restores hround hiround (applyInverseRound_applyRound _ _ _ _),
    execAll_pair_restores hiround hround (applyRound_applyInverseRound _ _ _ _),
    execAll_pair_restores hark hark (addRoundKey_addRoundKey _ _ _)⟩

/-- R144 for ENCB. -/
theorem exec_encb_eq_execAll {s : State} (hs : s.stateReady = true) :
    exec .encb s = execAll (.ark 0 :: ([1, 2, 3, 4, 5, 6, 7, 8, 9, 10] : List (Fin 11)).map
      fun j => .round (BitVec.ofNat 8 j.val) (j == 10)) s := by
  cases hv : s.rkValid with
  | false => rw [exec_guarded_invalid rfl hv, execAll_guarded_invalid (by decide) hv]
  | true =>
    have rounds := forall₂_appliesIn_map fun j : Fin 11 => appliesIn_round hs hv (roundIndex_ofNat j) (j == 10)
    refine exec_eq_execAll (appliesIn_encb hs hv) (.cons (appliesIn_ark hs hv (roundIndex_ofNat 0)) (rounds _)) ?_
    rw [transformAll, List.foldl_cons, List.foldl_map]
    rfl

/-- R144 for DECB. -/
theorem exec_decb_eq_execAll {s : State} (hs : s.stateReady = true) :
    exec .decb s = execAll ((([10, 9, 8, 7, 6, 5, 4, 3, 2, 1] : List (Fin 11)).map
      fun j => .iround (BitVec.ofNat 8 j.val) (j == 10)) ++ [.ark 0]) s := by
  cases hv : s.rkValid with
  | false => exact (exec_guarded_invalid rfl hv).trans (execAll_guarded_invalid (by decide) hv).symm
  | true =>
    have rounds := forall₂_appliesIn_map fun j : Fin 11 => appliesIn_iround hs hv (roundIndex_ofNat j) (j == 10)
    have steps := List.rel_append (rounds [10, 9, 8, 7, 6, 5, 4, 3, 2, 1])
      (.cons (appliesIn_ark hs hv (roundIndex_ofNat 0)) .nil)
    refine exec_eq_execAll (appliesIn_decb hs hv) steps ?_
    rw [transformAll, List.foldl_append, List.foldl_map]
    rfl

/-- Settles O24: the pipelines by the two lemmas above; a round is its transforms in turn, and without RK_VALID only ARK fails. -/
theorem blockCommandsEqualTheirSequences : Obligations.BlockCommandsEqualTheirSequences := by
  intro s hs
  have hsubb := appliesIn_subb hs
  have hshr := appliesIn_shr hs
  have hmixc := appliesIn_mixc hs false
  refine ⟨exec_encb_eq_execAll hs, exec_decb_eq_execAll hs, fun hv j hj => ?_, fun hv => ?_⟩
  · have hk := roundIndex_of_lt (Nat.lt_succ_of_le hj)
    have hark := appliesIn_ark hs hv hk
    exact ⟨exec_eq_execAll (appliesIn_round hs hv hk false) (.cons hsubb (.cons hshr (.cons hmixc (.cons hark .nil)))) rfl,
      exec_eq_execAll (appliesIn_round hs hv hk true) (.cons hsubb (.cons hshr (.cons hark .nil))) rfl⟩
  · refine ⟨exec_guarded_invalid rfl hv, exec_guarded_invalid rfl hv, fun j hj => ?_⟩
    have index : roundIndexOk j = true := decide_eq_true hj
    exact ⟨exec_guarded_invalid index hv, exec_guarded_invalid index hv,
      execAll_append_guarded (.cons hsubb (.cons hshr (.cons hmixc .nil))) index hv,
      execAll_append_guarded (.cons hsubb (.cons hshr .nil)) index hv⟩

end Sys2Proof.Machine

/-! # Proofs of the family 42_key_schedule.md: the bytes of the expanded key, and KEXP -/

namespace Sys2Proof.Machine

open Sys2Proof.Claims

/-! ## The bytes of a word -/

@[simp] theorem getElem_xorWord (a b : KeyWord) (i : Nat) (h : i < 4) : (xorWord a b)[i] = a[i] ^^^ b[i] := by simp [xorWord]

@[simp] theorem getElem_keyWord (k : Block) (i : Fin 4) (b : Nat) (h : b < 4) : (keyWord k i)[b] = k[4 * i.val + b] := by
  simp [keyWord]

/-- The rotation takes byte b + 1 of four, and RCON goes into the first byte only. -/
theorem getElem_scheduleCore (t : KeyWord) (i b : Nat) (h : b < 4) :
    (scheduleCore t i)[b] = sbox (t[(b + 1) % 4]'(Nat.mod_lt _ (by decide))) ^^^ (if b = 0 then rcon (i / 4) else 0) := by
  interval_cases b <;> simp [scheduleCore]

/-! ## The bytes of the expanded key (R162) -/

theorem rkByte_eq_getElem (rk : RoundKeys) {i b : Nat} (hi : i < 44) (hb : b < 4) :
    rkByte rk i b = rk[i / 4][4 * (i % 4) + b] := by
  have hj : i / 4 < 11 := by omega
  have hk : 4 * (i % 4) + b < 16 := by omega
  simp [rkByte, List.getD_eq_getElem?_getD, hj, hk]

/-- The round keys hold the words in order. -/
theorem rkByte_keyExpansion (k : Block) {i b : Nat} (hi : i < 44) (hb : b < 4) :
    rkByte (keyExpansion k) i b = (wordAt (expandedWords k) i)[b] := by
  rw [rkByte_eq_getElem _ hi hb, getElem_keyExpansion _ _ _ (by omega) (by omega)]
  have word : 4 * (i / 4) + (4 * (i % 4) + b) / 4 = i := by omega
  have byte : (4 * (i % 4) + b) % 4 = b := by omega
  simp only [word, byte]

/-- Round key 0 is the key. -/
theorem getElem_keyExpansion_zero (k : Block) (i : Fin 16) : (keyExpansion k)[0][i.val] = k[i.val] := by
  have word : wordAt (expandedWords k) (4 * 0 + i.val / 4) = keyWord k ⟨i.val / 4, by omega⟩ := by
    rw [Nat.mul_zero, Nat.zero_add]
    exact wordAt_expandedWords_key k ⟨i.val / 4, by omega⟩
  have index : 4 * (i.val / 4) + i.val % 4 = i.val := by omega
  rw [getElem_keyExpansion k 0 i.val (by omega) i.isLt, word, getElem_keyWord _ _ _ (by omega)]
  simp only [index]

/-- The recurrence of the words, byte by byte. -/
theorem rkByte_keyExpansion_recurrence (k : Block) {i b : Nat} (h4 : 4 ≤ i) (hi : i < 44) (hb : b < 4) :
    rkByte (keyExpansion k) i b = rkByte (keyExpansion k) (i - 4) b ^^^
      (if i % 4 = 0 then
        sbox (rkByte (keyExpansion k) (i - 1) ((b + 1) % 4)) ^^^ (if b = 0 then rcon (i / 4) else 0)
       else rkByte (keyExpansion k) (i - 1) b) := by
  have hprev : i - 1 < 44 := by omega
  rw [rkByte_keyExpansion k hi hb, rkByte_keyExpansion k (i := i - 4) (by omega) hb, rkByte_keyExpansion k hprev hb,
    rkByte_keyExpansion k hprev (Nat.mod_lt _ (by decide)), wordAt_expandedWords k h4 hi, getElem_xorWord]
  split
  · rw [getElem_scheduleCore]
  · rfl

/-! ## The round constants (R104) and the command (R164) -/

theorem rcon_eq_gmul_two : ∀ i ≤ 10, 2 ≤ i → rcon i = gmul (rcon (i - 1)) 2 := by decide +kernel

theorem exec_kexp_ok {s : State} (h16 : s.keyLen = 16) (hk : s.keyReady = true) :
    exec .kexp s = .next ((s.setRoundKeys (keyExpansion s.key128)).finish errOk) := by
  simp only [exec, execKexp, keyStep_ok h16 hk]

/-- Settles O29: KEXP writes the expansion of KEY[0..15], whose bytes follow the recurrence of its words. -/
theorem kexpExpandsTheKey : Obligations.KexpExpandsTheKey := by
  refine ⟨⟨rfl, fun i h2 h10 => rcon_eq_gmul_two i h10 h2⟩, fun s h16 hk => ?_⟩
  refine ⟨keyExpansion s.key128, exec_kexp_ok h16 hk, fun k => ?_, fun i b => rkByte_keyExpansion_recurrence s.key128⟩
  rw [getElem_keyExpansion_zero]
  simp [State.key128]

end Sys2Proof.Machine

/-! # Proofs of the family 43_padding.md: Pad, Validate and Unpad, and the commands PAD, UNPAD and VALID over them -/

namespace Sys2Proof.Machine

open Sys2Proof.Claims

/-! ## The functions (R180 to R183) -/

theorem pad_aligned {b : List Byte} {n : Nat} (h : b.length % n = 0) : pad b n = b := by simp [pad, h]

theorem pad_unaligned {b : List Byte} {n : Nat} (h : b.length % n ≠ 0) :
    pad b n = b ++ List.replicate (n - b.length % n) (BitVec.ofNat 8 (n - b.length % n)) := by simp [pad, h]

/-- The padded length of an unaligned buffer is above its length, by less than n (R183). -/
theorem padLength_unaligned {l n : Nat} (hn : 0 < n) (h : l % n ≠ 0) : l < padLength l n ∧ padLength l n < l + n := by
  have := Nat.mod_lt l hn
  rw [padLength, if_neg h]
  omega

/-- Unpad by the three parts of its definition: the input validates, and loses as many bytes as its last byte says (R182). -/
theorem unpad_eq_some_iff {b out : List Byte} {n : Nat} :
    unpad b n = some out ↔ validate b n = true ∧ b.take (b.length - (b.getLastD 0).toNat) = out := by
  simp [unpad]

/-- Unpad takes off a padding of v bytes of value v. -/
theorem unpad_append_padding {p : List Byte} {v n : Nat} (h1 : 1 ≤ v) (hn : v ≤ n) (h256 : v < 256) :
    unpad (p ++ List.replicate v (BitVec.ofNat 8 v)) n = some p := by
  have hlast : (p ++ List.replicate v (BitVec.ofNat 8 v)).getLastD 0 = BitVec.ofNat 8 v := by
    rw [List.getLastD_eq_getLast?, List.getLast?_append, List.getLast?_replicate, if_neg (by omega)]
    rfl
  refine unpad_eq_some_iff.2 ⟨(validate_iff_endsInPadding ..).2 ⟨p, v, h1, hn, h256, rfl⟩, ?_⟩
  rw [hlast, BitVec.toNat_ofNat, Nat.mod_eq_of_lt h256, List.length_append, List.length_replicate, Nat.add_sub_cancel,
    List.take_left]

/-- Unpad gives an unaligned buffer back from what Pad made of it (R183). -/
theorem unpad_pad {b : List Byte} {n : Nat} (hn : 1 ≤ n) (h256 : n < 256) (h : b.length % n ≠ 0) : unpad (pad b n) n = some b := by
  have := Nat.mod_lt b.length hn
  rw [pad_unaligned h]
  exact unpad_append_padding (by omega) (by omega) (by omega)

/-- Validate of a nonempty buffer, by its last byte (R181). -/
theorem validate_concat_iff (b : List Byte) (v : Byte) (n : Nat) : validate (b ++ [v]) n = true ↔ v ≠ 0 ∧ v.toNat ≤ n ∧
    v.toNat ≤ (b ++ [v]).length ∧ ∀ k x, (b ++ [v]).length - v.toNat ≤ k → (b ++ [v])[k]? = some x → x = v := by
  rw [validate_iff, List.getLast?_concat]
  simp only [Option.some.injEq, exists_eq_left']

/-- A last byte that is no count fails (R181). -/
theorem validate_concat_of_bad_count {b : List Byte} {v : Byte} {n : Nat}
    (h : v = 0 ∨ n < v.toNat ∨ (b ++ [v]).length < v.toNat) : validate (b ++ [v]) n = false := by
  rw [Bool.eq_false_iff, ne_eq, validate_concat_iff]
  rintro ⟨h0, hn, hl, -⟩
  rcases h with h | h | h
  · exact h0 h
  · exact absurd hn (Nat.not_le.2 h)
  · exact absurd hl (Nat.not_le.2 h)

/-- A byte among the last v that is not v fails (R181). -/
theorem validate_concat_of_bad_tail {b : List Byte} {v : Byte} {n k : Nat} (hk : k < v.toNat) (hl : v.toNat ≤ (b ++ [v]).length)
    (h : (b ++ [v])[(b ++ [v]).length - 1 - k]? ≠ some v) : validate (b ++ [v]) n = false := by
  rw [Bool.eq_false_iff, ne_eq, validate_concat_iff]
  rintro ⟨-, -, -, ht⟩
  have hi : (b ++ [v]).length - 1 - k < (b ++ [v]).length := by omega
  have hx := List.getElem?_eq_getElem hi
  exact h (by rw [hx, ht _ _ (by omega) hx])

/-- Settles O37: Unpad undoes Pad on an unaligned buffer; n bytes of value n validate, and a last byte of 0 does not. -/
theorem padThenUnpadIsIdentity : Obligations.PadThenUnpadIsIdentity := by
  refine ⟨fun b n h1 h255 h => ?_, fun b n _ _ => pad_aligned, fun n h1 h255 => ⟨?_, ?_⟩, fun _ => rfl,
    fun b v n => validate_concat_of_bad_count, fun b v n k => validate_concat_of_bad_tail⟩
  · have hu := unpad_pad h1 (by omega) h
    have hl := padLength_unaligned h1 h
    rw [length_pad]
    exact ⟨padLength_mod _ h1, hl.1, hl.2, (unpad_eq_some_iff.1 hu).1, hu⟩
  · refine ⟨List.replicate n (BitVec.ofNat 8 n), ?_, by simp, ?_⟩
    · rw [ne_eq, List.replicate_eq_nil_iff]
      omega
    · exact (validate_iff_endsInPadding ..).2 ⟨[], n, h1, le_rfl, by omega, rfl⟩
  · exact ⟨List.replicate (n - 1) 0 ++ [0], by simp, by simp [Nat.sub_add_cancel h1], validate_concat_of_bad_count (.inl rfl)⟩

/-! ## The commands on a written input -/

/-- An output that fits is in DMEM after it is written, and nothing else of the state changes but OUT_LEN and ERR. -/
theorem wroteOutput_writeOutput {s : State} {out : List Byte} (hc : s.config.ok = true)
    (hd : s.inRange s.dst.toNat out.length = true) : wroteOutput s (s.writeOutput out) out :=
  ⟨rfl, outLen_writeOutput hc ((State.inRange_iff ..).1 hd), Memory.readBytes_writeBytes ..,
    fun _ hx => Memory.read_writeBytes_outside _ _ hx⟩

section Written

variable {n : Byte} {s : State} {b : List Byte} (hb : inputIs s b)
include hb

/-- PAD writes Pad of its input, if that fits (R185). -/
theorem exec_pad_written (hn : n ≠ 0) (hd : s.inRange s.dst.toNat (padLength b.length n.toNat) = true) :
    exec (.pad n) s = .next (s.writeOutput (pad b n.toNat)) := by
  obtain ⟨hs, hr⟩ := hb
  rw [Memory.readBytes_length hr] at hd
  simp only [exec, execPad, if_neg hn]
  exact State.runBuffer_ok hs hd hr rfl

/-- UNPAD writes Unpad of its input, if that fits (R186). -/
theorem exec_unpad_of_unpad {out : List Byte} (hu : unpad b n.toNat = some out)
    (hd : s.inRange s.dst.toNat out.length = true) : exec (.unpad n) s = .next (s.writeOutput out) := by
  obtain ⟨hv, rfl⟩ := unpad_eq_some_iff.1 hu
  rw [List.length_take, Nat.min_eq_left (Nat.sub_le ..)] at hd
  rw [exec_unpad_written n hb.1 hb.2, if_pos hv, if_pos hd]

/-- Without a padding to take off, UNPAD reports PADDING_ERROR (R184, R186). -/
theorem exec_unpad_not_padded (h : ¬ endsInPadding b n.toNat) : exec (.unpad n) s = .next (s.raiseBufferError errPadding) := by
  rw [← validate_iff_endsInPadding] at h
  rw [exec_unpad_written n hb.1 hb.2, if_neg h]

theorem exec_valid_padded (h : endsInPadding b n.toNat) : exec (.valid n) s = .next (s.finish errOk) := by
  rw [exec_valid_written n hb.1 hb.2, if_pos ((validate_iff_endsInPadding ..).2 h)]

theorem exec_valid_not_padded (h : ¬ endsInPadding b n.toNat) : exec (.valid n) s = .next (s.finish errPadding) := by
  rw [← validate_iff_endsInPadding] at h
  rw [exec_valid_written n hb.1 hb.2, if_neg h]

end Written

/-- Settles O33: the output is Pad of the input, with k = n - (length mod n) where the input is not aligned. -/
theorem padWritesPaddedInput : Obligations.PadWritesPaddedInput := by
  intro n s b hc hn hb hd
  have hlt := Nat.mod_lt b.length (BitVec.toNat_pos_of_ne_zero hn)
  refine ⟨_, pad b n.toNat, exec_pad_written hb hn hd, wroteOutput_writeOutput hc (by rwa [length_pad]), pad_aligned,
    fun h => ⟨n.toNat - b.length % n.toNat, by omega, by omega, ?_, pad_unaligned h⟩⟩
  have := padLength_mod b.length (BitVec.toNat_pos_of_ne_zero hn)
  rwa [padLength, if_neg h] at this

/-- Settles O34: Unpad of such an input is the input without its padding. -/
theorem unpadRemovesPadding : Obligations.UnpadRemovesPadding := by
  intro n s p v hc h1 hn hb hd
  have hu := unpad_append_padding (p := p) h1 hn (hn.trans_lt n.isLt)
  exact ⟨_, exec_unpad_of_unpad hb hu hd, wroteOutput_writeOutput hc hd⟩

/-- Settles O35: VALID answers Validate of its input. -/
theorem validDecidesPadding : Obligations.ValidDecidesPadding :=
  fun _ _ _ hb => ⟨exec_valid_padded hb, exec_valid_not_padded hb⟩

/-- Settles O36: each of the two failures writes registers alone, by values that do not depend on DMEM. -/
theorem paddingFailureLeaksNothing : Obligations.PaddingFailureLeaksNothing := fun _ _ _ _ _ hb hc hnb hnc =>
  ⟨_, _, exec_valid_not_padded hb hnb, exec_valid_not_padded hc hnc, exec_unpad_not_padded hb hnb,
    exec_unpad_not_padded hc hnc, rfl, rfl, rfl, rfl⟩

/-- The output of a buffer command is the input of the next, once the host has chained them. -/
theorem inputIs_chain {s t : State} {out : List Byte} {d : Word} (h : wroteOutput s t out)
    (hd : s.inRange s.dst.toNat out.length = true) : inputIs (chain t d) out := by
  obtain ⟨ht, hl, hr, -⟩ := h
  have hsrc : (chain t d).src = s.dst := (congrArg State.dst ht :)
  have hlen : (chain t d).len.toNat = out.length := hl
  have hconf : (chain t d).config = s.config := (congrArg State.config ht :)
  rw [inputIs, hsrc, hlen, State.inRange_iff, hconf, ← State.inRange_iff]
  exact ⟨hd, hr⟩

/-- Settles O38: PAD leaves Pad of the input as UNPAD's input, and Unpad undoes Pad. -/
theorem unpadCommandUndoesPadCommand : Obligations.UnpadCommandUndoesPadCommand := by
  intro n s b d hc hn hb hr hdst hd
  have hdst' : s.inRange s.dst.toNat (pad b n.toNat).length = true := by rwa [length_pad]
  have hin := inputIs_chain (d := d) (wroteOutput_writeOutput hc hdst') hdst'
  have hu := unpad_pad (BitVec.toNat_pos_of_ne_zero hn) n.isLt hr
  exact ⟨_, _, exec_pad_written hb hn hdst, exec_unpad_of_unpad hin hu hd, wroteOutput_writeOutput hc hd⟩

/-! ## Frames (R185 to R187) -/

/-- At most DMEM, OUT_LEN and ERR change, DMEM only with ERR 0 and only in the `n` bytes from DST on. -/
def OutputFrame (s t : State) (n : Nat) : Prop :=
  t = { s with dmem := t.dmem, outLen := t.outLen, err := t.err } ∧ (t.err ≠ errOk → t.dmem = s.dmem) ∧
    sameOutside s t s.dst.toNat n

theorem outputFrame_raiseBufferError (s : State) (c : BitVec 4) (n : Nat) : OutputFrame s (s.raiseBufferError c) n :=
  ⟨rfl, fun _ => rfl, fun _ _ => rfl⟩

theorem outputFrame_writeOutput (s : State) (out : List Byte) : OutputFrame s (s.writeOutput out) out.length :=
  ⟨rfl, fun h => absurd rfl h, fun _ hx => Memory.read_writeBytes_outside _ _ hx⟩

theorem exec_pad_frame {n : Byte} {s t : State} (h : exec (.pad n) s = .next t) :
    OutputFrame s t (padLength s.len.toNat n.toNat) := by
  simp only [exec, execPad] at h
  split at h
  · cases h
    exact outputFrame_raiseBufferError ..
  · rcases State.runBuffer_next h with ⟨rfl, _⟩ | ⟨_, _, b, out, hb, hout, rfl⟩
    · exact outputFrame_raiseBufferError ..
    · cases hout
      have hl : (pad b n.toNat).length = padLength s.len.toNat n.toNat := by rw [length_pad, Memory.readBytes_length hb]
      exact hl ▸ outputFrame_writeOutput s _

/-- UNPAD writes only after validation, so the last byte of its input is written and counts the bytes that are left out. -/
theorem exec_unpad_frame {n : Byte} {s t : State} (h : exec (.unpad n) s = .next t) :
    OutputFrame s t (s.len.toNat - ((s.dmem.read (s.src.toNat + s.len.toNat - 1)).getD 0).toNat) := by
  rcases exec_unpad_cases n s with
    ⟨_, e⟩ | ⟨_, ⟨_, e⟩ | ⟨_, e⟩ | ⟨v, hv, hlast, ⟨_, e⟩ | ⟨_, ⟨_, e⟩ | ⟨out, hb, e⟩⟩⟩⟩ <;> rw [e] at h <;> cases h
  · exact outputFrame_raiseBufferError ..
  · exact outputFrame_raiseBufferError ..
  · exact outputFrame_raiseBufferError ..
  · obtain ⟨h1, _, _, ht⟩ := (validateCells_true_iff ..).1 ⟨hv, hlast⟩
    have hread : s.dmem.read (s.src.toNat + s.len.toNat - 1) = some v := ht 0 h1
    rw [hread, Option.getD_some, ← Memory.readBytes_length hb]
    exact outputFrame_writeOutput s out

theorem exec_valid_frame {n : Byte} {s t : State} (h : exec (.valid n) s = .next t) :
    t = { s with err := t.err } ∧ ∀ a, t.dmem.read a = s.dmem.read a := by
  rcases exec_valid_cases n s with ⟨_, _, e⟩ | ⟨_, c, e⟩ <;> rw [e] at h <;> cases h
  exact ⟨rfl, fun _ => rfl⟩

/-- Settles O39: PAD and UNPAD end in an error or in an output of the length stated, and VALID in a code. -/
theorem paddingCommandFrame : Obligations.PaddingCommandFrame :=
  ⟨fun _ _ _ => exec_pad_frame, fun _ _ _ => exec_unpad_frame, fun _ _ _ => exec_valid_frame⟩

end Sys2Proof.Machine

/-! # Proofs of the family 44_modes.md: the mode functions byte by byte and as inverses, and the commands ENC and DEC -/

namespace Sys2Proof.Machine

open Sys2Proof.Claims

/-! ## The bytes of each mode function (R201 to R204) -/

/-- A sequence of blocks, block by block from its bytes. -/
theorem getElem?_eq_blockAt {bs : List Block} {i : Nat} (h : i < bs.length) : bs[i]? = some (blockAt (bytesOf bs) i) := by
  have := getElem?_blocksOf (b := bytesOf bs) (i := i) (by simpa using h)
  rwa [blocksOf_bytesOf] at this

theorem byteOfBlock_bytesOf {bs : List Block} {i k : Nat} {x : Block} (h : bs[i]? = some x) (hk : k < 16) :
    byteOfBlock (bytesOf bs) i k = some x[k] := by
  rw [byteOfBlock, getElem?_bytesOf bs i k hk, h, Option.map_some]

section Blocks

variable {b : List Byte} {i : Nat} (rk : RoundKeys) (iv : Block)

/-- Below the number of output blocks, the padded input has its block i. -/
theorem getElem?_blocksOf_pad (hi : i < padLength b.length 16 / 16) : (blocksOf (pad b 16))[i]? = some (blockAt (pad b 16) i) :=
  getElem?_blocksOf (by rwa [length_pad])

theorem byteOfBlock_ecbEnc (hi : i < padLength b.length 16 / 16) {k : Nat} (hk : k < 16) :
    byteOfBlock (ecbEnc b rk) i k = some (cipher (blockAt (pad b 16) i) rk)[k] :=
  byteOfBlock_bytesOf (by rw [List.getElem?_map, getElem?_blocksOf_pad hi, Option.map_some]) hk

theorem byteOfBlock_ecbDec (hi : i < padLength b.length 16 / 16) {k : Nat} (hk : k < 16) :
    byteOfBlock (ecbDec b rk) i k = some (invCipher (blockAt (pad b 16) i) rk)[k] :=
  byteOfBlock_bytesOf (by rw [List.getElem?_map, getElem?_blocksOf_pad hi, Option.map_some]) hk

theorem byteOfBlock_cbcEnc (hi : i < padLength b.length 16 / 16) {k : Nat} (hk : k < 16) :
    byteOfBlock (cbcEnc b rk iv) i k =
      some (cipher (xorBlock (blockAt (pad b 16) i) (if i = 0 then iv else blockAt (cbcEnc b rk iv) (i - 1))) rk)[k] := by
  refine byteOfBlock_bytesOf ?_ hk
  rw [getElem?_cbcEncBlocks, getElem?_blocksOf_pad hi, Option.map_some,
    getElem?_eq_blockAt (i := i - 1) (by rw [length_cbcEncBlocks, length_blocksOf, length_pad]; omega)]
  rfl

theorem byteOfBlock_cbcDec (hi : i < padLength b.length 16 / 16) {k : Nat} (hk : k < 16) :
    byteOfBlock (cbcDec b rk iv) i k =
      some ((invCipher (blockAt (pad b 16) i) rk)[k] ^^^ (if i = 0 then iv else blockAt (pad b 16) (i - 1))[k]) := by
  rw [← getElem_xorBlock]
  refine byteOfBlock_bytesOf ?_ hk
  rw [getElem?_cbcDecBlocks, getElem?_blocksOf_pad hi, Option.map_some, getElem?_blocksOf_pad (i := i - 1) (by omega)]
  rfl

end Blocks

/-! ## Decode undoes encode (R215) -/

theorem ecbDec_ecbEnc (b : List Byte) (rk : RoundKeys) : ecbDec (ecbEnc b rk) rk = pad b 16 := by
  rw [ecbDec, pad_aligned (by rw [length_ecbEnc]; exact padLength_mod _ (by decide)), ecbEnc, blocksOf_bytesOf, List.map_map]
  simp only [Function.comp_def, invCipher_cipher, List.map_id']
  exact bytesOf_blocksOf (by rw [length_pad]; exact padLength_mod _ (by decide))

theorem cbcDecBlocks_cbcEncBlocks (rk : RoundKeys) (prev : Block) (xs : List Block) :
    cbcDecBlocks rk prev (cbcEncBlocks rk prev xs) = xs := by
  induction xs generalizing prev with
  | nil => rfl
  | cons x xs ih => rw [cbcEncBlocks, cbcDecBlocks, invCipher_cipher, xorBlock_xorBlock, ih]

theorem cbcDec_cbcEnc (b : List Byte) (rk : RoundKeys) (iv : Block) : cbcDec (cbcEnc b rk iv) rk iv = pad b 16 := by
  rw [cbcDec, pad_aligned (by rw [length_cbcEnc]; exact padLength_mod _ (by decide)), cbcEnc, blocksOf_bytesOf,
    cbcDecBlocks_cbcEncBlocks]
  exact bytesOf_blocksOf (by rw [length_pad]; exact padLength_mod _ (by decide))

theorem ctr_ctr (b : List Byte) (rk : RoundKeys) (nonce : BitVec 64) : ctr (ctr b rk nonce) rk nonce = b := by
  apply List.ext_getElem?
  intro j
  rw [getElem?_ctr, getElem?_ctr, Option.map_map]
  simp [Function.comp_def]

/-! ## What ENC and DEC write -/

/-- The output of a codec command on an input, by the mode functions over KEY, IV and the nonce (R213, R214). -/
def codecOutput (i : Instr) (s : State) (b : List Byte) : List Byte :=
  match i with
  | .enc .ecb => ecbEnc b (keyExpansion s.key128)
  | .dec .ecb => ecbDec b (keyExpansion s.key128)
  | .enc .cbc => cbcEnc b (keyExpansion s.key128) s.iv
  | .dec .cbc => cbcDec b (keyExpansion s.key128) s.iv
  | .enc .ctr => ctr b (keyExpansion s.key128) s.nonce
  | .dec .ctr => ctr b (keyExpansion s.key128) s.nonce
  | _ => []

theorem State.withIv_eq_ok_iff {s : State} {f : Block → List Byte → List Byte} {b out : List Byte} :
    s.withIv f b = .ok out ↔ out = f s.iv b ∧ (b = [] ∨ s.ivReady = true) :=
  ⟨State.withIv_eq_ok, fun ⟨ho, h⟩ => ho ▸ State.withIv_ok f b h⟩

/-- Before ERR 0 the key step has succeeded. -/
theorem State.afterKeyStep_success {s t : State} {body : State → Result} (h : s.afterKeyStep body = .next t) (herr : t.err = errOk) :
    body (keyedState s) = .next t := by
  rcases State.afterKeyStep_next h with ⟨rfl, _⟩ | ⟨rfl, _⟩ | ⟨h, _⟩
  · cases herr
  · cases herr
  · exact h

section Codec

variable {i : Instr} {m : Mode} (hi : i = .enc m ∨ i = .dec m)
include hi

theorem length_codecOutput (s : State) (b : List Byte) : (codecOutput i s b).length = codecLength m b.length := by
  rcases hi with rfl | rfl <;> cases m <;> simp [codecOutput, codecLength]

/-- ENC and DEC in a mode that works are the key step and a buffer operation, which answers `codecOutput` unless CBC needs an
unwritten IV. -/
theorem exec_codec_body (hm : m ≠ .gcm) : ∃ f : State → List Byte → Except Fault (List Byte),
    (∀ s, exec i s = s.afterKeyStep fun t => t.runBuffer (codecLength m t.len.toNat) (f t)) ∧
    ∀ s b out, f (keyedState s) b = .ok out ↔ out = codecOutput i s b ∧ (m = .cbc → b = [] ∨ s.ivReady = true) := by
  rcases hi with rfl | rfl <;> cases m with
  | gcm => exact absurd rfl hm
  | ecb | ctr => exact ⟨fun t b => .ok _, fun s => rfl, fun s b out => by rw [Except.ok.injEq, eq_comm, and_iff_left nofun]; rfl⟩
  | cbc =>
    exact ⟨fun t => t.withIv _, fun s => rfl, fun s b out =>
      State.withIv_eq_ok_iff.trans (and_congr_right fun _ => ⟨fun h _ => h, fun h => h rfl⟩)⟩

/-- A codec command that can run completes with the output of its input. -/
theorem exec_codec_ready {s : State} {b : List Byte} (hr : codecReady m s) (hb : inputIs s b) (hm : m ≠ .gcm) :
    exec i s = .next ((keyedState s).writeOutput (codecOutput i s b)) := by
  obtain ⟨_, h16, hk, hiv, hd⟩ := hr
  obtain ⟨hs, hb⟩ := hb
  obtain ⟨f, hx, hf⟩ := exec_codec_body hi hm
  rw [hx, State.afterKeyStep_ok _ h16 hk]
  exact State.runBuffer_ok (s := keyedState s) hs hd hb ((hf s b _).2 ⟨rfl, fun h => .inr (hiv h)⟩)

theorem codecOutput_fits {s : State} {b : List Byte} (hr : codecReady m s) (hb : inputIs s b) :
    s.inRange s.dst.toNat (codecOutput i s b).length = true := by
  obtain ⟨_, _, _, _, hd⟩ := hr
  rwa [length_codecOutput hi, Memory.readBytes_length hb.2]

/-- The command then ends as R210 says. -/
theorem wroteOutput_codec {s : State} {b : List Byte} (hr : codecReady m s) (hb : inputIs s b) :
    wroteOutput (keyedState s) ((keyedState s).writeOutput (codecOutput i s b)) (codecOutput i s b) :=
  wroteOutput_writeOutput (s := keyedState s) hr.1 (codecOutput_fits hi hr hb)

/-- A codec command that ends with ERR 0 has written the output of its input. -/
theorem exec_codec_success {s t : State} (h : exec i s = .next t) (herr : t.err = errOk) :
    ∃ b, s.dmem.readBytes s.src.toNat s.len.toNat = some b ∧ t = (keyedState s).writeOutput (codecOutput i s b) := by
  have hm : m ≠ .gcm := by
    rintro rfl
    rw [exec_gcm hi] at h
    cases State.afterKeyStep_success h herr
    cases herr
  obtain ⟨f, hx, hf⟩ := exec_codec_body hi hm
  rw [hx] at h
  rcases State.runBuffer_next (State.afterKeyStep_success h herr) with ⟨rfl, _⟩ | ⟨_, _, b, out, hb, ho, rfl⟩
  · cases herr
  · rw [((hf s b out).1 ho).1]
    exact ⟨b, hb, rfl⟩

end Codec

/-- Settles O40: the mode functions take block by block through the cipher or its inverse. -/
theorem ecbCommandsWorkBlockwise : Obligations.EcbCommandsWorkBlockwise := by
  intro s b hr hb
  refine ⟨⟨_, _, exec_codec_ready (.inl rfl) hr hb nofun, wroteOutput_codec (.inl rfl) hr hb, length_ecbEnc b _,
      fun i k hi hk => byteOfBlock_ecbEnc _ ?_ hk⟩,
    _, _, exec_codec_ready (.inr rfl) hr hb nofun, wroteOutput_codec (.inr rfl) hr hb, length_ecbDec b _,
      fun i k hi hk => byteOfBlock_ecbDec _ ?_ hk⟩
  · rwa [← length_ecbEnc]
  · rwa [← length_ecbDec]

/-- Settles O41: the chaining value of block i is ciphertext block i - 1, of the output in ENC and of the input in DEC. -/
theorem cbcCommandsChainCiphertext : Obligations.CbcCommandsChainCiphertext := by
  intro s b hr hb
  refine ⟨⟨_, _, exec_codec_ready (.inl rfl) hr hb nofun, wroteOutput_codec (.inl rfl) hr hb, length_cbcEnc b _ _,
      fun i k hi hk => byteOfBlock_cbcEnc _ _ ?_ hk⟩,
    _, _, exec_codec_ready (.inr rfl) hr hb nofun, wroteOutput_codec (.inr rfl) hr hb, length_cbcDec b _ _,
      fun i k hi hk => byteOfBlock_cbcDec _ _ ?_ hk⟩
  · rwa [← length_cbcEnc]
  · rwa [← length_cbcDec]

/-- Settles O42: ENC and DEC have one output in CTR, the XOR with the cipher of the counter blocks. -/
theorem ctrCommandsXorKeystream : Obligations.CtrCommandsXorKeystream := by
  intro s b i hi hr hb
  have hout : codecOutput i s b = ctr b (keyExpansion s.key128) s.nonce := by rcases hi with rfl | rfl <;> rfl
  refine ⟨_, _, exec_codec_ready hi hr hb nofun, wroteOutput_codec hi hr hb, length_codecOutput hi s b,
    fun j hj => ⟨_, counterBlock s.nonce (j / 16), fun k hk => ⟨?_, ?_⟩, rfl, ?_⟩⟩
  · rw [getElem_counterBlock _ _ _ (by omega), if_pos hk]
    rfl
  · rw [getElem_counterBlock _ _ _ (by omega), if_neg (by omega), Nat.add_sub_cancel_left]
  · rw [hout, getElem?_ctr, List.getElem?_eq_getElem hj, Option.map_some]

/-- The output of DEC on the output of ENC: the padded plaintext, in CTR the plaintext (R215). -/
theorem codecOutput_dec_enc {m : Mode} (hm : m ≠ .gcm) (s : State) (p : List Byte) :
    codecOutput (.dec m) s (codecOutput (.enc m) s p) = if m = .ctr then p else pad p 16 := by
  cases m with
  | ecb => exact ecbDec_ecbEnc ..
  | cbc => exact cbcDec_cbcEnc ..
  | ctr => exact ctr_ctr ..
  | gcm => exact absurd rfl hm

/-- An output is as long as its own output is. -/
theorem codecLength_codecLength (m : Mode) (l : Nat) : codecLength m (codecLength m l) = codecLength m l := by
  cases m with
  | ecb | cbc => exact padLength_aligned (padLength_mod _ (by decide))
  | ctr | gcm => rfl

/-- Once the host has chained the output of a codec command, a command in the same mode can run. -/
theorem codecReady_chain {i : Instr} {m : Mode} (hi : i = .enc m ∨ i = .dec m) {s : State} {b : List Byte} {d : Word}
    (hr : codecReady m s) (hb : inputIs s b) (hd : s.inRange d.toNat (codecLength m b.length) = true) :
    codecReady m (chain ((keyedState s).writeOutput (codecOutput i s b)) d) := by
  obtain ⟨_, hlen, _⟩ := wroteOutput_codec hi hr hb
  obtain ⟨hc, h16, hk, hiv, _⟩ := hr
  refine ⟨hc, h16, hk, hiv, ?_⟩
  simp only [chain, hlen, length_codecOutput hi, codecLength_codecLength]
  exact hd

/-- Settles O43: the host chains ENC's output to DEC, whose output is Pad of the plaintext, and that to UNPAD. -/
theorem decodeUndoesEncode : Obligations.DecodeUndoesEncode := by
  intro s p m d e hm hr hb hd he
  have hw := wroteOutput_codec (.inl rfl) hr hb
  have hin := inputIs_chain (d := d) hw (codecOutput_fits (.inl rfl) hr hb)
  have hr' := codecReady_chain (.inl rfl) hr hb hd
  have hout := codecOutput_dec_enc hm s p
  have hwu := wroteOutput_codec (.inr rfl) hr' hin
  have hfits := codecOutput_fits (.inr rfl) hr' hin
  refine ⟨_, _, exec_codec_ready (.inl rfl) hr hb hm, exec_codec_ready (.inr rfl) hr' hin hm, hout ▸ hwu,
    fun h => ?_, fun hm' h => ?_⟩
  · have hp : p = if m = .ctr then p else pad p 16 := by rw [pad_aligned h, ite_self]
    exact (hp.trans hout.symm) ▸ hwu
  · have hp : pad p 16 = codecOutput (.dec m) s (codecOutput (.enc m) s p) := by rw [hout, if_neg hm']
    have hu : unpad (pad p 16) 16 = some p := unpad_pad (by decide) (by decide) h
    have hin' := inputIs_chain (d := e) hwu hfits
    exact ⟨_, exec_unpad_of_unpad hin' (hp ▸ hu) he, wroteOutput_writeOutput hr.1 he⟩


/-! ## A flipped bit of a CBC ciphertext (R216) -/

/-- A byte that is set in a buffer is set in its block. -/
theorem getElem_blockAt_set {b : List Byte} {i k : Nat} (h : 16 * i + k < b.length) (hk : k < 16) (v : Byte) (j : Nat) {y : Nat}
    (hy : y < 16) : (blockAt (b.set (16 * i + k) v) j)[y] = if j = i ∧ y = k then v else (blockAt b j)[y] := by
  have hiff : 16 * i + k = 16 * j + y ↔ j = i ∧ y = k := by omega
  simp only [getElem_blockAt, List.getD_eq_getElem?_getD, List.getElem?_set, hiff, h, if_true]
  split <;> rfl

theorem blockAt_set_of_ne {b : List Byte} {i k j : Nat} (h : 16 * i + k < b.length) (hk : k < 16) (v : Byte) (hj : j ≠ i) :
    blockAt (b.set (16 * i + k) v) j = blockAt b j :=
  Vector.ext fun y hy => by rw [getElem_blockAt_set h hk v j hy, if_neg fun hc => hj hc.1]

/-- A write inside a range is a set in the bytes of the range. -/
theorem Memory.readBytes_write {m : Memory} {a n k : Nat} {vs : List Byte} (h : m.readBytes a n = some vs) (hk : k < n) (v : Byte) :
    (m.write (a + k) v).readBytes a n = some (vs.set k v) := by
  obtain ⟨rfl, hr⟩ := Memory.readBytes_eq_some.1 h
  refine Memory.readBytes_eq_some.2 ⟨List.length_set, fun j hj => ?_⟩
  rw [List.length_set] at hj
  rw [Memory.read_write, List.getElem_set, hr j hj]
  simp only [Nat.add_left_cancel_iff, eq_comm (a := j)]
  split <;> rfl

theorem invCipher_injective (rk : RoundKeys) : Function.Injective (invCipher · rk) :=
  Function.LeftInverse.injective (g := (cipher · rk)) (cipher_invCipher · rk)

section Flip

variable {ct : List Byte} {i k : Nat} {x : Byte} (hal : ct.length % 16 = 0) (hk : k < 16) (hx : ct[16 * i + k]? = some x)
include hal hk hx

/-- CBC decode of an aligned ciphertext with byte k of block i replaced, block by block of the ciphertext itself. -/
theorem byteOfBlock_cbcDec_set (rk : RoundKeys) (iv : Block) (v : Byte) {j y : Nat} (hj : 16 * j < ct.length) (hy : y < 16) :
    byteOfBlock (cbcDec (ct.set (16 * i + k) v) rk iv) j y =
      some ((invCipher (blockAt (ct.set (16 * i + k) v) j) rk)[y] ^^^
        if j = i + 1 ∧ y = k then v else (if j = 0 then iv else blockAt ct (j - 1))[y]) := by
  have hlt := (List.getElem?_eq_some_iff.1 hx).1
  have hal' : (ct.set (16 * i + k) v).length % 16 = 0 := by rwa [List.length_set]
  rw [byteOfBlock_cbcDec rk iv (by rw [padLength_aligned hal', List.length_set]; omega) hy, pad_aligned hal']
  cases j with
  | zero => simp
  | succ j => simp [getElem_blockAt_set hlt hk v j hy]

/-- The output of any other block changes only where the changed byte chains into it. -/
theorem byteOfBlock_cbcDec_xor_of_ne (rk : RoundKeys) (iv : Block) (f : Byte) {j y : Nat} (hj : 16 * j < ct.length) (hy : y < 16)
    (hji : j ≠ i) : byteOfBlock (cbcDec (ct.set (16 * i + k) (x ^^^ f)) rk iv) j y =
      (byteOfBlock (cbcDec ct rk iv) j y).map fun z => if j = i + 1 ∧ y = k then z ^^^ f else z := by
  obtain ⟨hlt, hxe⟩ := List.getElem?_eq_some_iff.1 hx
  have hself := byteOfBlock_cbcDec_set hal hk hx rk iv x hj hy
  rw [← hxe, List.set_getElem_self, hxe] at hself
  rw [hself, byteOfBlock_cbcDec_set hal hk hx rk iv _ hj hy, blockAt_set_of_ne hlt hk _ hji, Option.map_some]
  split
  · rw [BitVec.xor_assoc]
  · rfl

/-- The output of the block itself changes, since the inverse cipher is injective and the chaining value is the same. -/
theorem exists_byteOfBlock_cbcDec_xor_ne (rk : RoundKeys) (iv : Block) {f : Byte} (hf : f ≠ 0) :
    ∃ y, y < 16 ∧ byteOfBlock (cbcDec (ct.set (16 * i + k) (x ^^^ f)) rk iv) i y ≠ byteOfBlock (cbcDec ct rk iv) i y := by
  obtain ⟨hlt, hxe⟩ := List.getElem?_eq_some_iff.1 hx
  have hset : ∀ v {y} (hy : y < 16), byteOfBlock (cbcDec (ct.set (16 * i + k) v) rk iv) i y =
      some ((invCipher (blockAt (ct.set (16 * i + k) v) i) rk)[y] ^^^ (if i = 0 then iv else blockAt ct (i - 1))[y]) :=
    fun v y hy => by rw [byteOfBlock_cbcDec_set hal hk hx rk iv v (by omega) hy, if_neg (by omega)]
  have hself : ct.set (16 * i + k) x = ct := by rw [← hxe, List.set_getElem_self]
  by_contra hall
  push Not at hall
  have hblocks : blockAt (ct.set (16 * i + k) (x ^^^ f)) i = blockAt (ct.set (16 * i + k) x) i := by
    refine invCipher_injective rk (Vector.ext fun y hy => ?_)
    have hy' := hall y hy
    rw [← hself, List.set_set, hset _ hy, hset _ hy] at hy'
    exact (BitVec.xor_left_inj _).1 (Option.some.inj hy')
  have hbyte := congrArg (fun b : Block => b[k]) hblocks
  simp only [getElem_blockAt_set hlt hk _ i hk, and_self, if_true] at hbyte
  exact hf (by simpa using hbyte)

end Flip

/-- A byte of an output block, read at DST. -/
theorem State.read_writeOutput_block (s : State) {out : List Byte} {j y : Nat} (h : 16 * j + y < out.length) :
    (s.writeOutput out).dmem.read (s.dst.toNat + (16 * j + y)) = byteOfBlock out j y := by
  rw [byteOfBlock, List.getElem?_eq_getElem h]
  exact Memory.read_writeBytes_inside _ _ _ h

theorem one_shiftLeft_ne_zero : ∀ q < 8, 1#8 <<< q ≠ 0 := by decide

/-- Settles O44: the flip is a set in DEC's input snapshot; it reaches block i through the inverse cipher and block i + 1 through
the chaining value. -/
theorem cbcBitFlip : Obligations.CbcBitFlip := by
  intro s ct i k q x hr hb hal hi hk hq hx
  have hlt := (List.getElem?_eq_some_iff.1 hx).1
  have hlen := Memory.readBytes_length hb.2
  have hb' : inputIs { s with dmem := s.dmem.write (s.src.toNat + (16 * i + k)) (x ^^^ (1#8 <<< q)) }
      (ct.set (16 * i + k) (x ^^^ (1#8 <<< q))) := ⟨hb.1, Memory.readBytes_write hb.2 (hlen ▸ hlt) _⟩
  have hread : ∀ (u : State) (b : List Byte), b.length = ct.length → ∀ j y, 16 * j < ct.length → y < 16 →
      (u.writeOutput (codecOutput (.dec .cbc) s b)).dmem.read (u.dst.toNat + (16 * j + y)) =
        byteOfBlock (cbcDec b (keyExpansion s.key128) s.iv) j y := fun u b hbl j y hj hy => by
    refine u.read_writeOutput_block ?_
    rw [length_codecOutput (.inr rfl), hbl, codecLength, padLength_aligned hal]
    omega
  have hold := hread (keyedState s) ct rfl
  have hnew := hread (keyedState { s with dmem := s.dmem.write (s.src.toNat + (16 * i + k)) (x ^^^ (1#8 <<< q)) }) _
    (List.length_set (as := ct) (i := 16 * i + k) (a := x ^^^ (1#8 <<< q)))
  refine ⟨_, _, exec_codec_ready (.inr rfl) hr hb nofun, exec_codec_ready (.inr rfl) hr hb' nofun, rfl, rfl, ?_, ?_⟩
  · obtain ⟨y, hy, hne⟩ := exists_byteOfBlock_cbcDec_xor_ne hal hk hx (keyExpansion s.key128) s.iv (one_shiftLeft_ne_zero q hq)
    refine ⟨y, hy, fun h => hne ?_⟩
    exact (hnew i y hi hy).symm.trans (h.trans (hold i y hi hy))
  · intro j y hj hy hji
    refine (hnew j y hj hy).trans ?_
    rw [byteOfBlock_cbcDec_xor_of_ne hal hk hx _ _ _ hj hy hji, ← hold j y hj hy]
    rfl

/-! ## The input snapshot (R212) -/

/-- The output of a buffer command from the cells of its input: all of them, in UNPAD those before the padding (R212). -/
def snapshotOutput (i : Instr) (s : State) (c : List (Option Byte)) : Option (List Byte) :=
  match i with
  | .pad n => (allWritten c).map fun b => pad b n.toNat
  | .unpad _ => allWritten (c.take (c.length - ((c.getLast?.bind id).getD 0).toNat))
  | i => (allWritten c).map (codecOutput i s)

/-- A command that ends with ERR 0 after it has written its output: the bytes at DST and OUT_LEN. -/
def SnapshotWritten (i : Instr) (s t : State) : Prop :=
  ∃ out, snapshotOutput i s (s.dmem.cells s.src.toNat s.len.toNat) = some out ∧
    t.dmem = s.dmem.writeBytes s.dst.toNat out ∧ t.outLen = BitVec.ofNat 32 out.length

theorem snapshotWritten_codec {i : Instr} {m : Mode} {s t : State} (hi : i = .enc m ∨ i = .dec m) (h : exec i s = .next t)
    (herr : t.err = errOk) : SnapshotWritten i s t := by
  obtain ⟨b, hb, rfl⟩ := exec_codec_success hi h herr
  refine ⟨codecOutput i s b, ?_, rfl, rfl⟩
  rcases hi with rfl | rfl <;> exact congrArg (Option.map _) hb

theorem snapshotWritten_pad {n : Byte} {s t : State} (h : exec (.pad n) s = .next t) (herr : t.err = errOk) :
    SnapshotWritten (.pad n) s t := by
  simp only [exec, execPad] at h
  split at h
  · cases h; cases herr
  · rcases State.runBuffer_next h with ⟨rfl, _⟩ | ⟨_, _, b, out, hb, hout, rfl⟩
    · cases herr
    · cases hout
      exact ⟨pad b n.toNat, congrArg (Option.map _) hb, rfl, rfl⟩

theorem snapshotWritten_unpad {n : Byte} {s t : State} (h : exec (.unpad n) s = .next t) (herr : t.err = errOk) :
    SnapshotWritten (.unpad n) s t := by
  rcases exec_unpad_cases n s with
    ⟨_, e⟩ | ⟨_, ⟨_, e⟩ | ⟨_, e⟩ | ⟨v, _, hlast, ⟨_, e⟩ | ⟨_, ⟨_, e⟩ | ⟨out, hb, e⟩⟩⟩⟩ <;> rw [e] at h <;> cases h
  · cases herr
  · cases herr
  · cases herr
  · refine ⟨out, ?_, rfl, rfl⟩
    rwa [snapshotOutput, hlast, Memory.cells_length, Option.bind_some, id, Option.getD_some, Memory.take_cells _ _ (Nat.sub_le ..)]

theorem snapshotWritten {i : Instr} {s t : State} (hi : bufferWriter i = true) (h : exec i s = .next t) (herr : t.err = errOk) :
    SnapshotWritten i s t := by
  cases i with
  | enc m => exact snapshotWritten_codec (.inl rfl) h herr
  | dec m => exact snapshotWritten_codec (.inr rfl) h herr
  | pad n => exact snapshotWritten_pad h herr
  | unpad n => exact snapshotWritten_unpad h herr
  | _ => cases hi

/-- Settles O45: both outputs are `snapshotOutput` of the same cells, which reads neither DST nor DMEM. -/
theorem outputDependsOnInputSnapshotOnly : Obligations.OutputDependsOnInputSnapshotOnly := by
  intro i s t u dst m hi hcells ht hu het heu
  obtain ⟨out, hout, htm, htl⟩ := snapshotWritten hi ht het
  obtain ⟨out', hout', hum, hul⟩ := snapshotWritten hi hu heu
  have hsame : out' = out := by
    rw [← hcells] at hout
    exact Option.some.inj (hout'.symm.trans hout)
  subst hsame
  exact ⟨hul.trans htl.symm, _, htm, hum⟩

/-! ## The frame of ENC and DEC (R210, R213, R214) -/

theorem KeyStepDone.rk_of_ne {s base : State} (h : KeyStepDone s base) (h16 : s.keyLen ≠ 16) : base = s := by
  cases h with
  | expanded h => exact absurd h h16
  | other => rfl

theorem BufferEnd.dmem_of_err {base t : State} (h : BufferEnd base t) (herr : t.err ≠ errOk) : t.dmem = base.dmem := by
  cases h with
  | error | fault => rfl
  | output => exact absurd rfl herr

/-- The bytes that ENC and DEC leave: all if they end in an error or the fault, else those outside an output of the mode's length. -/
theorem exec_codec_sameOutside {i : Instr} {m : Mode} {s t : State} (hi : i = .enc m ∨ i = .dec m) (h : exec i s = .next t)
    (hdmem : t.err ≠ errOk → t.dmem = s.dmem) : sameOutside s t s.dst.toNat (codecLength m s.len.toNat) := by
  intro x hx
  by_cases herr : t.err = errOk
  · obtain ⟨b, hb, rfl⟩ := exec_codec_success hi h herr
    rw [← Memory.readBytes_length hb, ← length_codecOutput hi s b] at hx
    exact Memory.read_writeBytes_outside _ _ hx
  · rw [hdmem herr]

/-- Settles O46: the key step, which writes RK only with KEY_LEN 16, and then one of the ends of a buffer command. -/
theorem codecFrame : Obligations.CodecFrame := by
  intro i m s t hi h
  obtain ⟨base, hk, he⟩ := exec_codec_next hi h
  have hdmem : t.err ≠ errOk → t.dmem = s.dmem := fun herr => by rw [he.dmem_of_err herr, hk.frame]
  refine ⟨by rw [he.frame, hk.frame], fun h16 => ?_, hdmem, exec_codec_sameOutside hi h hdmem⟩
  rw [he.frame, hk.rk_of_ne h16]
  exact ⟨rfl, rfl⟩

end Sys2Proof.Machine

/-! # Proofs of the family 60_exceptions.md: STATUS, the FAULT gate, where the fault is raised, and the order of the conditions -/

namespace Sys2Proof.Machine

open Sys2Proof.Claims

/-! ## STATUS stays legal (R240) -/

theorem statusLegal_of_not_faulted {t : State} (hf : t.fault = false) (hc : t.err ∈ writableCodes)
    (h15 : t.err ≠ errUnimplemented) : StatusLegal t := ⟨hc, by rw [hf]; exact iff_of_false nofun h15⟩

/-- From FAULT = 0 a command ends with FAULT = 0 and a code other than 15, or in the fault, which writes both. -/
theorem statusLegal_endsAs {base t : State} (hf : base.fault = false) (h : EndsAs base t) : StatusLegal t := by
  rcases h with ⟨c, hc, h15, rfl⟩ | ⟨c, hc, h15, rfl⟩ | rfl | ⟨v, rfl⟩ | ⟨b, _, rfl⟩ | ⟨out, _, rfl⟩
  · exact statusLegal_of_not_faulted hf hc h15
  · exact statusLegal_of_not_faulted hf hc h15
  · exact ⟨by simp [writableCodes], by simp⟩
  all_goals exact statusLegal_of_not_faulted hf (List.mem_cons_self ..) (show errOk ≠ errUnimplemented by decide)

theorem statusLegal_hostWrite {s t : State} (hs : StatusLegal s) (h : HostWrite s t) : StatusLegal t :=
  h.keeps (P := StatusLegal) (fun _ r _ hs => by cases r <;> exact hs) (fun _ a _ _ _ hs => by cases a <;> exact hs) hs

/-- Settles O60: a command starts only without FAULT, and its ends write ERR and FAULT together; no host write reaches either. -/
theorem stepKeepsStatusLegal : Obligations.StepKeepsStatusLegal := by
  intro s t hs h
  refine step_keeps (P := StatusLegal) (fun s l d n hs => hs) (fun s t => statusLegal_hostWrite)
    (fun s base hs hf hk => ?_) (fun s t _ hf => statusLegal_endsAs hf)
    (fun s _ => show StatusLegal State.reset by decide) hs h
  rw [hk.frame]
  exact ⟨hs, hf⟩

/-! ## Host accesses do not read FAULT (R244) -/

theorem State.arrayByte_setFault (s : State) (b : Bool) (a : ArrayName) (i : Nat) :
    ({ s with fault := b } : State).arrayByte a i = s.arrayByte a i := by cases a <;> rfl

theorem State.drawByte_setFault (s : State) (b : Bool) (c : Option Byte) :
    ({ s with fault := b } : State).drawByte c = ((s.drawByte c).1, { (s.drawByte c).2 with fault := b }) := by
  cases c <;> rfl

theorem State.readArrayWord_setFault (s : State) (b : Bool) (a : ArrayName) (i : Nat) :
    ({ s with fault := b } : State).readArrayWord a i =
      ((s.readArrayWord a i).1, { (s.readArrayWord a i).2 with fault := b }) := by
  simp only [State.readArrayWord, State.arrayByte_setFault, State.drawByte_setFault]

theorem State.readReg_setFault (s : State) (b : Bool) {r : RegName} (hr : r ≠ .status) :
    ({ s with fault := b } : State).readReg r = s.readReg r := by
  cases r with
  | status => exact absurd rfl hr
  | _ => rfl

theorem State.writeReg_setFault (s : State) (b : Bool) (r : RegName) (v : Word) :
    ({ s with fault := b } : State).writeReg r v = { s.writeReg r v with fault := b } := by cases r <;> rfl

theorem State.writeArrayByte_setFault (s : State) (b : Bool) (a : ArrayName) (i : Nat) (v : Byte) :
    ({ s with fault := b } : State).writeArrayByte a i v = { s.writeArrayByte a i v with fault := b } := by cases a <;> rfl

theorem State.writeArrayWord_setFault (s : State) (b : Bool) (a : ArrayName) (i : Nat) (v : Word) :
    ({ s with fault := b } : State).writeArrayWord a i v = { s.writeArrayWord a i v with fault := b } := by
  simp only [State.writeArrayWord, State.writeArrayByte_setFault]

/-- An access that is no CMD write and no read of STATUS does the same whatever FAULT holds, and leaves FAULT. -/
theorem hostEvent_setFault {e : HostEvent} {s : State} (b : Bool) (hreset : e ≠ .reset)
    (hcmd : ∀ w, e ≠ .write32 s.config.engineBase w) (hstatus : e ≠ .read32 (s.config.engineBase + regOffset .status)) :
    hostEvent e { s with fault := b } = onNext (fun t => { t with fault := b }) (hostEvent e s) := by
  cases e with
  | reset => exact absurd rfl hreset
  | read8 addr =>
    simp only [hostEvent]
    cases locate8 s.config addr with
    | error r => rfl
    | ok x => simp only [State.arrayByte_setFault, State.drawByte_setFault, onNext]
  | write8 addr v =>
    simp only [hostEvent]
    cases locate8 s.config addr with
    | error r => rfl
    | ok x => simp only [State.writeArrayByte_setFault, onNext]
  | read32 addr =>
    simp only [hostEvent]
    cases hl : locate32 s.config addr with
    | error r => rfl
    | ok x =>
      obtain ⟨_ | r | a, i⟩ := x
      · rfl
      · have hr : r ≠ .status := by
          rintro rfl
          rcases locate32_cases hl with ⟨hn, _⟩ | ⟨_, hn, rfl⟩ | ⟨_, hn, _⟩ <;> cases hn
          exact hstatus rfl
        simp only [State.readReg_setFault s b hr, onNext]
      · simp only [State.readArrayWord_setFault, onNext]
  | write32 addr v =>
    simp only [hostEvent]
    cases hl : locate32 s.config addr with
    | error r => rfl
    | ok x =>
      obtain ⟨_ | r | a, i⟩ := x
      · rcases locate32_cases hl with ⟨_, rfl⟩ | ⟨_, hn, _⟩ | ⟨_, hn, _⟩
        · exact absurd rfl (hcmd v)
        · cases hn
        · cases hn
      · simp only [State.writeReg_setFault, onNext]
      · simp only [State.writeArrayWord_setFault, onNext]

/-- Settles O8: `issue` drops a command word under FAULT, and no other access but a read of STATUS looks at FAULT. -/
theorem accessesWorkWhileFaulted : Obligations.AccessesWorkWhileFaulted := by
  refine ⟨fun s w hs => (hostEvent_command w s).trans (issue_faulted hs), fun s e hreset hcmd hstatus => ?_,
    hostEvent_readReg .status, fun s t e hs h => ⟨fun ht => ?_, ?_⟩, fun s hs ⟨_, hf⟩ => ?_⟩
  · exact hostEvent_setFault (s := { s with fault := false }) true hreset hcmd hstatus
  · by_contra he
    rw [hostEvent_keeps_fault hs he h] at ht
    cases ht
  · rintro rfl
    cases h
    rfl
  · rw [hs] at hf
    cases hf

/-! ## Where the fault is raised (R243) -/

theorem State.afterKeyStep_invalid {s : State} (body : State → Result) (h16 : s.keyLen ≠ 16) (h24 : s.keyLen ≠ 24)
    (h32 : s.keyLen ≠ 32) : s.afterKeyStep body = .next (s.raiseBufferError errInvalidKeySize) := by
  simp [State.afterKeyStep, keyStep_invalid h16 h24 h32]

theorem State.afterKeyStep_unimplemented {s : State} (body : State → Result) (h : s.keyLen = 24 ∨ s.keyLen = 32) :
    s.afterKeyStep body = .next s.raiseFault := by simp [State.afterKeyStep, keyStep_unimplemented h]

theorem exec_keyed_unimplemented {i : Instr} {s : State} (hi : keyed i = true) (h : s.keyLen = 24 ∨ s.keyLen = 32) :
    exec i s = .next s.raiseFault := by
  cases i with
  | kexp => simp only [exec, execKexp, keyStep_unimplemented h]
  | enc | dec => exact State.afterKeyStep_unimplemented _ h
  | _ => cases hi

theorem exec_gcm_expanded {i : Instr} {s : State} (hi : i = .enc .gcm ∨ i = .dec .gcm) (h16 : s.keyLen = 16)
    (hk : s.keyReady = true) : exec i s = .next (keyedState s).raiseFault := by
  rw [exec_gcm hi, State.afterKeyStep_ok _ h16 hk]
  rfl

theorem State.runBuffer_fault {s t : State} {n : Nat} {f : List Byte → Except Fault (List Byte)}
    (h : s.runBuffer n f = .next t) : t.fault = s.fault := by
  rcases State.runBuffer_next h with ⟨rfl, _⟩ | ⟨_, _, _, _, _, _, rfl⟩ <;> rfl

theorem State.afterKeyStep_fault {s t : State} {body : State → Result} (h : s.afterKeyStep body = .next t) :
    t.fault = s.fault ∨ (s.keyLen = 24 ∨ s.keyLen = 32) ∨ (body (keyedState s) = .next t ∧ s.keyLen = 16) := by
  rcases State.afterKeyStep_next h with ⟨rfl, _⟩ | ⟨_, hl⟩ | ⟨h, h16, _⟩
  · exact .inl rfl
  · exact .inr (.inl hl)
  · exact .inr (.inr ⟨h, h16⟩)

/-- The three cases of R243: the key step on a longer key, and ENC and DEC in mode GCM after a key step on a 16-byte key. -/
def UnimplementedPath (i : Instr) (s : State) : Prop :=
  (keyed i = true ∧ (s.keyLen = 24 ∨ s.keyLen = 32)) ∨ ((i = .enc .gcm ∨ i = .dec .gcm) ∧ s.keyLen = 16)

theorem exec_codec_fault {i : Instr} {m : Mode} {s t : State} (hi : i = .enc m ∨ i = .dec m) (h : exec i s = .next t) :
    t.fault = s.fault ∨ UnimplementedPath i s := by
  have hk : keyed i = true := by rcases hi with rfl | rfl <;> rfl
  by_cases hm : m = .gcm
  · subst hm
    rw [exec_gcm hi] at h
    rcases State.afterKeyStep_fault h with hf | hl | ⟨_, h16⟩
    · exact .inl hf
    · exact .inr (.inl ⟨hk, hl⟩)
    · exact .inr (.inr ⟨hi, h16⟩)
  · obtain ⟨f, hx, _⟩ := exec_codec hi hm
    rw [hx] at h
    rcases State.afterKeyStep_fault h with hf | hl | ⟨hb, _⟩
    · exact .inl hf
    · exact .inr (.inl ⟨hk, hl⟩)
    · exact .inl (State.runBuffer_fault (s := keyedState s) hb)

theorem exec_kexp_fault {s t : State} (h : exec .kexp s = .next t) : t.fault = s.fault ∨ UnimplementedPath .kexp s := by
  rcases exec_kexp_cases s with ⟨e, _⟩ | ⟨_, hl⟩ | ⟨e, _⟩ | ⟨e, _⟩
  · rw [e] at h; cases h; exact .inl rfl
  · exact .inr (.inl ⟨rfl, hl⟩)
  · rw [e] at h; cases h
  · rw [e] at h; cases h; exact .inl rfl

theorem exec_fault_of_not_keyed {i : Instr} {s t : State} (hi : keyed i = false) (h : exec i s = .next t) : t.fault = s.fault := by
  cases i with
  | gfmul | sbox | isbox => cases h; rfl
  | subb | isubb | shr | ishr | mixc | imixc | ark | round | iround | encb | decb =>
    obtain ⟨e, _⟩ := blockCommandFrame _ s t (by rfl) h
    rw [e]
  | pad n => obtain ⟨e, _⟩ := exec_pad_frame h; rw [e]
  | unpad n => obtain ⟨e, _⟩ := exec_unpad_frame h; rw [e]
  | valid n => obtain ⟨e, _⟩ := exec_valid_frame h; rw [e]
  | kexp | enc | dec => cases hi

/-- A command keeps FAULT outside the three cases. -/
theorem exec_fault {i : Instr} {s t : State} (h : exec i s = .next t) : t.fault = s.fault ∨ UnimplementedPath i s := by
  cases i with
  | kexp => exact exec_kexp_fault h
  | enc m => exact exec_codec_fault (.inl rfl) h
  | dec m => exact exec_codec_fault (.inr rfl) h
  | _ => exact .inl (exec_fault_of_not_keyed rfl h)

/-- Settles O9: the key step raises the fault, and so does the mode GCM after it; no other end of a command sets FAULT. -/
theorem faultExactlyOnUnimplementedPaths : Obligations.FaultExactlyOnUnimplementedPaths := by
  refine ⟨fun i s => exec_keyed_unimplemented, fun i s => exec_gcm_expanded, fun i s t hf h ht => ?_⟩
  exact (exec_fault h).resolve_left fun e => by rw [hf, ht] at e; cases e

/-! ## The order of the conditions (R245) -/

theorem exec_codec_invalid {i : Instr} {m : Mode} {s : State} (hi : i = .enc m ∨ i = .dec m) (h16 : s.keyLen ≠ 16)
    (h24 : s.keyLen ≠ 24) (h32 : s.keyLen ≠ 32) : exec i s = .next (s.raiseBufferError errInvalidKeySize) := by
  rcases hi with rfl | rfl <;> exact State.afterKeyStep_invalid _ h16 h24 h32

theorem exec_kexp_invalid {s : State} (h16 : s.keyLen ≠ 16) (h24 : s.keyLen ≠ 24) (h32 : s.keyLen ≠ 32) :
    exec .kexp s = .next (s.finish errInvalidKeySize) := by simp only [exec, execKexp, keyStep_invalid h16 h24 h32]

/-- After a key step that succeeded, ENC and DEC in a mode that works report a buffer outside DMEM. -/
theorem exec_codec_bounds {i : Instr} {m : Mode} {s : State} (hi : i = .enc m ∨ i = .dec m) (hm : m ≠ .gcm)
    (h16 : s.keyLen = 16) (hk : s.keyReady = true)
    (h : ¬ (s.inRange s.src.toNat s.len.toNat = true ∧ s.inRange s.dst.toNat (codecLength m s.len.toNat) = true)) :
    exec i s = .next ((keyedState s).raiseBufferError errBounds) := by
  obtain ⟨f, hx, _⟩ := exec_codec hi hm
  rw [hx, State.afterKeyStep_ok _ h16 hk]
  exact State.runBuffer_bounds (s := keyedState s) _ h

theorem exec_pad_zero (s : State) : exec (.pad 0) s = .next (s.raiseBufferError errInvalidBlockSize) := rfl

theorem exec_pad_bounds {n : Byte} {s : State} (hn : n ≠ 0)
    (h : ¬ (s.inRange s.src.toNat s.len.toNat = true ∧ s.inRange s.dst.toNat (padLength s.len.toNat n.toNat) = true)) :
    exec (.pad n) s = .next (s.raiseBufferError errBounds) := by
  simp only [exec, execPad, if_neg hn]
  exact State.runBuffer_bounds _ h

theorem exec_unpad_source_bounds (n : Byte) {s : State} (h : s.inRange s.src.toNat s.len.toNat = false) :
    exec (.unpad n) s = .next (s.raiseBufferError errBounds) := by simp [exec, execUnpad, h]

theorem exec_unpad_destination_bounds {n : Byte} {s : State} {b : List Byte} (hb : inputIs s b) (hp : endsInPadding b n.toNat)
    (hd : s.inRange s.dst.toNat (b.length - (b.getLastD 0).toNat) = false) :
    exec (.unpad n) s = .next (s.raiseBufferError errBounds) := by
  rw [exec_unpad_written n hb.1 hb.2, if_pos ((validate_iff_endsInPadding ..).2 hp), if_neg (Bool.eq_false_iff.1 hd)]

theorem exec_valid_source_bounds (n : Byte) {s : State} (h : s.inRange s.src.toNat s.len.toNat = false) :
    exec (.valid n) s = .next (s.finish errBounds) := by simp [exec, execValid, h]

/-- A transform without a key guard ends with ERR 0, bypassed or not. -/
theorem exec_unguarded_err {i : Instr} {s t : State} (hi : i ∈ unguarded) (h : exec i s = .next t) : t.err = errOk := by
  by_cases hb : i = .mixc true ∨ i = .imixc true
  · rcases hb with rfl | rfl <;> cases h <;> rfl
  · have hi' : i ∈ [.subb, .isubb, .shr, .ishr, .mixc false, .imixc false] := by
      simp only [unguarded, List.mem_cons, List.not_mem_nil, or_false] at hi ⊢
      tauto
    obtain ⟨f, e⟩ := exec_unguarded_updates hi' s
    rw [e] at h
    obtain ⟨_, rfl⟩ := State.updateState_next h
    rfl

/-- Settles O10: one rule for each row; the later conditions of a row are read only where the earlier ones do not apply. -/
theorem firstApplicableConditionIsReported : Obligations.FirstApplicableConditionIsReported := by
  have invalid : ∀ {k : Word}, k ∉ ([16, 24, 32] : List Word) → k ≠ 16 ∧ k ≠ 24 ∧ k ≠ 32 := fun h => by simpa using h
  have unimplemented : ∀ {k : Word}, k ∈ ([24, 32] : List Word) → k = 24 ∨ k = 32 := fun h => by simpa using h
  have not_both : ∀ {p q : Bool}, p = false ∨ q = false → ¬ (p = true ∧ q = true) := by decide
  refine ⟨fun s w rest hp hf => (step_command hp).trans (issue_faulted hf),
    fun s w rest hp hf hw => (step_command hp).trans (issue_illegal hf hw), fun s m i hi => ⟨fun h => ?_, fun h => ?_,
      fun h16 hk hm => ?_, fun h16 hk hm hs => exec_codec_bounds hi hm h16 hk (not_both (.inl hs)),
      fun h16 hk hm _ hd => exec_codec_bounds hi hm h16 hk (not_both (.inr hd))⟩,
    fun s => ⟨fun h => ?_, fun h => exec_keyed_unimplemented rfl (unimplemented h)⟩,
    fun s n => ⟨fun hn => hn ▸ exec_pad_zero s, fun hn hs => exec_pad_bounds hn (not_both (.inl hs)),
      fun hn _ hd => exec_pad_bounds hn (not_both (.inr hd))⟩,
    fun s n b => ⟨exec_unpad_source_bounds n, exec_unpad_not_padded, exec_unpad_destination_bounds⟩,
    fun s n b => ⟨exec_valid_source_bounds n, exec_valid_not_padded⟩, fun s i => exec_guarded_invalid,
    fun s t i a b hi h => ?_⟩
  · obtain ⟨h16, h24, h32⟩ := invalid h
    exact exec_codec_invalid hi h16 h24 h32
  · exact exec_keyed_unimplemented (by rcases hi with rfl | rfl <;> rfl) (unimplemented h)
  · subst hm
    exact exec_gcm_expanded hi h16 hk
  · obtain ⟨h16, h24, h32⟩ := invalid h
    exact exec_kexp_invalid h16 h24 h32
  · rcases hi with hi | hi
    · exact exec_unguarded_err hi h
    · simp only [List.mem_cons, List.not_mem_nil, or_false] at hi
      rcases hi with rfl | rfl | rfl <;> cases h <;> rfl

end Sys2Proof.Machine

/-! # Proofs of the family 70_reset_and_hazards.md: every command completes on written input -/

namespace Sys2Proof.Machine

open Sys2Proof.Claims

/-! ## Every next state has a code that some rule writes (R240) -/

theorem errOk_mem_writableCodes : errOk ∈ writableCodes := List.mem_cons_self ..

theorem EndsAs.err_mem_writableCodes {base t : State} (h : EndsAs base t) : t.err ∈ writableCodes := by
  rcases h with ⟨c, hc, _, rfl⟩ | ⟨c, hc, _, rfl⟩ | rfl | ⟨v, rfl⟩ | ⟨b, _, rfl⟩ | ⟨out, _, rfl⟩
  · exact hc
  · exact hc
  · show errUnimplemented ∈ writableCodes
    decide
  all_goals exact errOk_mem_writableCodes

theorem exec_err_mem_writableCodes {i : Instr} {s t : State} (h : exec i s = .next t) : t.err ∈ writableCodes := by
  obtain ⟨_, _, he⟩ := exec_effect h
  exact he.err_mem_writableCodes

/-! ## No command stops on written input (R41, R272) -/

/-- Where all of DMEM is written, a range inside it is read whole. -/
theorem State.readBytes_ne_none_of_written {s : State} (hd : ∀ a, a < s.config.dmemSize → s.dmem.read a ≠ none) {a n : Nat}
    (hr : s.inRange a n = true) : s.dmem.readBytes a n ≠ none := by
  intro h
  obtain ⟨k, hk, hn⟩ := Memory.readBytes_eq_none.1 h
  have hfit := (State.inRange_iff ..).1 hr
  exact hd (a + k) (by omega) hn

/-- Each ground of a stop is an unwritten byte of STATE, KEY[0..15], IV or the input, which lies in DMEM. -/
theorem exec_ne_fault_of_written {s : State} (hk : s.keyReady = true) (hiv : s.ivReady = true) (hs : s.stateReady = true)
    (hd : ∀ a, a < s.config.dmemSize → s.dmem.read a ≠ none) (i : Instr) (r : Fault) : exec i s ≠ .fault r := by
  intro h
  cases hb : blockCommand i with
  | true => exact Bool.eq_false_iff.1 (exec_block_fault hb h).2 hs
  | false =>
    rcases exec_fault_cases h hb with ⟨_, _, _, hkey⟩ | ⟨_, _, hivu, _⟩ | ⟨_, hu, hr⟩
    · exact Bool.eq_false_iff.1 hkey hk
    · exact Bool.eq_false_iff.1 hivu hiv
    · exact State.readBytes_ne_none_of_written hd hr hu

/-- Settles O12: `exec` neither stops on written input nor is refused, so a next state is left, and each has a writable code. -/
theorem everyCommandCompletesOnWrittenInput : Obligations.EveryCommandCompletesOnWrittenInput := by
  refine ⟨fun i s hk hiv hs hd => ?_, exec_ne_refused⟩
  cases h : exec i s with
  | next t => exact ⟨t, rfl, exec_err_mem_writableCodes h⟩
  | fault r => exact absurd h (exec_ne_fault_of_written hk hiv hs hd i r)
  | refused r => exact absurd h (exec_ne_refused i s r)

end Sys2Proof.Machine
